-- ==== Sys2Proof/Word.lean ====
section
/-! DEFINITION. The word types of HUFFCORE (spec 00_scope.md rules R6, R7, R10): all quantities are unsigned. -/

namespace Sys2Proof

/-- A symbol, a header byte or an 8-bit operand (R6, R90). -/
abbrev Byte := BitVec 8

/-- A 48-bit command word (R90, `CMD_W`). -/
abbrev CmdWord := BitVec 48

/-- The 32-bit `imm` field, and the width `FREQ_W` of a frequency counter (R7, R90). -/
abbrev Word32 := BitVec 32

/-- A node index (R7, `IDX_W`). -/
abbrev NodeIndex := BitVec 9

/-- A node weight (R7, `WEIGHT_W`). -/
abbrev Weight := BitVec 40

end Sys2Proof
end

