-- ==== Sys2Proof/Config.lean ====
section
/-! DEFINITION. The configuration of HUFFCORE: the three reserved byte values (00_scope.md rule R8), the sizes of R6
and R7, and the identification constants (10_state.md rules R33, R34). The manual leaves no value free, so this file
holds no opaque constant. -/

namespace Sys2Proof

/-- The three reserved byte values of R8, "each a named configuration parameter that a model takes as an argument". A
meaning that depends on one takes the configuration as the argument `c`, with this hardware's values as its default. -/
structure Config where
  /-- `SENTINEL`: the header byte that marks an internal node. -/
  sentinel : Byte
  /-- `PAD_SYM`: the symbol of the fallback leaf and of the unused sibling leaf. -/
  padSym : Byte
  /-- `ALT_PAD_SYM`: the sibling's symbol when the one real symbol is `PAD_SYM` itself. -/
  altPadSym : Byte
  /-- "Constraint on any other choice of values: the three are pairwise distinct." -/
  distinct : sentinel ≠ padSym ∧ sentinel ≠ altPadSym ∧ padSym ≠ altPadSym
  deriving DecidableEq, Repr

/-- The values this hardware has (R8). -/
def Config.huffcore : Config := { sentinel := 0xFF, padSym := 0x00, altPadSym := 0x01, distinct := by decide }

/-- `NSYM` (R6). -/
def Config.nsym : Nat := 256

/-- `NODE_MAX`: entries of the node memory (R6). -/
def Config.nodeMax : Nat := 511

/-- `HDR_CAP`: entries of the header buffer (R6). -/
def Config.hdrCap : Nat := 255

/-- Levels of a tree a traversal visits: a code has at most `CODE_MAX` = 255 bits (R7), so a path meets at most 256
nodes. -/
def Config.levels : Nat := 256

/-- The ID register (R33). -/
def Config.id : BitVec 32 := 0x48430107

/-- The CFG register (R34): `SENTINEL` in bits 7 to 0, `PAD_SYM` in bits 15 to 8, `ALT_PAD_SYM` in bits 23 to 16. -/
def Config.cfgWord (c : Config) : BitVec 24 := c.altPadSym ++ c.padSym ++ c.sentinel

end Sys2Proof
end

