-- ==== Sys2Proof/Syntax.lean ====
section
/-! DEFINITION. The 24 commands of HC-CMD version 1, one constructor per row of spec/opcode_table.json
(30_encoding.md rule R92). A field the command does not use has no argument here: it must be zero (R95). -/

namespace Sys2Proof

/-- A command. Every value of every operand is encodable (R96), so the operands have the widths of the fields `a` and
`imm` (R90). -/
inductive Instr where
  /-- NOP (R121). -/
  | nop
  /-- RESET (R122). -/
  | reset
  /-- RDREG, `a` = register number (R123). -/
  | rdreg (reg : Byte)
  /-- ABORT (R124). -/
  | abort
  /-- FCLR (R130). -/
  | fclr
  /-- FINC, `a` = symbol (R131). -/
  | finc (sym : Byte)
  /-- FSET, `a` = symbol, `imm` = counter value (R132). -/
  | fset (sym : Byte) (value : Word32)
  /-- FGET, `a` = symbol (R133). -/
  | fget (sym : Byte)
  /-- BUILD (R140). -/
  | build
  /-- NGET, `imm` = node index (R148). -/
  | nget (index : Word32)
  /-- NWGT, `imm` = node index (R149). -/
  | nwgt (index : Word32)
  /-- CBGEN (R160). -/
  | cbgen
  /-- CLEN, `a` = symbol (R162). -/
  | clen (sym : Byte)
  /-- CBIT, `a` = symbol, `imm` = bit position (R163). -/
  | cbit (sym : Byte) (pos : Word32)
  /-- SER (R171). -/
  | ser
  /-- DESER (R172). -/
  | deser
  /-- HLOAD, `a` = header length (R174). -/
  | hload (len : Byte)
  /-- HPUT, `a` = header byte (R175). -/
  | hput (byte : Byte)
  /-- HGET, `a` = header position (R176). -/
  | hget (pos : Byte)
  /-- EHDR (R190). -/
  | ehdr
  /-- EPUT, `a` = symbol (R191). -/
  | eput (sym : Byte)
  /-- DSTART (R200). -/
  | dstart
  /-- DBIT, `a` = bit (R201). -/
  | dbit (bit : Byte)
  /-- DEND (R202). -/
  | dend
  deriving DecidableEq, Repr

end Sys2Proof
end

