-- ==== Sys2Proof/Decode.lean ====
section
/-! DEFINITION. Decoding and encoding of the 48-bit command word (30_encoding.md rules R90 to R97), and the byte order
of a stored word (20_memory.md rule R64). The decoder is total and depends on no state (R97). -/

namespace Sys2Proof

/-- The 24 opcodes of R92, without operands. -/
inductive Opcode where
  | nop | reset | rdreg | abort
  | fclr | finc | fset | fget
  | build | nget | nwgt
  | cbgen | clen | cbit
  | ser | deser | hload | hput | hget
  | ehdr | eput
  | dstart | dbit | dend
  deriving DecidableEq, Repr

/-- The opcode value of R92. -/
def Opcode.code : Opcode → Byte
  | .nop => 0x00 | .reset => 0x01 | .rdreg => 0x02 | .abort => 0x03
  | .fclr => 0x10 | .finc => 0x11 | .fset => 0x12 | .fget => 0x13
  | .build => 0x20 | .nget => 0x21 | .nwgt => 0x22
  | .cbgen => 0x28 | .clen => 0x29 | .cbit => 0x2A
  | .ser => 0x30 | .deser => 0x31 | .hload => 0x32 | .hput => 0x33 | .hget => 0x34
  | .ehdr => 0x40 | .eput => 0x41
  | .dstart => 0x50 | .dbit => 0x51 | .dend => 0x52

/-- The opcode of a byte, or none for the 232 values R94 lists. -/
def opcodeOf (b : Byte) : Option Opcode :=
  match b.toNat with
  | 0x00 => some .nop | 0x01 => some .reset | 0x02 => some .rdreg | 0x03 => some .abort
  | 0x10 => some .fclr | 0x11 => some .finc | 0x12 => some .fset | 0x13 => some .fget
  | 0x20 => some .build | 0x21 => some .nget | 0x22 => some .nwgt
  | 0x28 => some .cbgen | 0x29 => some .clen | 0x2A => some .cbit
  | 0x30 => some .ser | 0x31 => some .deser | 0x32 => some .hload | 0x33 => some .hput | 0x34 => some .hget
  | 0x40 => some .ehdr | 0x41 => some .eput
  | 0x50 => some .dstart | 0x51 => some .dbit | 0x52 => some .dend
  | _ => none

/-- Whether the command uses the field `a` (R92); where it does not, `a` must be zero. -/
def Opcode.usesA : Opcode → Bool
  | .rdreg | .finc | .fset | .fget | .clen | .cbit | .hload | .hput | .hget | .eput | .dbit => true
  | .nop | .reset | .abort | .fclr | .build | .nget | .nwgt | .cbgen | .ser | .deser | .ehdr | .dstart | .dend => false

/-- Whether the command uses the field `imm` (R92); where it does not, `imm` must be zero. -/
def Opcode.usesImm : Opcode → Bool
  | .fset | .nget | .nwgt | .cbit => true
  | .nop | .reset | .rdreg | .abort | .fclr | .finc | .fget | .build | .cbgen | .clen | .ser | .deser | .hload | .hput
  | .hget | .ehdr | .eput | .dstart | .dbit | .dend => false

/-- The command of an opcode and its fields; `a` and `imm` "are used as they stand" (R91). -/
def Opcode.instr (o : Opcode) (a : Byte) (imm : Word32) : Instr :=
  match o with
  | .nop => .nop | .reset => .reset | .rdreg => .rdreg a | .abort => .abort
  | .fclr => .fclr | .finc => .finc a | .fset => .fset a imm | .fget => .fget a
  | .build => .build | .nget => .nget imm | .nwgt => .nwgt imm
  | .cbgen => .cbgen | .clen => .clen a | .cbit => .cbit a imm
  | .ser => .ser | .deser => .deser | .hload => .hload a | .hput => .hput a | .hget => .hget a
  | .ehdr => .ehdr | .eput => .eput a
  | .dstart => .dstart | .dbit => .dbit a | .dend => .dend

/-- The three fields of a command word (R90). -/
structure Fields where
  op  : Byte
  a   : Byte
  imm : Word32
  deriving DecidableEq, Repr

/-- `op` = bits 47 to 40, `a` = bits 39 to 32, `imm` = bits 31 to 0 (R90). -/
def fieldsOf (w : CmdWord) : Fields :=
  { op := w.extractLsb' 40 8, a := w.extractLsb' 32 8, imm := w.extractLsb' 0 32 }

/-- The word `{op, a, imm}` (R90). -/
def wordOf (f : Fields) : CmdWord := f.op ++ f.a ++ f.imm

/-- Why a word (or a byte sequence) is no command. -/
inductive DecodeError where
  /-- The opcode is not one of the 24 (R94). -/
  | unknownOpcode
  /-- The command does not use `a` and `a` is not zero (R95). -/
  | nonzeroA
  /-- The command does not use `imm` and `imm` is not zero (R95). -/
  | nonzeroImm
  /-- A byte sequence of fewer than six bytes holds no command word (R64). -/
  | shortWord
  deriving DecidableEq, Repr

/-- The command with the given fields, or why there is none (R94, R95). -/
def decodeFields (f : Fields) : Except DecodeError Instr :=
  match opcodeOf f.op with
  | none => .error .unknownOpcode
  | some o =>
    if o.usesA = false ∧ f.a ≠ 0 then .error .nonzeroA
    else if o.usesImm = false ∧ f.imm ≠ 0 then .error .nonzeroImm
    else .ok (o.instr f.a f.imm)

/-- The decoder, total on every word (R97). -/
def decode (w : CmdWord) : Except DecodeError Instr := decodeFields (fieldsOf w)

/-- The fields of a command (R92): fields it does not use are zero (R95). -/
def Instr.fields : Instr → Fields
  | .nop => ⟨Opcode.nop.code, 0, 0⟩
  | .reset => ⟨Opcode.reset.code, 0, 0⟩
  | .rdreg a => ⟨Opcode.rdreg.code, a, 0⟩
  | .abort => ⟨Opcode.abort.code, 0, 0⟩
  | .fclr => ⟨Opcode.fclr.code, 0, 0⟩
  | .finc a => ⟨Opcode.finc.code, a, 0⟩
  | .fset a v => ⟨Opcode.fset.code, a, v⟩
  | .fget a => ⟨Opcode.fget.code, a, 0⟩
  | .build => ⟨Opcode.build.code, 0, 0⟩
  | .nget n => ⟨Opcode.nget.code, 0, n⟩
  | .nwgt n => ⟨Opcode.nwgt.code, 0, n⟩
  | .cbgen => ⟨Opcode.cbgen.code, 0, 0⟩
  | .clen a => ⟨Opcode.clen.code, a, 0⟩
  | .cbit a n => ⟨Opcode.cbit.code, a, n⟩
  | .ser => ⟨Opcode.ser.code, 0, 0⟩
  | .deser => ⟨Opcode.deser.code, 0, 0⟩
  | .hload n => ⟨Opcode.hload.code, n, 0⟩
  | .hput b => ⟨Opcode.hput.code, b, 0⟩
  | .hget k => ⟨Opcode.hget.code, k, 0⟩
  | .ehdr => ⟨Opcode.ehdr.code, 0, 0⟩
  | .eput a => ⟨Opcode.eput.code, a, 0⟩
  | .dstart => ⟨Opcode.dstart.code, 0, 0⟩
  | .dbit b => ⟨Opcode.dbit.code, b, 0⟩
  | .dend => ⟨Opcode.dend.code, 0, 0⟩

/-- The command word of a command (R90, R92). -/
def encode (i : Instr) : CmdWord := wordOf i.fields

/-- The six bytes of a stored command word, "most significant byte first" (R64). -/
def bytesOfWord (w : CmdWord) : List Byte :=
  [w.extractLsb' 40 8, w.extractLsb' 32 8, w.extractLsb' 24 8, w.extractLsb' 16 8, w.extractLsb' 8 8, w.extractLsb' 0 8]

/-- The next command of a stored command stream, and the bytes after it (R64, R90). -/
def decodeBytes : List Byte → Except DecodeError (Instr × List Byte)
  | b0 :: b1 :: b2 :: b3 :: b4 :: b5 :: rest =>
    match decode (b0 ++ b1 ++ b2 ++ b3 ++ b4 ++ b5) with
    | .ok i => .ok (i, rest)
    | .error e => .error e
  | _ => .error .shortWord

/-- A row of the opcode table: the word `w` is the row's command exactly when `w AND mask = match` (R93). -/
structure TableRow where
  opcode : Opcode
  mask   : CmdWord
  value  : CmdWord
  deriving DecidableEq, Repr

/-- The rows of spec/opcode_table.json with their masks and match values, as the table writes them (R93). -/
def opcodeTable : List TableRow :=
  [ ⟨.nop,    0xFFFFFFFFFFFF, 0x000000000000⟩, ⟨.reset,  0xFFFFFFFFFFFF, 0x010000000000⟩,
    ⟨.rdreg,  0xFF00FFFFFFFF, 0x020000000000⟩, ⟨.abort,  0xFFFFFFFFFFFF, 0x030000000000⟩,
    ⟨.fclr,   0xFFFFFFFFFFFF, 0x100000000000⟩, ⟨.finc,   0xFF00FFFFFFFF, 0x110000000000⟩,
    ⟨.fset,   0xFF0000000000, 0x120000000000⟩, ⟨.fget,   0xFF00FFFFFFFF, 0x130000000000⟩ ] ++
  [ ⟨.build,  0xFFFFFFFFFFFF, 0x200000000000⟩, ⟨.nget,   0xFFFF00000000, 0x210000000000⟩,
    ⟨.nwgt,   0xFFFF00000000, 0x220000000000⟩, ⟨.cbgen,  0xFFFFFFFFFFFF, 0x280000000000⟩,
    ⟨.clen,   0xFF00FFFFFFFF, 0x290000000000⟩, ⟨.cbit,   0xFF0000000000, 0x2A0000000000⟩ ] ++
  [ ⟨.ser,    0xFFFFFFFFFFFF, 0x300000000000⟩, ⟨.deser,  0xFFFFFFFFFFFF, 0x310000000000⟩,
    ⟨.hload,  0xFF00FFFFFFFF, 0x320000000000⟩, ⟨.hput,   0xFF00FFFFFFFF, 0x330000000000⟩,
    ⟨.hget,   0xFF00FFFFFFFF, 0x340000000000⟩, ⟨.ehdr,   0xFFFFFFFFFFFF, 0x400000000000⟩,
    ⟨.eput,   0xFF00FFFFFFFF, 0x410000000000⟩, ⟨.dstart, 0xFFFFFFFFFFFF, 0x500000000000⟩,
    ⟨.dbit,   0xFF00FFFFFFFF, 0x510000000000⟩, ⟨.dend,   0xFFFFFFFFFFFF, 0x520000000000⟩ ]

/-- The command the decoder reads from the `nbits` bits `w`, numbered as spec/opcode_table.json numbers them (bit 0 is
the least significant bit of the 48-bit word). The word is laid out as its six bytes (R64) and given to the decoder. -/
def decodeTableWord (nbits w : Nat) : Option Instr :=
  if nbits ≤ 48 then
    match decodeBytes (bytesOfWord (BitVec.ofNat 48 (w % 2 ^ nbits))) with
    | .ok (i, _) => some i
    | .error _ => none
  else none

end Sys2Proof
end

