-- ==== Sys2Proof/Machine/State.lean ====
section
/-! DEFINITION. The architectural state of HUFFCORE (10_state.md rules R20 to R44), the inputs that wait at its ports
(20_memory.md rule R66), the fault codes' names (60_exceptions.md rule R221) and the ways the MODEL can stop. -/

namespace Sys2Proof.Machine

/-- The `kind` bit of a node (R36). -/
inductive NodeKind where
  | leaf
  | internal
  deriving DecidableEq, Repr

/-- One entry of the node memory (R36). -/
structure Node where
  kind   : NodeKind
  sym    : Byte
  left   : NodeIndex
  right  : NodeIndex
  weight : Weight
  deriving DecidableEq, Repr

/-- One entry of the codebook memory (R38). `bits` is the code in path order, first bit first (R11); the positions of
the 255-bit store at or beyond `len` hold no value and are not listed. -/
structure CbEntry where
  valid : Bool
  len   : BitVec 8
  bits  : List Bool
  deriving DecidableEq, Repr

/-- A memory indexed by entry number (R60): the entries that hold a value, by rising index. -/
abbrev Memory (α : Type) := List (Nat × α)

/-- The four address spaces (R60). -/
inductive Space where
  | freq
  | node
  | cb
  | hdr
  deriving DecidableEq, Repr

/-- What can arrive at the block's inputs: a command word at the command port, or the reset input (R66, R250). -/
inductive PortEvent where
  | command (w : CmdWord)
  | resetInput
  deriving DecidableEq, Repr

/-- The thirteen faults of the block (R221). They are recorded in `FAULT`; none of them stops the model. -/
inductive ErrorCode where
  | illegalCmd
  | seq
  | range
  | freqOvf
  | hdrShort
  | hdrMalformed
  | hdrTrail
  | hdrFull
  | hdrOvf
  | sentLeaf
  | noCode
  | dupSym
  | ioAbort
  deriving DecidableEq, Repr

/-- The ways a step of the MODEL stops with a fault. These are not the block's faults (`ErrorCode`): each stands for a
read or a walk the manual says no command ever makes (R43, R63, R37), and no state that meets `Safety.Inv` reaches one.
All three are safe: the model stops where the manual gives nothing. -/
inductive Fault where
  /-- A read of an entry that holds no value (R43). Raised by `readEntry` and `readBit`. Safe. -/
  | noValue (space : Space) (index : Nat)
  /-- A write to an entry that does not exist (R63). Raised by `execHput` for header position 255. Safe. -/
  | noEntry (space : Space) (index : Nat)
  /-- A traversal met more levels or another number of nodes than a tree has (R37). Raised by `visit`, `preorder`,
  `serialize` and `parse`. Safe. -/
  | notATree
  deriving DecidableEq, Repr

/-- The reasons a step is refused. -/
inductive Refusal where
  /-- The command has no meaning in the model yet. No arm of `exec` raises it: every command has its meaning. Safe. -/
  | notModelled (mnemonic : String)
  deriving DecidableEq, Repr

/-- Why a local computation of a command ends without a result: the command raises a fault of the block, or the model
stops. -/
inductive Stop where
  | raise (e : ErrorCode)
  | fault (f : Fault)
  deriving DecidableEq, Repr

/-- The state: every item of R42, the two output histories (R41, R68, R69) and the waiting inputs (R66). -/
@[ext]
structure State where
  /-- RESULT (R22). -/
  result     : BitVec 64
  /-- FAULT (R23). -/
  fault      : BitVec 8
  /-- FINFO (R24). -/
  finfo      : CmdWord
  /-- TREE_VALID (R25). -/
  treeValid  : Bool
  /-- CB_VALID (R25). -/
  cbValid    : Bool
  /-- HDR_VALID (R25). -/
  hdrValid   : Bool
  /-- DEC_ACTIVE (R25). -/
  decActive  : Bool
  /-- DEC_HALT (R25). -/
  decHalt    : Bool
  /-- DEC_PARTIAL (R25). -/
  decPartial : Bool
  /-- NNODES (R27). -/
  nnodes     : BitVec 10
  /-- ROOT (R28). -/
  root       : NodeIndex
  /-- HLEN (R29). -/
  hlen       : BitVec 8
  /-- HFILL (R30). -/
  hfill      : BitVec 8
  /-- CUR (R31). -/
  cur        : NodeIndex
  /-- FREQ (R35): the counters that are not zero; a counter that is not listed is zero. -/
  freq       : Memory Word32
  /-- NODE (R36): the entries that hold a value (R43). -/
  node       : Memory Node
  /-- CB (R38): the entries that hold a value (R43). -/
  cb         : Memory CbEntry
  /-- HDR (R39): the entries that hold a value (R43), a list of `Host.Cell`. -/
  hdr        : Memory Byte
  /-- OBITS (R68): the bits emitted since the last reset, first bit first. -/
  obits      : List Bool
  /-- OBYTES (R69): the bytes emitted since the last reset, first byte first. -/
  obytes     : List Byte
  /-- The inputs that wait at the ports (R66), oldest first: the model's own field. -/
  port       : List PortEvent
  deriving DecidableEq, Repr

/-- The block right after reset (R42, R251): every register and flag 0, every counter 0, no entry of NODE, CB and HDR
holding a value, nothing emitted, and no input waiting. -/
def State.reset : State where
  result := 0
  fault := 0
  finfo := 0
  treeValid := false
  cbValid := false
  hdrValid := false
  decActive := false
  decHalt := false
  decPartial := false
  nnodes := 0
  root := 0
  hlen := 0
  hfill := 0
  cur := 0
  freq := []
  node := []
  cb := []
  hdr := []
  obits := []
  obytes := []
  port := []

end Sys2Proof.Machine
end

