-- ==== Sys2Proof/Machine/Ops.lean ====
section
/-! DEFINITION. The operations every command is made of: the memories (10_state.md rules R35 to R39, R43; 20_memory.md
rules R60 to R63), the named updates of State, the outputs (00_scope.md rule R13), the fault primitive (R14, R220,
R231) with its only exit, reset (R232, R250), the execution frame (40_control.md rule R120), and the command port
(20_memory.md rule R66). -/

namespace Sys2Proof.Machine

/-! ### Memories -/

/-- The value entry `k` holds, or none (R43). -/
def memRead {α : Type} : Memory α → Nat → Option α
  | [], _ => none
  | (j, v) :: m, k => if k = j then some v else memRead m k

/-- `MemWrite(space, k, v)` of R12; the indices stay in rising order. -/
def memWrite {α : Type} : Memory α → Nat → α → Memory α
  | [], k, v => [(k, v)]
  | (j, w) :: m, k, v =>
    if k < j then (k, v) :: (j, w) :: m
    else if k = j then (k, v) :: m
    else (j, w) :: memWrite m k v

/-- Entry `k` holds no value any more. -/
def memErase {α : Type} (m : Memory α) (k : Nat) : Memory α := m.filter (fun e => e.1 ≠ k)

/-- The indices rise strictly. -/
def Memory.rising {α : Type} : Memory α → Bool
  | [] => true
  | [_] => true
  | (j, _) :: (k, w) :: m => decide (j < k) && Memory.rising ((k, w) :: m)

/-- The canonical form of a memory of `cap` entries: the indices rise strictly, each is below `cap` (R60, R63), and no
entry holds a value `dead` says an unlisted entry reads as. -/
def Memory.wf {α : Type} (cap : Nat) (dead : α → Bool) (m : Memory α) : Bool :=
  Memory.rising m && m.all (fun e => decide (e.1 < cap) && !dead e.2)

/-- The entries of `vs` at the indices `k`, `k + 1`, … -/
def memOfList {α : Type} : Nat → List α → Memory α
  | _, [] => []
  | k, v :: vs => (k, v) :: memOfList (k + 1) vs

/-- FREQ[k] (R35): a counter that is not listed is zero. -/
def freqRead (m : Memory Word32) (k : Nat) : Word32 := (memRead m k).getD 0

/-- FREQ[k] <- v (R35): a zero counter is not listed. -/
def freqWrite (m : Memory Word32) (k : Nat) (v : Word32) : Memory Word32 :=
  if v = 0 then memErase m k else memWrite m k v

/-- The canonical form of the whole state's memories (R60): 256 counters, 511 nodes, 256 codes, 255 header bytes. -/
def State.memoriesWf (s : State) : Bool :=
  Memory.wf Config.nsym (· == 0) s.freq && Memory.wf Config.nodeMax (fun _ => false) s.node
    && Memory.wf Config.nsym (fun _ => false) s.cb && Memory.wf Config.hdrCap (fun _ => false) s.hdr

/-- Read an entry the command needs: an entry that holds no value stops the model (R43). -/
def readEntry {α : Type} (sp : Space) (m : Memory α) (k : Nat) : Except Stop α :=
  match memRead m k with
  | some v => .ok v
  | none => .error (.fault (.noValue sp k))

/-- Read the entries of the listed indices, in order. -/
def readAll {α : Type} (sp : Space) (m : Memory α) : List Nat → Except Stop (List α)
  | [] => .ok []
  | k :: ks =>
    match readEntry sp m k with
    | .error x => .error x
    | .ok v =>
      match readAll sp m ks with
      | .error x => .error x
      | .ok vs => .ok (v :: vs)

/-! ### Bit strings -/

/-- `bits8(v)` of R11: bit 7 first (R65). -/
def bits8 (v : Byte) : List Bool :=
  [v.getLsbD 7, v.getLsbD 6, v.getLsbD 5, v.getLsbD 4, v.getLsbD 3, v.getLsbD 2, v.getLsbD 1, v.getLsbD 0]

/-! ### Named updates of the state -/

/-- `RESULT <- v` (R22). -/
def State.setResult (s : State) (v : BitVec 64) : State := { s with result := v }

/-- FREQ is replaced by `m`. -/
def State.setFreq (s : State) (m : Memory Word32) : State := { s with freq := m }

/-- What a BUILD or DESER that completes does to the state (R140, R172): the node memory is replaced, `CUR` stands on
the new root, the codebook holds no value any more (R43), and a walk over the old tree is abandoned. -/
def State.installTree (s : State) (nodes : Memory Node) (n root : Nat) : State :=
  { s with
    node := nodes
    nnodes := BitVec.ofNat 10 n
    root := BitVec.ofNat 9 root
    cur := BitVec.ofNat 9 root
    treeValid := true
    cbValid := false
    cb := []
    decActive := false
    decHalt := false
    decPartial := false }

/-- `CB <- C; CB_VALID <- 1` (R160). -/
def State.installCodebook (s : State) (c : Memory CbEntry) : State := { s with cb := c, cbValid := true }

/-- The header buffer and its three registers (R170). -/
def State.setHeader (s : State) (hdr : Memory Byte) (hlen hfill : BitVec 8) (valid : Bool) : State :=
  { s with hdr := hdr, hlen := hlen, hfill := hfill, hdrValid := valid }

/-- The decode walk's registers: `CUR`, `DEC_ACTIVE`, `DEC_HALT`, `DEC_PARTIAL` (R200, R202). -/
def State.setWalk (s : State) (cur : NodeIndex) (active halt part : Bool) : State :=
  { s with cur := cur, decActive := active, decHalt := halt, decPartial := part }

/-- `CUR <- c` (R201). -/
def State.setCur (s : State) (c : NodeIndex) : State := { s with cur := c }

/-- `emit_bits(bs)` (R13, R68). -/
def State.emitBits (s : State) (bs : List Bool) : State := { s with obits := s.obits ++ bs }

/-- `emit_byte` for each byte of `bs` (R13, R69). -/
def State.emitBytes (s : State) (bs : List Byte) : State := { s with obytes := s.obytes ++ bs }

/-! ### Faults and reset -/

/-- The code of a fault (R221). -/
def ErrorCode.code : ErrorCode → BitVec 8
  | .illegalCmd => 0x01
  | .seq => 0x02
  | .range => 0x03
  | .freqOvf => 0x10
  | .hdrShort => 0x20
  | .hdrMalformed => 0x21
  | .hdrTrail => 0x22
  | .hdrFull => 0x23
  | .hdrOvf => 0x30
  | .sentLeaf => 0x31
  | .noCode => 0x40
  | .dupSym => 0x41
  | .ioAbort => 0x50

/-- TAKING A FAULT (R14, R220, R231): `FAULT <- code; FINFO <- cmd`, and nothing else. -/
def raise (e : ErrorCode) (cmd : CmdWord) (s : State) : State := { s with fault := e.code, finfo := cmd }

/-- THE RETURN FROM A FAULT is reset (R232), by the RESET command or the reset input with the same effect (R250): every
item of R42 gets its reset value. The inputs that wait at the ports are the host's and stay. -/
def resetBlock (s : State) : State := { State.reset with port := s.port }

/-! ### The execution frame (R120) -/

/-- Step 1 of R120: in the faulted state the command is refused, "nothing changes" (R229). -/
def running (s : State) (k : Host.Outcome State Fault Refusal) : Host.Outcome State Fault Refusal :=
  if s.fault = 0 then k else .next s

/-- Steps 3 to 5 of R120: where the check fails, the command `i` raises `e`. `FINFO` gets the command word, which is
`encode i`: a legal word is the only word of its command (R94, R95). -/
def check (ok : Prop) [Decidable ok] (e : ErrorCode) (i : Instr) (s : State)
    (k : Host.Outcome State Fault Refusal) : Host.Outcome State Fault Refusal :=
  if ok then k else .next (raise e (encode i) s)

/-- Step 6 of R120 and R228: a local result is committed at once, or the fault met while computing it is raised and
nothing is committed. -/
def commit {α : Type} (i : Instr) (s : State) (r : Except Stop α) (k : α → State) :
    Host.Outcome State Fault Refusal :=
  match r with
  | .ok v => .next (k v)
  | .error (.raise e) => .next (raise e (encode i) s)
  | .error (.fault f) => .fault f

/-- A word that is no command (R94, R222), in the frame of R120. -/
def illegalWord (w : CmdWord) (s : State) : Host.Outcome State Fault Refusal :=
  running s (.next (raise .illegalCmd w s))

/-! ### The ports -/

/-- The next input that waits at the ports, and the state once it is taken (R66, R76). -/
def fetch (s : State) : Option (PortEvent × State) :=
  match s.port with
  | [] => none
  | e :: rest => some (e, { s with port := rest })

/-- The state with a command word presented as the next input. -/
def present (s : State) (w : CmdWord) : State := { s with port := .command w :: s.port }

end Sys2Proof.Machine
end

