-- ==== Sys2Proof/Machine/Flags.lean ====
section
/-! DEFINITION. The flags: the STATUS view (10_state.md rule R26) and the rules by which a flag gets a computed value
(R25; 44_header.md rules R174, R175; 46_decoder.md rules R200, R202). -/

namespace Sys2Proof.Machine

/-- FAULTED, bit 6 of STATUS: "1 exactly when FAULT ≠ 0" (R26). -/
def faulted (s : State) : Bool := s.fault != 0

/-- STATUS (R26): bit 0 TREE_VALID, 1 CB_VALID, 2 HDR_VALID, 3 DEC_ACTIVE, 4 DEC_HALT, 5 DEC_PARTIAL, 6 FAULTED. -/
def statusView (s : State) : BitVec 7 :=
  BitVec.ofBool (faulted s) ++ BitVec.ofBool s.decPartial ++ BitVec.ofBool s.decHalt ++ BitVec.ofBool s.decActive
    ++ BitVec.ofBool s.hdrValid ++ BitVec.ofBool s.cbValid ++ BitVec.ofBool s.treeValid

/-- HDR_VALID after a write of the header registers: the buffer is complete (R174, R175). -/
def headerComplete (hfill hlen : BitVec 8) : Bool := hfill == hlen

/-- DEC_HALT at DSTART: the root is a leaf (R200). -/
def haltsAt (rootNode : Node) : Bool := rootNode.kind == .leaf

/-- DEC_PARTIAL at DEND: the walk is part-way down the tree (R202). -/
def partWay (s : State) : Bool := s.cur != s.root

end Sys2Proof.Machine
end

