-- ==== Sys2Proof/Machine/Operands.lean ====
section
/-! DEFINITION. The operand forms: a register number (10_state.md rule R32), a symbol, a node index, a header position
and a bit position (20_memory.md rule R61, 30_encoding.md rules R91, R96), and the packed views the read commands
return (R148, R162). -/

namespace Sys2Proof.Machine

/-- REG(a) of R123, zero-extended to 64 bits; none for the unassigned numbers 10 to 255 (R32). -/
def regView (s : State) (a : Byte) (c : Config := Config.huffcore) : Option (BitVec 64) :=
  match a.toNat with
  | 0 => some (Config.id.setWidth 64)
  | 1 => some ((statusView s).setWidth 64)
  | 2 => some (s.fault.setWidth 64)
  | 3 => some (s.finfo.setWidth 64)
  | 4 => some (s.nnodes.setWidth 64)
  | 5 => some (s.root.setWidth 64)
  | 6 => some (s.hlen.setWidth 64)
  | 7 => some (s.hfill.setWidth 64)
  | 8 => some (s.cur.setWidth 64)
  | 9 => some (c.cfgWord.setWidth 64)
  | _ => none

/-- A node index operand is legal below NNODES; "the whole 32-bit value is compared" (R61, R91). -/
abbrev nodeInRange (s : State) (index : Word32) : Prop := index.toNat < s.nnodes.toNat

/-- A header position operand is legal below HFILL (R61). -/
abbrev posInRange (s : State) (pos : Byte) : Prop := pos.toNat < s.hfill.toNat

/-- A bit position operand is legal below the length of the code (R61). -/
abbrev bitInRange (e : CbEntry) (pos : Word32) : Prop := pos.toNat < e.len.toNat

/-- A bit operand is 0 or 1 (R96, R201). -/
abbrev bitOperand (b : Byte) : Prop := b.toNat ≤ 1

/-- Bit `k` of a code (R163): a position that holds no value stops the model (R43). -/
def readBit (e : CbEntry) (k : Nat) : Except Stop Bool :=
  match e.bits[k]? with
  | some b => .ok b
  | none => .error (.fault (.noValue .cb k))

/-- The `kind` bit: 0 = leaf, 1 = internal (R36). -/
def NodeKind.bit : NodeKind → BitVec 1
  | .leaf => 0
  | .internal => 1

/-- `{kind, sym, left, right}` of NGET: bit 26 kind, 25:18 sym, 17:9 left, 8:0 right (R148). -/
def packNode (e : Node) : BitVec 27 := e.kind.bit ++ e.sym ++ e.left ++ e.right

/-- `{valid, len}` of CLEN: bit 8 valid, 7:0 len (R162). -/
def packCode (e : CbEntry) : BitVec 9 := BitVec.ofBool e.valid ++ e.len

end Sys2Proof.Machine
end

