-- ==== Sys2Proof/Machine/Codebook.lean ====
section
/-! DEFINITION. The codebook generator CBGEN (43_codebook.md rule R160) and the codebook read commands CLEN and CBIT
(R162, R163). -/

namespace Sys2Proof.Machine

/-- The local copy `C` before the walk (R160): 256 entries without a code. -/
def blankCodebook : Memory CbEntry :=
  (List.range Config.nsym).map fun s => (s, { valid := false, len := 0, bits := [] })

/-- The entry of a leaf reached by `path` (R160). -/
def codeEntry (path : List Bool) : CbEntry := { valid := true, len := BitVec.ofNat 8 path.length, bits := path }

/-- `visit(i, path)` of R160 over the local copy `c`, left before right. `fuel` bounds the levels; a tree has at most
`Config.levels` of them (R7). -/
def visit (nodes : Memory Node) : Nat → Nat → List Bool → Memory CbEntry → Except Stop (Memory CbEntry)
  | 0, _, _, _ => .error (.fault .notATree)
  | fuel + 1, i, path, c =>
    match readEntry .node nodes i with
    | .error x => .error x
    | .ok e =>
      match e.kind with
      | .leaf =>
        match readEntry .cb c e.sym.toNat with
        | .error x => .error x
        | .ok old =>
          if old.valid = true then .error (.raise .dupSym)
          else .ok (memWrite c e.sym.toNat (codeEntry path))
      | .internal =>
        match visit nodes fuel e.left.toNat (path ++ [false]) c with
        | .error x => .error x
        | .ok c' => visit nodes fuel e.right.toNat (path ++ [true]) c'

/-- The codebook of the tree in `nodes` with root `root` (R160). -/
def codebookOf (nodes : Memory Node) (root : Nat) : Except Stop (Memory CbEntry) :=
  visit nodes Config.levels root [] blankCodebook

/-- CBGEN (R160). -/
def execCbgen (s : State) : Host.Outcome State Fault Refusal :=
  running s <|
  check (s.treeValid = true) .seq .cbgen s <|
  commit .cbgen s (codebookOf s.node s.root.toNat) fun c => s.installCodebook c

/-- CLEN (R162). -/
def execClen (a : Byte) (s : State) : Host.Outcome State Fault Refusal :=
  running s <|
  check (s.cbValid = true) .seq (.clen a) s <|
  commit (.clen a) s (readEntry .cb s.cb a.toNat) fun e => s.setResult ((packCode e).setWidth 64)

/-- The bit CBIT reads (R163): E_RANGE at or beyond the code's length. -/
def codeBit (cb : Memory CbEntry) (a : Byte) (pos : Word32) : Except Stop Bool :=
  match readEntry .cb cb a.toNat with
  | .error x => .error x
  | .ok e => if bitInRange e pos then readBit e pos.toNat else .error (.raise .range)

/-- CBIT (R163). -/
def execCbit (a : Byte) (pos : Word32) (s : State) : Host.Outcome State Fault Refusal :=
  running s <|
  check (s.cbValid = true) .seq (.cbit a pos) s <|
  commit (.cbit a pos) s (codeBit s.cb a pos) fun b => s.setResult ((BitVec.ofBool b).setWidth 64)

end Sys2Proof.Machine
end

