-- ==== Sys2Proof/Machine/Control.lean ====
section
/-! DEFINITION. The control commands NOP, RESET, RDREG, ABORT (40_control.md rules R121 to R124). -/

namespace Sys2Proof.Machine

/-- NOP (R121). -/
def execNop (s : State) : Host.Outcome State Fault Refusal := running s (.next s)

/-- RESET (R122): it executes in the faulted state too (R120 step 1). -/
def execReset (s : State) : Host.Outcome State Fault Refusal := .next (resetBlock s)

/-- RDREG (R123): with an assigned number it executes in the faulted state too; with another it raises E_RANGE, or is
refused in the faulted state (R120 step 1). -/
def execRdreg (a : Byte) (s : State) (c : Config := Config.huffcore) : Host.Outcome State Fault Refusal :=
  match regView s a c with
  | some v => .next (s.setResult v)
  | none => running s (.next (raise .range (encode (.rdreg a)) s))

/-- ABORT (R124): always E_IO_ABORT. -/
def execAbort (s : State) : Host.Outcome State Fault Refusal :=
  running s (.next (raise .ioAbort (encode .abort) s))

end Sys2Proof.Machine
end

