-- ==== Sys2Proof/Machine/Decoder.lean ====
section
/-! DEFINITION. The bitstream decoder DSTART, DBIT, DEND (46_decoder.md rules R200 to R203). -/

namespace Sys2Proof.Machine

/-- DSTART (R200). -/
def execDstart (s : State) : Host.Outcome State Fault Refusal :=
  running s <|
  check (s.treeValid = true) .seq .dstart s <|
  commit .dstart s (readEntry .node s.node s.root.toNat) fun e => s.setWalk s.root true (haltsAt e) false

/-- The child a bit leads to: "Bit 0 moves to the left child, bit 1 to the right child" (R201). -/
def Node.child (e : Node) (bit : Byte) : NodeIndex := if bit = 0 then e.left else e.right

/-- One bit of the walk (R201): the next `CUR`, and the byte emitted where the child is a leaf. -/
def walkBit (nodes : Memory Node) (root cur : NodeIndex) (bit : Byte) : Except Stop (NodeIndex × List Byte) :=
  match readEntry .node nodes cur.toNat with
  | .error x => .error x
  | .ok e =>
    match readEntry .node nodes (e.child bit).toNat with
    | .error x => .error x
    | .ok d =>
      match d.kind with
      | .leaf => .ok (root, [d.sym])
      | .internal => .ok (e.child bit, [])

/-- DBIT (R201); with DEC_HALT set it has no effect (R203). -/
def execDbit (bit : Byte) (s : State) : Host.Outcome State Fault Refusal :=
  running s <|
  check (s.decActive = true) .seq (.dbit bit) s <|
  check (bitOperand bit) .range (.dbit bit) s <|
  if s.decHalt = true then .next s
  else commit (.dbit bit) s (walkBit s.node s.root s.cur bit) fun r => (s.setCur r.1).emitBytes r.2

/-- DEND (R202). -/
def execDend (s : State) : Host.Outcome State Fault Refusal :=
  running s <|
  check (s.decActive = true) .seq .dend s <|
  .next (s.setWalk s.root false s.decHalt (partWay s))

end Sys2Proof.Machine
end

