-- ==== Sys2Proof/Machine/Encoder.lean ====
section
/-! DEFINITION. The bitstream encoder EHDR and EPUT (45_encoder.md rules R190, R191). -/

namespace Sys2Proof.Machine

/-- The bits EHDR emits (R190): the length byte, then the header bytes, each bit 7 first (R65). -/
def headerBits (hdr : Memory Byte) (hlen : BitVec 8) : Except Stop (List Bool) :=
  match readAll .hdr hdr (List.range hlen.toNat) with
  | .error x => .error x
  | .ok bs => .ok (bits8 hlen ++ bs.flatMap bits8)

/-- EHDR (R190). -/
def execEhdr (s : State) : Host.Outcome State Fault Refusal :=
  running s <|
  check (s.hdrValid = true) .seq .ehdr s <|
  commit .ehdr s (headerBits s.hdr s.hlen) fun bs => s.emitBits bs

/-- The bits EPUT emits (R191): the code in path order, or E_NO_CODE for no code and for the empty code. -/
def codeBits (cb : Memory CbEntry) (a : Byte) : Except Stop (List Bool) :=
  match readEntry .cb cb a.toNat with
  | .error x => .error x
  | .ok e => if e.valid = false ∨ e.len = 0 then .error (.raise .noCode) else .ok e.bits

/-- EPUT (R191). -/
def execEput (a : Byte) (s : State) : Host.Outcome State Fault Refusal :=
  running s <|
  check (s.cbValid = true) .seq (.eput a) s <|
  commit (.eput a) s (codeBits s.cb a) fun bs => s.emitBits bs

end Sys2Proof.Machine
end

