-- ==== Sys2Proof/Machine/Frequency.lean ====
section
/-! DEFINITION. The frequency table commands FCLR, FINC, FSET, FGET (41_frequency.md rules R130 to R133). -/

namespace Sys2Proof.Machine

/-- FCLR (R130): every counter becomes zero. -/
def execFclr (s : State) : Host.Outcome State Fault Refusal := running s (.next (s.setFreq []))

/-- FINC (R131): the counter plus one, or E_FREQ_OVF at 2^32 − 1. -/
def execFinc (a : Byte) (s : State) : Host.Outcome State Fault Refusal :=
  running s <|
  check (freqRead s.freq a.toNat ≠ 0xFFFFFFFF) .freqOvf (.finc a) s <|
  .next (s.setFreq (freqWrite s.freq a.toNat (freqRead s.freq a.toNat + 1)))

/-- FSET (R132). -/
def execFset (a : Byte) (v : Word32) (s : State) : Host.Outcome State Fault Refusal :=
  running s (.next (s.setFreq (freqWrite s.freq a.toNat v)))

/-- FGET (R133). -/
def execFget (a : Byte) (s : State) : Host.Outcome State Fault Refusal :=
  running s (.next (s.setResult ((freqRead s.freq a.toNat).setWidth 64)))

end Sys2Proof.Machine
end

