-- ==== Sys2Proof/Machine/Header.lean ====
section
/-! DEFINITION. The header serializer and deserializer SER and DESER, and the header buffer commands HLOAD, HPUT, HGET
(44_header.md rules R170 to R176; 30_encoding.md rules R100 to R102). -/

namespace Sys2Proof.Machine

/-! ### SER -/

/-- `preorder(i)` of R15. `fuel` bounds the levels (R7). -/
def preorder (nodes : Memory Node) : Nat → Nat → Except Stop (List Nat)
  | 0, _ => .error (.fault .notATree)
  | fuel + 1, i =>
    match readEntry .node nodes i with
    | .error x => .error x
    | .ok e =>
      match e.kind with
      | .leaf => .ok [i]
      | .internal =>
        match preorder nodes fuel e.left.toNat with
        | .error x => .error x
        | .ok l =>
          match preorder nodes fuel e.right.toNat with
          | .error x => .error x
          | .ok r => .ok (i :: (l ++ r))

/-- The header byte of a node (R100, R171). -/
def headerByte (c : Config) (e : Node) : Byte :=
  match e.kind with
  | .internal => c.sentinel
  | .leaf => e.sym

/-- A leaf that carries `SENTINEL` (R171). -/
def sentinelLeaf (c : Config) (e : Node) : Bool := e.kind == .leaf && e.sym == c.sentinel

/-- The header bytes of the tree with `n` nodes (R171), with the faults in the order of R230. -/
def serialize (c : Config) (nodes : Memory Node) (n root : Nat) : Except Stop (List Byte) :=
  if n > Config.hdrCap then .error (.raise .hdrOvf)
  else
    match preorder nodes Config.levels root with
    | .error x => .error x
    | .ok p =>
      if p.length ≠ n then .error (.fault .notATree)
      else
        match readAll .node nodes p with
        | .error x => .error x
        | .ok es => if es.any (sentinelLeaf c) then .error (.raise .sentLeaf) else .ok (es.map (headerByte c))

/-- SER (R171). -/
def execSer (s : State) (c : Config := Config.huffcore) : Host.Outcome State Fault Refusal :=
  running s <|
  check (s.treeValid = true) .seq .ser s <|
  commit .ser s (serialize c s.node s.nnodes.toNat s.root.toNat) fun bs =>
    s.setHeader (memOfList 0 bs) (s.nnodes.setWidth 8) (s.nnodes.setWidth 8) true

/-! ### DESER -/

/-- `parse(p)` of R173 with the local node array `N` threaded through: the position after the subtree, and the array.
`fuel` bounds the recursion; every recursive call is at a later position, so `Config.levels` of it is never used up. -/
def parse (c : Config) (hdr : Memory Byte) (hlen : Nat) : Nat → Nat → Memory Node → Except Stop (Nat × Memory Node)
  | 0, _, _ => .error (.fault .notATree)
  | fuel + 1, p, nodes =>
    if hlen ≤ p then .error (.raise .hdrMalformed)
    else
      match readEntry .hdr hdr p with
      | .error x => .error x
      | .ok b =>
        if b = c.sentinel then
          match parse c hdr hlen fuel (p + 1) nodes with
          | .error x => .error x
          | .ok (q, nodes₁) =>
            match parse c hdr hlen fuel q nodes₁ with
            | .error x => .error x
            | .ok (r, nodes₂) =>
              .ok (r, memWrite nodes₂ p
                { kind := .internal, sym := 0, left := BitVec.ofNat 9 (p + 1), right := BitVec.ofNat 9 q, weight := 0 })
        else
          .ok (p + 1, memWrite nodes p { kind := .leaf, sym := b, left := 0, right := 0, weight := 0 })

/-- The tree of a complete header (R172): E_HDR_MALFORMED from the parse, E_HDR_TRAIL for unconsumed bytes. -/
def deserialize (c : Config) (hdr : Memory Byte) (hlen : Nat) : Except Stop (Nat × Memory Node) :=
  match parse c hdr hlen Config.levels 0 [] with
  | .error x => .error x
  | .ok (last, nodes) => if last < hlen then .error (.raise .hdrTrail) else .ok (last, nodes)

/-- DESER (R172). -/
def execDeser (s : State) (c : Config := Config.huffcore) : Host.Outcome State Fault Refusal :=
  running s <|
  check (s.hdrValid = true) .hdrShort .deser s <|
  commit .deser s (deserialize c s.hdr s.hlen.toNat) fun r => s.installTree r.2 r.1 0

/-! ### The header buffer -/

/-- HLOAD (R174): the declared length, and an empty buffer. -/
def execHload (n : Byte) (s : State) : Host.Outcome State Fault Refusal :=
  running s (.next (s.setHeader [] n 0 (headerComplete 0 n)))

/-- HPUT (R175): one byte at position HFILL. Position 255 does not exist (R63). -/
def execHput (b : Byte) (s : State) : Host.Outcome State Fault Refusal :=
  running s <|
  check (s.hfill ≠ s.hlen) .hdrFull (.hput b) s <|
  commit (.hput b) s
    (if s.hfill.toNat < Config.hdrCap then .ok (memWrite s.hdr s.hfill.toNat b)
     else .error (.fault (.noEntry .hdr s.hfill.toNat)))
    fun m => s.setHeader m s.hlen (s.hfill + 1) (headerComplete (s.hfill + 1) s.hlen)

/-- HGET (R176). -/
def execHget (pos : Byte) (s : State) : Host.Outcome State Fault Refusal :=
  running s <|
  check (posInRange s pos) .range (.hget pos) s <|
  commit (.hget pos) s (readEntry .hdr s.hdr pos.toNat) fun b => s.setResult (b.setWidth 64)

end Sys2Proof.Machine
end

