-- ==== Sys2Proof/Machine/Tree.lean ====
section
/-! DEFINITION. The tree builder BUILD (42_tree_build.md rules R140 to R145) and the node read commands NGET and NWGT
(R148, R149). -/

namespace Sys2Proof.Machine

/-! ### BUILD -/

/-- A leaf entry (R141, R144, R145): `left` and `right` are written as 0. -/
def leafNode (sym : Byte) (weight : Weight) : Node :=
  { kind := .leaf, sym := sym, left := 0, right := 0, weight := weight }

/-- An internal entry (R143, R145): `sym` is written as 0. -/
def internalNode (left right : Nat) (weight : Weight) : Node :=
  { kind := .internal, sym := 0, left := BitVec.ofNat 9 left, right := BitVec.ofNat 9 right, weight := weight }

/-- The body of the loop of place_leaves (R141), for one symbol. -/
def placeLeaf (freq : Memory Word32) (acc : Memory Node × Nat) (s : Nat) : Memory Node × Nat :=
  if freqRead freq s ≠ 0 then
    (memWrite acc.1 acc.2 (leafNode (BitVec.ofNat 8 s) ((freqRead freq s).setWidth 40)), acc.2 + 1)
  else acc

/-- place_leaves (R141): the leaves in symbol order, and their number. -/
def placeLeaves (freq : Memory Word32) : Memory Node × Nat :=
  (List.range Config.nsym).foldl (placeLeaf freq) ([], 0)

/-- An element of the set ACTIVE of R143: a node index with its weight beside it, the key of the merge order. -/
structure ActiveNode where
  weight : Weight
  index  : Nat
  deriving DecidableEq, Repr

/-- The merge order (R142): smaller weight first, then smaller index. -/
def ActiveNode.before (x y : ActiveNode) : Bool :=
  decide (x.weight < y.weight) || (decide (x.weight = y.weight) && decide (x.index < y.index))

/-- The first element, in the merge order, of `x` and the list. -/
def firstOf (x : ActiveNode) (rest : List ActiveNode) : ActiveNode :=
  rest.foldl (fun best y => if y.before best then y else best) x

/-- Remove the first element of ACTIVE (R143), if there is one. -/
def takeFirst : List ActiveNode → Option (ActiveNode × List ActiveNode)
  | [] => none
  | x :: rest => some (firstOf x rest, (x :: rest).erase (firstOf x rest))

/-- The loop of merge (R143), at most `fuel` times: the node removed first is the left child, the node removed second
the right child, and the new node takes the next index. -/
def mergeLoop : Nat → Memory Node → List ActiveNode → Nat → Memory Node × Nat
  | 0, nodes, _, n => (nodes, n)
  | fuel + 1, nodes, active, n =>
    match takeFirst active with
    | none => (nodes, n)
    | some (x, rest) =>
      match takeFirst rest with
      | none => (nodes, n)
      | some (y, others) =>
        mergeLoop fuel (memWrite nodes n (internalNode x.index y.index (x.weight + y.weight)))
          (⟨x.weight + y.weight, n⟩ :: others) (n + 1)

/-- ACTIVE before the first merge: every leaf (R143). -/
def activeLeaves (leaves : Memory Node) : List ActiveNode := leaves.map (fun e => ⟨e.2.weight, e.1⟩)

/-- empty_case (R144). -/
def emptyCase (c : Config) : Memory Node × Nat := ([(0, leafNode c.padSym 0)], 1)

/-- single_case (R145): the real symbol's leaf, its pad sibling, and the synthetic root. -/
def singleCase (c : Config) (leaf : Node) : Memory Node × Nat :=
  ([(0, leaf), (1, leafNode (if leaf.sym = c.padSym then c.altPadSym else c.padSym) 0), (2, internalNode 0 1 leaf.weight)],
    3)

/-- The tree of a frequency table and its number of nodes (R140). -/
def buildTree (c : Config) (freq : Memory Word32) : Memory Node × Nat :=
  match placeLeaves freq with
  | ([], _) => emptyCase c
  | ([(_, leaf)], _) => singleCase c leaf
  | (leaves, n) => mergeLoop n leaves (activeLeaves leaves) n

/-- BUILD (R140). -/
def execBuild (s : State) (c : Config := Config.huffcore) : Host.Outcome State Fault Refusal :=
  running s <|
  .next (s.installTree (buildTree c s.freq).1 (buildTree c s.freq).2 ((buildTree c s.freq).2 - 1))

/-! ### Reading nodes back -/

/-- NGET (R148). -/
def execNget (index : Word32) (s : State) : Host.Outcome State Fault Refusal :=
  running s <|
  check (s.treeValid = true) .seq (.nget index) s <|
  check (nodeInRange s index) .range (.nget index) s <|
  commit (.nget index) s (readEntry .node s.node index.toNat) fun e => s.setResult ((packNode e).setWidth 64)

/-- NWGT (R149). -/
def execNwgt (index : Word32) (s : State) : Host.Outcome State Fault Refusal :=
  running s <|
  check (s.treeValid = true) .seq (.nwgt index) s <|
  check (nodeInRange s index) .range (.nwgt index) s <|
  commit (.nwgt index) s (readEntry .node s.node index.toNat) fun e => s.setResult (e.weight.setWidth 64)

end Sys2Proof.Machine
end

