-- ==== Sys2Proof/Machine/Dispatch.lean ====
section
/-! DEFINITION. One arm per command: the meaning of each row of the opcode map (30_encoding.md rule R92). -/

namespace Sys2Proof.Machine

def exec (i : Instr) (s : State) : Host.Outcome State Fault Refusal :=
  match i with
  | .nop => Sys2Proof.Machine.execNop s
  | .reset => Sys2Proof.Machine.execReset s
  | .rdreg a => Sys2Proof.Machine.execRdreg a s
  | .abort => Sys2Proof.Machine.execAbort s
  | .fclr => Sys2Proof.Machine.execFclr s
  | .finc a => Sys2Proof.Machine.execFinc a s
  | .fset a v => Sys2Proof.Machine.execFset a v s
  | .fget a => Sys2Proof.Machine.execFget a s
  | .build => Sys2Proof.Machine.execBuild s
  | .nget n => Sys2Proof.Machine.execNget n s
  | .nwgt n => Sys2Proof.Machine.execNwgt n s
  | .cbgen => Sys2Proof.Machine.execCbgen s
  | .clen a => Sys2Proof.Machine.execClen a s
  | .cbit a n => Sys2Proof.Machine.execCbit a n s
  | .ser => Sys2Proof.Machine.execSer s
  | .deser => Sys2Proof.Machine.execDeser s
  | .hload n => Sys2Proof.Machine.execHload n s
  | .hput b => Sys2Proof.Machine.execHput b s
  | .hget k => Sys2Proof.Machine.execHget k s
  | .ehdr => Sys2Proof.Machine.execEhdr s
  | .eput a => Sys2Proof.Machine.execEput a s
  | .dstart => Sys2Proof.Machine.execDstart s
  | .dbit b => Sys2Proof.Machine.execDbit b s
  | .dend => Sys2Proof.Machine.execDend s

end Sys2Proof.Machine
end

