-- ==== Sys2Proof/Machine/Step.lean ====
section
/-! DEFINITION. One step of the machine: the next input at the ports is taken and executed (40_control.md rule R120,
20_memory.md rules R66 and R76, 70_reset_and_hazards.md rule R250). -/

namespace Sys2Proof.Machine

/-- Execute one command word (R120): a command as its meaning says, any other word as an illegal one (R94). -/
def execWord (w : CmdWord) (s : State) : Host.Outcome State Fault Refusal :=
  match decode w with
  | .ok i => exec i s
  | .error _ => illegalWord w s

/-- Take one input: a command word, or the reset input (R250). -/
def takeEvent (e : PortEvent) (s : State) : Host.Outcome State Fault Refusal :=
  match e with
  | .command w => execWord w s
  | .resetInput => .next (resetBlock s)

/-- One step: the next waiting input; with none waiting the block is idle (R231, R251). -/
def step (s : State) : Host.Outcome State Fault Refusal :=
  match fetch s with
  | none => .next s
  | some (e, s') => takeEvent e s'

/-- The state with the `nbits` bits `w` presented as the next command word. -/
def State.withFetchWord (s : State) (nbits w : Nat) : State := present s (BitVec.ofNat 48 (w % 2 ^ nbits))

end Sys2Proof.Machine
end

