-- ==== Sys2Proof/Machine/Configured.lean ====
section
/-! DEFINITION. The machine with the three reserved byte values of 00_scope.md rule R8 as an argument: `execIn`, `stepIn`
and `coreIn` are `exec`, `step` and `core` for another choice of values. With the values this hardware has they are those
functions (Laws/Configured.lean). -/

namespace Sys2Proof.Machine

/-- A command under the configuration `c`: RDREG shows the three values in CFG (R34), BUILD writes the pad leaves (R144,
R145), SER and DESER write and read `SENTINEL` (R171, R173); no other command depends on them. -/
def execIn (c : Config) (i : Instr) (s : State) : Host.Outcome State Fault Refusal :=
  match i with
  | .rdreg a => execRdreg a s c
  | .build => execBuild s c
  | .ser => execSer s c
  | .deser => execDeser s c
  | .nop | .reset | .abort | .fclr | .finc _ | .fset _ _ | .fget _ | .nget _ | .nwgt _ | .cbgen | .clen _ | .cbit _ _
  | .hload _ | .hput _ | .hget _ | .ehdr | .eput _ | .dstart | .dbit _ | .dend => exec i s

/-- `execWord` under the configuration `c`. -/
def execWordIn (c : Config) (w : CmdWord) (s : State) : Host.Outcome State Fault Refusal :=
  match decode w with
  | .ok i => execIn c i s
  | .error _ => illegalWord w s

/-- `takeEvent` under the configuration `c`. -/
def takeEventIn (c : Config) (e : PortEvent) (s : State) : Host.Outcome State Fault Refusal :=
  match e with
  | .command w => execWordIn c w s
  | .resetInput => .next (resetBlock s)

/-- `step` under the configuration `c`. -/
def stepIn (c : Config) (s : State) : Host.Outcome State Fault Refusal :=
  match fetch s with
  | none => .next s
  | some (e, s') => takeEventIn c e s'

/-- The machine with the configuration `c`. -/
def coreIn (c : Config) : Host.Core where
  State := State
  Fault := Fault
  Refusal := Refusal
  step := stepIn c
  reset := State.reset

end Sys2Proof.Machine
end

