-- ==== Sys2Proof/Machine/HostSide.lean ====
section
/-! DEFINITION. The host's side of the interface, as functions beside the machine: the packing contract and the file
(20_memory.md rules R70 to R72, 30_encoding.md rule R108), sequences of commands, the two host procedures
(45_encoder.md rule R193, 46_decoder.md rule R204) and the pseudo-instructions that stand for them (30_encoding.md rule
R111), and the assembler syntax (R110). No step of the machine uses them. -/

namespace Sys2Proof.Machine

/-! ### The bit packer -/

/-- The byte whose bit `7 − j` is `bit j` (R70). -/
def byteOfBits (bit : Nat → Bool) : Byte :=
  BitVec.ofBool (bit 0) ++ BitVec.ofBool (bit 1) ++ BitVec.ofBool (bit 2) ++ BitVec.ofBool (bit 3)
    ++ BitVec.ofBool (bit 4) ++ BitVec.ofBool (bit 5) ++ BitVec.ofBool (bit 6) ++ BitVec.ofBool (bit 7)

/-- `pack(B)` (R70): byte `k` holds the bits `8k` to `8k + 7`, most significant first, zeros past the end. -/
def pack (bits : List Bool) : List Byte :=
  (List.range ((bits.length + 7) / 8)).map fun k => byteOfBits fun j => bits.getD (8 * k + j) false

/-- `unpack(F)` (R71). -/
def unpack (file : List Byte) : List Bool := file.flatMap bits8

/-- The meaningful bits of a file (R108): the length byte, the header bytes, and the codes of the input bytes. -/
def fileBits (header : List Byte) (codes : List (List Bool)) : List Bool :=
  bits8 (BitVec.ofNat 8 header.length) ++ header.flatMap bits8 ++ codes.flatten

/-! ### Sequences of commands -/

/-- The commands of a list, executed one after the other from `s` (R76). -/
def runAll : List Instr → State → Host.Outcome State Fault Refusal
  | [], s => .next s
  | i :: is, s =>
    match exec i s with
    | .next t => runAll is t
    | .fault f => .fault f
    | .refused r => .refused r

/-! ### The encode procedure -/

/-- `ENCODE s_1, ..., s_m` (R111, R193). -/
def encodeProcedure (input : List Byte) : List Instr :=
  [.reset] ++ input.map .finc ++ [.build, .cbgen, .ser, .ehdr] ++ input.map .eput

/-! ### The decode procedure -/

/-- A data bit as the operand of DBIT (R201). -/
def bitByte (b : Bool) : Byte := if b then 1 else 0

/-- The header bytes a decoding host loads: `F[1 .. min(N, len(F) − 1)]` (R204). -/
def headerPart (n : Byte) (rest : List Byte) : List Byte := rest.take n.toNat

/-- The data bits of a file `F` with first byte `n`: `unpack(F)[8(1 + N) .. NBITS − 1]` (R71, R204). DESIGN CHOICE (log
entry 17): R204 asks for `NBITS ≤ 8·len(F)` and says nothing of a greater `NBITS`; here it counts as `8·len(F)`, the bits
there are. `decodeRun` takes no data bit then. -/
def dataBits (file : List Byte) (n : Byte) (nbits : Nat) : List Bool :=
  ((unpack file).take nbits).drop (8 * (1 + n.toNat))

/-- The commands up to DESER (R204, steps (1) and (2)). For an empty file the length byte is missing, and DESER records
E_HDR_SHORT. -/
def loadProcedure (file : List Byte) : List Instr :=
  match file with
  | [] => [.reset, .deser]
  | n :: rest => [.reset, .hload n] ++ (headerPart n rest).map .hput ++ [.deser]

/-- The commands from DSTART on (R204, steps (3) to (5)). -/
def walkProcedure (file : List Byte) (nbits : Nat) : List Instr :=
  match file with
  | [] => []
  | n :: rest => [.dstart] ++ (dataBits (n :: rest) n nbits).map (fun b => .dbit (bitByte b)) ++ [.dend]

/-- `DECODE F, NBITS` (R111): the whole list of commands, which does not look at FAULT; after a fault the block refuses
the rest (R229). The host's procedure with its two decisions is `decodeRun`. -/
def decodeProcedure (file : List Byte) (nbits : Nat) : List Instr := loadProcedure file ++ walkProcedure file nbits

/-- `8(1 + N) ≤ NBITS ≤ 8·len(F)`, which "`NBITS` must satisfy" (R204). -/
def nbitsAllowed (file : List Byte) (nbits : Nat) : Bool :=
  match file with
  | [] => false
  | n :: rest => decide (8 * (1 + n.toNat) ≤ nbits) && decide (nbits ≤ 8 * (n :: rest).length)

/-- "A non-zero value in 0x20 to 0x22", in RESULT after FAULT is read into it (R204). -/
def headerFailed (fault : BitVec 64) : Bool := decide (0x20 ≤ fault.toNat) && decide (fault.toNat ≤ 0x22)

/-- How a run of the decode procedure ends. -/
inductive DecodeEnd where
  /-- DEND is executed; "the recovered data is OBYTES". -/
  | recovered
  /-- "The source's 'unable to reconstruct tree' failure and the procedure ends there". -/
  | noTree
  /-- `NBITS` is out of the bounds of R204, for which the rule gives no behaviour; here the host starts no walk. DESIGN
  CHOICE (log entry 17). -/
  | badCount
  deriving DecidableEq, Repr

/-- The host's decode procedure (R204): load the header, DESER, read FAULT (RDREG 2), end on 0x20 to 0x22, and otherwise
walk the data bits. -/
def decodeRun (file : List Byte) (nbits : Nat) (s : State) : Host.Outcome (DecodeEnd × State) Fault Refusal :=
  match runAll (loadProcedure file ++ [.rdreg 2]) s with
  | .fault f => .fault f
  | .refused r => .refused r
  | .next t =>
    if headerFailed t.result then .next (.noTree, t)
    else if nbitsAllowed file nbits then
      match runAll (walkProcedure file nbits) t with
      | .fault f => .fault f
      | .refused r => .refused r
      | .next u => .next (.recovered, u)
    else .next (.badCount, t)

/-! ### The assembler syntax -/

/-- The names of the registers 0 to 9 (10_state.md rule R32). -/
inductive RegName where
  | id | status | fault | finfo | nnodes | root | hlen | hfill | cur | cfg
  deriving DecidableEq, Repr

/-- The number of a register (R32). -/
def RegName.number : RegName → Byte
  | .id => 0 | .status => 1 | .fault => 2 | .finfo => 3 | .nnodes => 4
  | .root => 5 | .hlen => 6 | .hfill => 7 | .cur => 8 | .cfg => 9

/-- An operand as it is written (R110): a number, a quoted ASCII character, or the name of a register. -/
inductive AsmOperand where
  | number (n : Nat)
  | quoted (c : Char)
  | register (r : RegName)
  deriving DecidableEq, Repr

/-- A symbol operand: a number, or a character (R110). -/
def AsmOperand.symbol : AsmOperand → Option Byte
  | .number n => if n < 256 then some (BitVec.ofNat 8 n) else none
  | .quoted c => if c.toNat < 128 then some (BitVec.ofNat 8 c.toNat) else none
  | .register _ => none

/-- A byte operand that is no symbol: a number. -/
def AsmOperand.byte : AsmOperand → Option Byte
  | .number n => if n < 256 then some (BitVec.ofNat 8 n) else none
  | .quoted _ => none
  | .register _ => none

/-- The register operand of RDREG: a number or a name (R110). -/
def AsmOperand.reg : AsmOperand → Option Byte
  | .number n => if n < 256 then some (BitVec.ofNat 8 n) else none
  | .quoted _ => none
  | .register r => some r.number

/-- A word operand: a number. -/
def AsmOperand.word : AsmOperand → Option Word32
  | .number n => if n < 2 ^ 32 then some (BitVec.ofNat 32 n) else none
  | .quoted _ => none
  | .register _ => none

/-- The command of an assembler line: the mnemonic, and the operands it uses in the order `a` then `imm` (R110). -/
def assemble (o : Opcode) (operands : List AsmOperand) : Option Instr :=
  match o, operands with
  | .nop, [] => some .nop
  | .reset, [] => some .reset
  | .rdreg, [r] => r.reg.map .rdreg
  | .abort, [] => some .abort
  | .fclr, [] => some .fclr
  | .finc, [a] => a.symbol.map .finc
  | .fset, [a, v] => a.symbol.bind fun x => v.word.map (.fset x)
  | .fget, [a] => a.symbol.map .fget
  | .build, [] => some .build
  | .nget, [n] => n.word.map .nget
  | .nwgt, [n] => n.word.map .nwgt
  | .cbgen, [] => some .cbgen
  | .clen, [a] => a.symbol.map .clen
  | .cbit, [a, n] => a.symbol.bind fun x => n.word.map (.cbit x)
  | .ser, [] => some .ser
  | .deser, [] => some .deser
  | .hload, [n] => n.byte.map .hload
  | .hput, [b] => b.byte.map .hput
  | .hget, [k] => k.byte.map .hget
  | .ehdr, [] => some .ehdr
  | .eput, [a] => a.symbol.map .eput
  | .dstart, [] => some .dstart
  | .dbit, [b] => b.byte.map .dbit
  | .dend, [] => some .dend
  | _, _ => none

end Sys2Proof.Machine
end

