-- ==== Sys2Proof/Safety.lean ====
section
/-! DEFINITION. What a sound state of HUFFCORE is: the abstract tree (00_scope.md rule R15), the tree invariants
(10_state.md rule R37), and the invariant that ties the registers, the flags and the memories together (R25, R27, R30,
R31, R43; 60_exceptions.md rule R221). Claims about the machine are stated in these terms. -/

namespace Sys2Proof.Safety

open Sys2Proof.Machine

/-! ### The abstract tree -/

/-- "Shape and leaf symbols" of a tree (R15). -/
inductive CodeTree where
  | leaf (sym : Byte)
  | node (left right : CodeTree)
  deriving DecidableEq, Repr

/-- Leaves and internal nodes (R101). -/
def CodeTree.size : CodeTree → Nat
  | .leaf _ => 1
  | .node l r => 1 + l.size + r.size

/-- The length of the longest path from the root to a leaf. -/
def CodeTree.depth : CodeTree → Nat
  | .leaf _ => 0
  | .node l r => 1 + max l.depth r.depth

/-- `ser(t)` of R101: `SENTINEL` for an internal node, then the left and the right subtree. -/
def CodeTree.ser (c : Config) : CodeTree → List Byte
  | .leaf v => [v]
  | .node l r => c.sentinel :: (l.ser c ++ r.ser c)

/-- The leaves with their codes, "0 = left child, 1 = right child", in pre-order (R160). -/
def CodeTree.codes : CodeTree → List (Byte × List Bool)
  | .leaf v => [(v, [])]
  | .node l r => l.codes.map (fun e => (e.1, false :: e.2)) ++ r.codes.map (fun e => (e.1, true :: e.2))

/-- The symbols of the leaves, in pre-order. -/
def CodeTree.symbols : CodeTree → List Byte
  | .leaf v => [v]
  | .node l r => l.symbols ++ r.symbols

/-- `T(i)` of R15; `fuel` bounds the levels, and none says that the entries from `i` on are no tree. -/
def treeAt (nodes : Memory Node) : Nat → Nat → Option CodeTree
  | 0, _ => none
  | fuel + 1, i =>
    match memRead nodes i with
    | none => none
    | some e =>
      match e.kind with
      | .leaf => some (.leaf e.sym)
      | .internal =>
        match treeAt nodes fuel e.left.toNat, treeAt nodes fuel e.right.toNat with
        | some l, some r => some (.node l r)
        | _, _ => none

/-- `T(ROOT)`: "the tree held by the block" (R15). -/
def heldTree (s : State) : Option CodeTree := treeAt s.node Config.levels s.root.toNat

/-- Follow a path from node `i`: bit 0 to the left child, bit 1 to the right child (R11, R161); none where an entry holds
no value or a leaf is met before the path ends. -/
def follow (nodes : Memory Node) : Nat → List Bool → Option Node
  | i, [] => memRead nodes i
  | i, b :: bs =>
    match memRead nodes i with
    | none => none
    | some e =>
      match e.kind with
      | .leaf => none
      | .internal => follow nodes (if b then e.right else e.left).toNat bs

/-! ### What a frequency table says of its tree -/

/-- The symbols with a counter that is not zero, in symbol order (R141). -/
def presentSymbols (freq : Memory Word32) : List Nat := (List.range Config.nsym).filter fun s => decide (freqRead freq s ≠ 0)

/-- The number of nodes of the tree of `freq`: 1 for the empty table, 3 for one symbol, `2L − 1` for `L` symbols
(R140, R143 to R145). -/
def builtNodes (freq : Memory Word32) : Nat :=
  match (presentSymbols freq).length with
  | 0 => 1
  | 1 => 3
  | n => 2 * n - 1

/-- The symbols of the leaves of the tree BUILD makes: the present ones, and the pad leaves of R144 and R145. -/
def builtSymbols (c : Config) (freq : Memory Word32) : List Byte :=
  match presentSymbols freq with
  | [] => [c.padSym]
  | [s] => [BitVec.ofNat 8 s, if BitVec.ofNat 8 s = c.padSym then c.altPadSym else c.padSym]
  | l => l.map (BitVec.ofNat 8)

/-- The sum of all counters: the length of the input in bytes (R147). -/
def totalCount (freq : Memory Word32) : Nat := ((List.range Config.nsym).map fun s => (freqRead freq s).toNat).sum

/-- The weighted external path length of a tree: the sum over its leaves of weight times depth (R150), the number of data
bits of the input (R108). -/
def weightedLength (freq : Memory Word32) (t : CodeTree) : Nat :=
  (t.codes.map fun e => (freqRead freq e.1.toNat).toNat * e.2.length).sum

/-! ### The tree invariants -/

/-- The numbering of a built tree: R37 (d), (e), and the weights of R36. -/
structure BuiltTree (s : State) : Prop where
  root_last : s.root.toNat + 1 = s.nnodes.toNat
  children_before : ∀ i e, memRead s.node i = some e → e.kind = .internal → e.left.toNat < i ∧ e.right.toNat < i
  weights_add : ∀ i e, memRead s.node i = some e → e.kind = .internal →
    ∃ l r, memRead s.node e.left.toNat = some l ∧ memRead s.node e.right.toNat = some r ∧
      e.weight.toNat = l.weight.toNat + r.weight.toNat
  symbols_distinct : ∀ i j e f, memRead s.node i = some e → memRead s.node j = some f → e.kind = .leaf →
    f.kind = .leaf → e.sym = f.sym → i = j

/-- The numbering of a deserialized tree: R37 (d), and the zero weights of R36. -/
structure DeserializedTree (s : State) : Prop where
  root_first : s.root.toNat = 0
  children_after : ∀ i e, memRead s.node i = some e → e.kind = .internal →
    e.left.toNat = i + 1 ∧ i < e.right.toNat
  preorder_is_range : preorder s.node Config.levels 0 = .ok (List.range s.nnodes.toNat)
  weights_zero : ∀ i e, memRead s.node i = some e → e.weight = 0

/-- The tree invariants of R37, with the unused fields of R36 and the written entries of R27. -/
structure TreeInv (s : State) : Prop where
  nnodes_pos : 1 ≤ s.nnodes.toNat
  nnodes_le : s.nnodes.toNat ≤ Config.nodeMax
  root_lt : s.root.toNat < s.nnodes.toNat
  written : ∀ i, (memRead s.node i).isSome ↔ i < s.nnodes.toNat
  children : ∀ i e, memRead s.node i = some e → e.kind = .internal →
    e.left.toNat < s.nnodes.toNat ∧ e.right.toNat < s.nnodes.toNat ∧ e.left ≠ e.right
  exactly_once : ∃ p, preorder s.node Config.levels s.root.toNat = .ok p ∧ p.Perm (List.range s.nnodes.toNat)
  leaf_fields : ∀ i e, memRead s.node i = some e → e.kind = .leaf → e.left = 0 ∧ e.right = 0
  internal_fields : ∀ i e, memRead s.node i = some e → e.kind = .internal → e.sym = 0
  numbering : BuiltTree s ∨ DeserializedTree s

/-! ### The invariant -/

/-- The header buffer (R30, R39, R43, R170): `HFILL ≤ HLEN`, exactly the bytes below `HFILL` hold a value, and HDR_VALID
says that the buffer is complete; only the empty buffer after reset is complete without it (R42). -/
structure HeaderInv (s : State) : Prop where
  fill_le : s.hfill.toNat ≤ s.hlen.toNat
  written : ∀ k, (memRead s.hdr k).isSome ↔ k < s.hfill.toNat
  complete : s.hdrValid = true → s.hfill = s.hlen
  incomplete : s.hdrValid = false → s.hfill = s.hlen → s.hlen = 0

/-- Without a tree (R25, R27, R42): no node, no codebook, no walk. -/
structure NoTree (s : State) : Prop where
  node : s.node = []
  nnodes : s.nnodes = 0
  root : s.root = 0
  cur : s.cur = 0
  cbValid : s.cbValid = false
  decActive : s.decActive = false
  decHalt : s.decHalt = false
  decPartial : s.decPartial = false

/-- The decode walk (R25, R31): with no walk in progress `CUR` stands on the root; in a walk DEC_PARTIAL is 0 and
DEC_HALT says whether the root is a leaf; a walk that is not halted stands on an internal node, a halted one on the
root. -/
structure WalkInv (s : State) : Prop where
  idle : s.decActive = false → s.cur = s.root
  no_partial : s.decActive = true → s.decPartial = false
  halt : s.decActive = true → ∃ e, memRead s.node s.root.toNat = some e ∧ s.decHalt = haltsAt e
  halted : s.decHalt = true → s.cur = s.root
  internal : s.decActive = true → s.decHalt = false →
    ∃ e, memRead s.node s.cur.toNat = some e ∧ e.kind = .internal

/-- The invariant of the block. -/
structure Inv (s : State) : Prop where
  memories : s.memoriesWf = true
  fault_code : s.fault = 0 ∨ ∃ e : ErrorCode, s.fault = e.code
  finfo : s.fault = 0 → s.finfo = 0
  header : HeaderInv s
  tree : s.treeValid = true → TreeInv s
  noTree : s.treeValid = false → NoTree s
  codebook : s.cbValid = true → codebookOf s.node s.root.toNat = .ok s.cb
  noCodebook : s.cbValid = false → s.cb = []
  walk : WalkInv s

/-! ### Command words -/

/-- A word that is no command (R94): the running block records E_ILLEGAL_CMD and the word, and nothing else changes
(R222); the faulted block refuses it (R120). -/
def IllegalWord (w : CmdWord) : Prop :=
  (∃ x, decode w = .error x) ∧
  (∀ s : State, s.fault = 0 → execWord w s = .next { s with fault := 0x01, finfo := w }) ∧
  (∀ s : State, s.fault ≠ 0 → execWord w s = .next s)

/-- The encoding of a command with opcode `op` that uses neither field (R92, R93, R95). -/
def UsesNeither (op : Byte) (i : Instr) : Prop :=
  decode (op ++ 0#8 ++ 0#32) = .ok i ∧
    ∀ (a : Byte) (imm : Word32), a ≠ 0 ∨ imm ≠ 0 → IllegalWord (op ++ a ++ imm)

/-- The encoding of a command with opcode `op` that uses `a` only (R92, R93, R95). -/
def UsesA (op : Byte) (i : Byte → Instr) : Prop :=
  ∀ a : Byte, decode (op ++ a ++ 0#32) = .ok (i a) ∧ ∀ imm : Word32, imm ≠ 0 → IllegalWord (op ++ a ++ imm)

/-- The encoding of a command with opcode `op` that uses `imm` only (R92, R93, R95). -/
def UsesImm (op : Byte) (i : Word32 → Instr) : Prop :=
  ∀ imm : Word32, decode (op ++ 0#8 ++ imm) = .ok (i imm) ∧ ∀ a : Byte, a ≠ 0 → IllegalWord (op ++ a ++ imm)

/-- The encoding of a command with opcode `op` that uses both fields (R92, R93). -/
def UsesBoth (op : Byte) (i : Byte → Word32 → Instr) : Prop :=
  ∀ (a : Byte) (imm : Word32), decode (op ++ a ++ imm) = .ok (i a imm)

/-! ### What every command does, in tables -/

/-- The reset values of R42, and nothing emitted since (R41, R251). -/
structure ResetValues (s : State) : Prop where
  result : s.result = 0
  fault : s.fault = 0
  finfo : s.finfo = 0
  flags : s.treeValid = false ∧ s.cbValid = false ∧ s.hdrValid = false ∧ s.decActive = false ∧ s.decHalt = false ∧
    s.decPartial = false
  nnodes : s.nnodes = 0
  root : s.root = 0
  hlen : s.hlen = 0
  hfill : s.hfill = 0
  cur : s.cur = 0
  freq : ∀ k, freqRead s.freq k = 0
  node : ∀ k, memRead s.node k = none
  cb : ∀ k, memRead s.cb k = none
  hdr : ∀ k, memRead s.hdr k = none
  outputs : s.obits = [] ∧ s.obytes = []

/-- The flag a command requires (R223); a command without a "requires" line is as if its flag were 1. -/
def requiredFlag (s : State) : Instr → Bool
  | .nget _ | .nwgt _ | .cbgen | .ser | .dstart => s.treeValid
  | .clen _ | .cbit _ _ | .eput _ => s.cbValid
  | .ehdr => s.hdrValid
  | .dbit _ | .dend => s.decActive
  | .nop | .reset | .rdreg _ | .abort | .fclr | .finc _ | .fset _ _ | .fget _ | .build | .deser | .hload _ | .hput _
  | .hget _ => true

/-- Whether the operands of a command are in range (R96, R224). -/
def OperandsInRange (s : State) : Instr → Prop
  | .rdreg a => a.toNat ≤ 9
  | .nget n | .nwgt n => n.toNat < s.nnodes.toNat
  | .cbit a n => ∃ e, memRead s.cb a.toNat = some e ∧ n.toNat < e.len.toNat
  | .hget k => k.toNat < s.hfill.toNat
  | .dbit b => b.toNat ≤ 1
  | .nop | .reset | .abort | .fclr | .finc _ | .fset _ _ | .fget _ | .build | .cbgen | .clen _ | .ser | .deser | .hload _
  | .hput _ | .ehdr | .eput _ | .dstart | .dend => True

/-- The fault codes a command can raise, in the order of its rule, E_ILLEGAL_CMD apart (R221, R230). -/
def ownFaults : Instr → List (BitVec 8)
  | .rdreg _ | .hget _ => [0x03]
  | .abort => [0x50]
  | .finc _ => [0x10]
  | .nget _ | .nwgt _ | .cbit _ _ | .dbit _ => [0x02, 0x03]
  | .cbgen => [0x02, 0x41]
  | .clen _ | .ehdr | .dstart | .dend => [0x02]
  | .ser => [0x02, 0x30, 0x31]
  | .deser => [0x20, 0x21, 0x22]
  | .hput _ => [0x23]
  | .eput _ => [0x02, 0x40]
  | .nop | .reset | .fclr | .fset _ _ | .fget _ | .build | .hload _ => []

/-- A row of the write matrix of R44: everything that is not listed for the command reads in `t` as in `s`. The
codebook memory is emptied with CB_VALID (R43), and the header buffer holds no byte at or beyond HFILL. -/
def WritesOnly (s t : State) : Instr → Prop
  | .nop => t = s
  | .reset => ResetValues t ∧ t.port = s.port
  | .rdreg _ | .fget _ | .nget _ | .nwgt _ | .clen _ | .cbit _ _ | .hget _ => t = { s with result := t.result }
  | .abort => t = { s with fault := t.fault, finfo := t.finfo }
  | .fclr => t = { s with freq := t.freq } ∧ ∀ k, freqRead t.freq k = 0
  | .finc a | .fset a _ => t = { s with freq := t.freq } ∧ ∀ k, k ≠ a.toNat → freqRead t.freq k = freqRead s.freq k
  | .build => t = { s with
      node := t.node, nnodes := t.nnodes, root := t.root, cur := t.cur, treeValid := true, cbValid := false, cb := [],
      decActive := false, decHalt := false, decPartial := false }
  | .deser => t = { s with
      node := t.node, nnodes := t.nnodes, root := 0, cur := 0, treeValid := true, cbValid := false, cb := [],
      decActive := false, decHalt := false, decPartial := false }
  | .cbgen => t = { s with cb := t.cb, cbValid := true }
  | .ser => t = { s with hdr := t.hdr, hlen := t.hlen, hfill := t.hfill, hdrValid := true }
  | .hload _ => t = { s with hdr := [], hlen := t.hlen, hfill := 0, hdrValid := t.hdrValid }
  | .hput _ => t = { s with hdr := t.hdr, hfill := t.hfill, hdrValid := t.hdrValid } ∧
      ∀ k, k ≠ s.hfill.toNat → memRead t.hdr k = memRead s.hdr k
  | .ehdr | .eput _ => t = { s with obits := t.obits } ∧ s.obits <+: t.obits
  | .dstart => t = { s with cur := t.cur, decActive := true, decHalt := t.decHalt, decPartial := false }
  | .dbit _ => t = { s with cur := t.cur, obytes := t.obytes } ∧
      (t.obytes = s.obytes ∨ ∃ b, t.obytes = s.obytes ++ [b])
  | .dend => t = { s with cur := t.cur, decActive := false, decPartial := t.decPartial }

/-- The nodes that wait to be merged before node `n` is made (R143): those that are no child of an earlier node. -/
def Waiting (nodes : Memory Node) (n j : Nat) : Prop :=
  j < n ∧ ∀ m e, m < n → memRead nodes m = some e → e.kind = .internal → e.left.toNat ≠ j ∧ e.right.toNat ≠ j

/-- The merge order of R142 on two nodes of weights `v` and `w` and indices `i` and `j`. -/
def MergesBefore (v : Weight) (i : Nat) (w : Weight) (j : Nat) : Prop := v.toNat < w.toNat ∨ (v = w ∧ i < j)

/-- What R143 says of the internal node `e` that the merge loop writes at index `n`: the waiting node that is first in the
merge order is its left child, the next one its right child, and its weight is their sum. -/
structure MergedNode (nodes : Memory Node) (n : Nat) (e : Node) : Prop where
  kind : e.kind = .internal
  sym : e.sym = 0
  different : e.left.toNat ≠ e.right.toNat
  left_waits : Waiting nodes n e.left.toNat
  right_waits : Waiting nodes n e.right.toNat
  children : ∃ l r, memRead nodes e.left.toNat = some l ∧ memRead nodes e.right.toNat = some r ∧
    e.weight = l.weight + r.weight ∧
    (∀ j f, Waiting nodes n j → memRead nodes j = some f → j ≠ e.left.toNat →
      MergesBefore l.weight e.left.toNat f.weight j) ∧
    (∀ j f, Waiting nodes n j → memRead nodes j = some f → j ≠ e.left.toNat → j ≠ e.right.toNat →
      MergesBefore r.weight e.right.toNat f.weight j)

end Sys2Proof.Safety
end

