-- ==== Sys2Proof/Certificates/Slice0/Obligations.lean ====
section
/-! DEFINITION. The statements for the provers, each about every state and every operand it names. A command's statement
gives its words, its faults in the order of R230, its effect as the whole next state, and so its frame: every field of
State that the record update does not list is as before. -/

section

open Sys2Proof Sys2Proof.Machine Sys2Proof.Safety

/-! ### Encoding -/

/-- R90 to R92: decoding what is encoded gives the command back, with every operand at every value. -/
def Obligations.DecodeOfEncode : Prop := ∀ i : Instr, decode (encode i) = .ok i

/-- R92, R95: a word that decodes is the only word of its command. -/
def Obligations.EncodeOfDecode : Prop := ∀ (w : CmdWord) (i : Instr), decode w = .ok i → encode i = w

/-- R93: the masks and match values of the rows, that a word is the command of a row exactly when it matches it, and that
no two rows match one word. -/
def Obligations.DecodeIsMaskAndMatch : Prop :=
  (∀ r ∈ opcodeTable,
    r.mask = 0xFF#8 ++ (if r.opcode.usesA then 0x00#8 else 0xFF#8) ++ (if r.opcode.usesImm then 0x00000000#32 else 0xFFFFFFFF#32) ∧
    r.value = r.opcode.code ++ 0#40) ∧
  (∀ (w : CmdWord) (o : Opcode),
    (∃ a imm, decode w = .ok (o.instr a imm)) ↔ ∃ r ∈ opcodeTable, r.opcode = o ∧ w &&& r.mask = r.value) ∧
  (∀ (w : CmdWord), ∀ r ∈ opcodeTable, ∀ r' ∈ opcodeTable,
    w &&& r.mask = r.value → w &&& r'.mask = r'.value → r = r')

/-- R94, R95, R222: which words are illegal, and what executing one records. -/
def Obligations.IllegalWordsRaise : Prop :=
  (∀ b : Byte, opcodeOf b = none ↔
    (0x04 ≤ b.toNat ∧ b.toNat ≤ 0x0F) ∨ (0x14 ≤ b.toNat ∧ b.toNat ≤ 0x1F) ∨ (0x23 ≤ b.toNat ∧ b.toNat ≤ 0x27) ∨
    (0x2B ≤ b.toNat ∧ b.toNat ≤ 0x2F) ∨ (0x35 ≤ b.toNat ∧ b.toNat ≤ 0x3F) ∨ (0x42 ≤ b.toNat ∧ b.toNat ≤ 0x4F) ∨
    (0x53 ≤ b.toNat ∧ b.toNat ≤ 0xFF)) ∧
  (∀ op a : Byte, ∀ imm : Word32,
    (opcodeOf op = none → IllegalWord (op ++ a ++ imm)) ∧
    ∀ o, opcodeOf op = some o →
      ((o.usesA = false ∧ a ≠ 0) ∨ (o.usesImm = false ∧ imm ≠ 0) → IllegalWord (op ++ a ++ imm)) ∧
      ((o.usesA = true ∨ a = 0) ∧ (o.usesImm = true ∨ imm = 0) → decode (op ++ a ++ imm) = .ok (o.instr a imm)))

/-- Words the spec writes out (R110 and the examples of the command rules). -/
def Obligations.WrittenWordsDecode : Prop :=
  decode 0x1241000003E8 = .ok (.fset 0x41 1000) ∧ decode 0x210000000008 = .ok (.nget 8) ∧
  decode 0x510100000000 = .ok (.dbit 1) ∧ decode 0x510000000000 = .ok (.dbit 0) ∧
  decode 0x020000000000 = .ok (.rdreg 0) ∧ decode 0x294200000000 = .ok (.clen 0x42) ∧
  decode 0x320300000000 = .ok (.hload 3) ∧ decode 0x414200000000 = .ok (.eput 0x42) ∧
  decode 0x200000000000 = .ok .build ∧ decode 0x300000000000 = .ok .ser ∧
  assemble .fset [.quoted 'A', .number 1000] = some (.fset 0x41 1000) ∧
  assemble .rdreg [.register .hlen] = some (.rdreg 6)

/-- R64: a stored command word is six bytes, `cmd[47:40]` first and `cmd[7:0]` last, and a stored stream of commands is
read back command by command. -/
def Obligations.StoredWordsDecode : Prop :=
  (∀ w : CmdWord, bytesOfWord w = (List.range 6).map fun k => w.extractLsb' (40 - 8 * k) 8) ∧
  ∀ (i : Instr) (rest : List Byte), decodeBytes (bytesOfWord (encode i) ++ rest) = .ok (i, rest)

/-! ### The step and the execution frame -/

/-- R66, R76, R120: with a command word at the port, a step takes it and executes the command it decodes to; with none,
the block is idle (the model's choice, notes/assumptions/1.md). -/
def Obligations.StepRunsTheDecodedCommand : Prop :=
  (∀ (s : State) (w : CmdWord) (rest : List PortEvent) (i : Instr), s.port = .command w :: rest → decode w = .ok i →
    step s = exec i { s with port := rest }) ∧
  (∀ (s : State) (i : Instr), step (present s (encode i)) = exec i s) ∧
  (∀ s : State, s.port = [] → step s = .next s)

/-- R250: the reset input has exactly the effect of the RESET command, and reset is the only event besides a command that
changes the block's state. That the reset input is an event of the port list and that the inputs behind it still wait after
it (`t.port = rest`) is the model's choice (notes/assumptions/2.md, 13.md). -/
def Obligations.ResetInputActsAsReset : Prop :=
  (∀ (s : State) (rest : List PortEvent), s.port = .resetInput :: rest →
    step s = exec .reset { s with port := rest } ∧ ∃ t, step s = .next t ∧ ResetValues t ∧ t.port = rest) ∧
  (∀ s t : State, step s = .next t → t = s ∨ (∃ rest, s.port = .resetInput :: rest) ∨ ∃ w rest, s.port = .command w :: rest)

/-- R120 step 1, R229: while a fault is recorded only RESET and RDREG 0 to 9 execute, every other word changes nothing,
and no command but RESET changes FAULT. -/
def Obligations.FaultedBlockRefuses : Prop :=
  ∀ (s : State) (w : CmdWord), s.fault ≠ 0 →
    (decode w = .ok .reset → ∃ t, execWord w s = .next t ∧ t.fault = 0) ∧
    (∀ a, decode w = .ok (.rdreg a) → a.toNat ≤ 9 → ∃ v, execWord w s = .next { s with result := v }) ∧
    (decode w ≠ .ok .reset → (∀ a, decode w = .ok (.rdreg a) → 9 < a.toNat) → execWord w s = .next s)

/-- R14, R228, R231: a word that raises a fault changes nothing but FAULT and FINFO, FINFO is the word itself, and
nothing is emitted. -/
def Obligations.FaultEntryIsPrecise : Prop :=
  ∀ (s t : State) (w : CmdWord), s.fault = 0 → execWord w s = .next t → t.fault ≠ 0 →
    t = { s with fault := t.fault, finfo := w } ∧ ∃ e : ErrorCode, t.fault = e.code

/-- R223, R224, R230: E_SEQ before E_RANGE before the command's own faults, each exactly under its cause. -/
def Obligations.SequenceThenRange : Prop :=
  ∀ (s : State) (i : Instr), Inv s → s.fault = 0 →
    (requiredFlag s i = false → exec i s = .next { s with fault := 0x02, finfo := encode i }) ∧
    (requiredFlag s i = true → ¬ OperandsInRange s i → exec i s = .next { s with fault := 0x03, finfo := encode i }) ∧
    (requiredFlag s i = true → OperandsInRange s i → ∃ t, exec i s = .next t ∧ t.fault ≠ 0x02 ∧ t.fault ≠ 0x03)

/-- R221: which command raises which fault code; no other value of FAULT occurs. -/
def Obligations.FaultCodesByCommand : Prop :=
  (∀ (s t : State) (i : Instr), s.fault = 0 → exec i s = .next t → t.fault = 0 ∨ t.fault ∈ ownFaults i) ∧
  (∀ (s t : State) (w : CmdWord) (x : DecodeError), s.fault = 0 → decode w = .error x → execWord w s = .next t →
    t.fault = 0x01)

/-- R44: the write matrix. A command that completes without a fault writes what its row lists and nothing else. -/
def Obligations.WriteMatrixHolds : Prop :=
  ∀ (s t : State) (i : Instr), s.fault = 0 → exec i s = .next t → t.fault = 0 ∨ i = .abort → WritesOnly s t i

/-- R22: RESULT is written by FGET, NGET, NWGT, CLEN, CBIT, HGET, RDREG and reset alone, and not by a command that
faults. -/
def Obligations.ResultWrittenByReadsOnly : Prop :=
  ∀ (s t : State) (i : Instr), exec i s = .next t → t.result ≠ s.result →
    i = .reset ∨ ((∃ a, i = .rdreg a ∨ i = .fget a ∨ i = .clen a ∨ i = .hget a) ∨
      (∃ n, i = .nget n ∨ i = .nwgt n) ∨ ∃ a n, i = .cbit a n) ∧ t.fault = s.fault

/-- R25: which commands set and clear each of the six flags. -/
def Obligations.FlagLifecycle : Prop :=
  ∀ (s t : State) (i : Instr), Inv s → exec i s = .next t → i ≠ .reset →
    (t.treeValid ≠ s.treeValid → t.treeValid = true ∧ (i = .build ∨ i = .deser)) ∧
    (t.cbValid ≠ s.cbValid → (t.cbValid = true ∧ i = .cbgen) ∨ (t.cbValid = false ∧ (i = .build ∨ i = .deser))) ∧
    (t.hdrValid ≠ s.hdrValid → (t.hdrValid = true ∧ (i = .ser ∨ i = .hload 0 ∨ ∃ b, i = .hput b)) ∨
      (t.hdrValid = false ∧ ∃ n, i = .hload n ∧ n ≠ 0)) ∧
    (t.decActive ≠ s.decActive → (t.decActive = true ∧ i = .dstart) ∨
      (t.decActive = false ∧ (i = .dend ∨ i = .build ∨ i = .deser))) ∧
    (t.decHalt ≠ s.decHalt → i = .dstart ∨ (t.decHalt = false ∧ (i = .build ∨ i = .deser))) ∧
    (t.decPartial ≠ s.decPartial → (t.decPartial = true ∧ i = .dend) ∨
      (t.decPartial = false ∧ (i = .dstart ∨ i = .build ∨ i = .deser)))

/-! ### Reset and the control commands -/

/-- R42, R251: the reset state, in which every command is accepted. -/
def Obligations.ResetStateIsAsTheTableSays : Prop :=
  ResetValues State.reset ∧ State.reset.port = [] ∧ Config.id = 0x48430107 ∧ Config.huffcore.cfgWord = 0x0100FF ∧
    ∀ w : CmdWord, ∃ t, execWord w State.reset = .next t

/-- R121: NOP does nothing. -/
def Obligations.NopDoesNothing : Prop := UsesNeither 0x00 .nop ∧ ∀ s : State, exec .nop s = .next s

/-- R122: RESET gives every item its reset value, in the faulted state too, and emits nothing. -/
def Obligations.ResetReturnsToResetState : Prop :=
  UsesNeither 0x01 .reset ∧ ∀ s : State, ∃ t, exec .reset s = .next t ∧ ResetValues t ∧ t.port = s.port

/-- R123, R26, R33, R34: RDREG reads the ten registers, faulted or not, and faults beyond them. -/
def Obligations.RdregReadsTheRegisters : Prop :=
  UsesA 0x02 .rdreg ∧
  (∀ s : State,
    exec (.rdreg 0) s = .next { s with result := 0x48430107 } ∧
    (∃ v : BitVec 64, exec (.rdreg 1) s = .next { s with result := v } ∧
      v.getLsbD 0 = s.treeValid ∧ v.getLsbD 1 = s.cbValid ∧ v.getLsbD 2 = s.hdrValid ∧ v.getLsbD 3 = s.decActive ∧
      v.getLsbD 4 = s.decHalt ∧ v.getLsbD 5 = s.decPartial ∧ (v.getLsbD 6 = true ↔ s.fault ≠ 0) ∧
      ∀ j, 7 ≤ j → v.getLsbD j = false) ∧
    exec (.rdreg 2) s = .next { s with result := s.fault.setWidth 64 } ∧
    exec (.rdreg 3) s = .next { s with result := s.finfo.setWidth 64 } ∧
    exec (.rdreg 4) s = .next { s with result := s.nnodes.setWidth 64 } ∧
    exec (.rdreg 5) s = .next { s with result := s.root.setWidth 64 } ∧
    exec (.rdreg 6) s = .next { s with result := s.hlen.setWidth 64 } ∧
    exec (.rdreg 7) s = .next { s with result := s.hfill.setWidth 64 } ∧
    exec (.rdreg 8) s = .next { s with result := s.cur.setWidth 64 } ∧
    exec (.rdreg 9) s = .next { s with result := 0x0100FF }) ∧
  (∀ (s : State) (a : Byte), 9 < a.toNat →
    (s.fault = 0 → exec (.rdreg a) s = .next { s with fault := 0x03, finfo := 0x02#8 ++ a ++ 0#32 }) ∧
    (s.fault ≠ 0 → exec (.rdreg a) s = .next s))

/-- R124: ABORT records E_IO_ABORT, and in the faulted state is refused; nothing emitted is retracted. -/
def Obligations.AbortRecordsIoAbort : Prop :=
  UsesNeither 0x03 .abort ∧
  ∀ s : State,
    (s.fault = 0 → exec .abort s = .next { s with fault := 0x50, finfo := 0x030000000000 }) ∧
    (s.fault ≠ 0 → exec .abort s = .next s)

/-! ### The frequency table -/

/-- R130: FCLR clears every counter and nothing else. -/
def Obligations.FclrClearsTheTable : Prop :=
  UsesNeither 0x10 .fclr ∧
  ∀ s : State, s.fault = 0 → ∃ m, exec .fclr s = .next { s with freq := m } ∧ ∀ k, freqRead m k = 0

/-- R131: FINC adds one to one counter, or records E_FREQ_OVF at 2^32 − 1. -/
def Obligations.FincCountsOneSymbol : Prop :=
  UsesA 0x11 .finc ∧
  ∀ (s : State) (a : Byte), s.fault = 0 →
    (freqRead s.freq a.toNat = 0xFFFFFFFF →
      exec (.finc a) s = .next { s with fault := 0x10, finfo := 0x11#8 ++ a ++ 0#32 }) ∧
    (freqRead s.freq a.toNat ≠ 0xFFFFFFFF → ∃ m, exec (.finc a) s = .next { s with freq := m } ∧
      (freqRead m a.toNat).toNat = (freqRead s.freq a.toNat).toNat + 1 ∧
      ∀ k, k ≠ a.toNat → freqRead m k = freqRead s.freq k)

/-- R132: FSET writes one counter, with any value. -/
def Obligations.FsetWritesOneCounter : Prop :=
  UsesBoth 0x12 .fset ∧
  ∀ (s : State) (a : Byte) (v : Word32), s.fault = 0 →
    ∃ m, exec (.fset a v) s = .next { s with freq := m } ∧ freqRead m a.toNat = v ∧
      ∀ k, k ≠ a.toNat → freqRead m k = freqRead s.freq k

/-- R133: FGET reads one counter. -/
def Obligations.FgetReadsOneCounter : Prop :=
  UsesA 0x13 .fget ∧
  ∀ (s : State) (a : Byte), s.fault = 0 →
    exec (.fget a) s = .next { s with result := (freqRead s.freq a.toNat).setWidth 64 }

/-! ### The tree builder -/

/-- R140: BUILD never faults in the running block, installs a tree of the size R143 to R145 give with its root last, ends
a walk, voids the codebook, and leaves the header buffer and the table alone. -/
def Obligations.BuildInstallsATree : Prop :=
  UsesNeither 0x20 .build ∧
  ∀ s : State, s.fault = 0 → ∃ m, exec .build s = .next { s with
      node := m
      nnodes := BitVec.ofNat 10 (builtNodes s.freq)
      root := BitVec.ofNat 9 (builtNodes s.freq - 1)
      cur := BitVec.ofNat 9 (builtNodes s.freq - 1)
      treeValid := true
      cbValid := false
      cb := []
      decActive := false
      decHalt := false
      decPartial := false } ∧
    (∀ k, (memRead m k).isSome ↔ k < builtNodes s.freq) ∧ builtNodes s.freq ≤ 511

/-- R141: the leaves, in symbol order, at the indices 0, 1, 2, … -/
def Obligations.LeavesAreInSymbolOrder : Prop :=
  ∀ s : State, s.fault = 0 → ∃ t, exec .build s = .next t ∧
    ∀ k a, (presentSymbols s.freq)[k]? = some a → memRead t.node k = some
      { kind := .leaf, sym := BitVec.ofNat 8 a, left := 0, right := 0, weight := (freqRead s.freq a).setWidth 40 }

/-- R142: the merge order is a strict total order on nodes with different indices, and what the builder takes from ACTIVE
is first in it. -/
def Obligations.MergeOrderIsStrictAndTotal : Prop :=
  (∀ x y : ActiveNode, x.before y = true ↔ MergesBefore x.weight x.index y.weight y.index) ∧
  (∀ x : ActiveNode, x.before x = false) ∧
  (∀ x y z : ActiveNode, x.before y = true → y.before z = true → x.before z = true) ∧
  (∀ x y : ActiveNode, x.index ≠ y.index → x.before y = true ∨ y.before x = true) ∧
  (∀ (active : List ActiveNode), active ≠ [] → (active.map (·.index)).Nodup → ∃ x rest,
    takeFirst active = some (x, rest) ∧ active.Perm (x :: rest) ∧ ∀ y ∈ rest, x.before y = true)

/-- R143: for two or more symbols each internal node merges the two waiting nodes that are first in the merge order, the
first of them on the left, with the sum of their weights. -/
def Obligations.MergesTakeTheTwoLowest : Prop :=
  ∀ s : State, s.fault = 0 → 2 ≤ (presentSymbols s.freq).length → ∃ t, exec .build s = .next t ∧
    t.nnodes.toNat = 2 * (presentSymbols s.freq).length - 1 ∧ t.root.toNat = 2 * (presentSymbols s.freq).length - 2 ∧
    ∀ n, (presentSymbols s.freq).length ≤ n → n < 2 * (presentSymbols s.freq).length - 1 →
      ∃ e, memRead t.node n = some e ∧ MergedNode t.node n e

/-- R144: the tree of the all-zero table, its header, and the file of an empty input. -/
def Obligations.EmptyTableGivesThePadLeaf : Prop :=
  ∀ s : State, s.fault = 0 → (∀ a : Byte, freqRead s.freq a.toNat = 0) →
    (∃ t, exec .build s = .next t ∧ t.nnodes = 1 ∧ t.root = 0 ∧
      memRead t.node 0 = some { kind := .leaf, sym := 0x00, left := 0, right := 0, weight := 0 } ∧
      heldTree t = some (.leaf 0x00) ∧
      ∃ u, exec .ser t = .next u ∧ u.hlen = 1 ∧ memRead u.hdr 0 = some 0x00) ∧
    ∃ v, runAll (encodeProcedure []) s = .next v ∧ v.fault = 0 ∧ pack v.obits = [0x01, 0x00]

/-- R145: the tree of a table with one symbol. -/
def Obligations.OneSymbolGetsAPadSibling : Prop :=
  ∀ (s : State) (a : Byte), s.fault = 0 → freqRead s.freq a.toNat ≠ 0 →
    (∀ b : Byte, b ≠ a → freqRead s.freq b.toNat = 0) → ∃ t, exec .build s = .next t ∧ t.nnodes = 3 ∧ t.root = 2 ∧
      memRead t.node 0 = some
        { kind := .leaf, sym := a, left := 0, right := 0, weight := (freqRead s.freq a.toNat).setWidth 40 } ∧
      memRead t.node 1 = some
        { kind := .leaf, sym := if a = 0x00 then 0x01 else 0x00, left := 0, right := 0, weight := 0 } ∧
      memRead t.node 2 = some
        { kind := .internal, sym := 0, left := 0, right := 1, weight := (freqRead s.freq a.toNat).setWidth 40 }

/-- R146: the worked example. -/
def Obligations.WorkedExampleBuilds : Prop :=
  ∃ t, exec .build { State.reset with freq := [(0x41, 5), (0x42, 2), (0x43, 1), (0x44, 1), (0x52, 2)] } = .next t ∧
    t.nnodes = 9 ∧ t.root = 8 ∧
    memRead t.node 0 = some ⟨.leaf, 0x41, 0, 0, 5⟩ ∧ memRead t.node 1 = some ⟨.leaf, 0x42, 0, 0, 2⟩ ∧
    memRead t.node 2 = some ⟨.leaf, 0x43, 0, 0, 1⟩ ∧ memRead t.node 3 = some ⟨.leaf, 0x44, 0, 0, 1⟩ ∧
    memRead t.node 4 = some ⟨.leaf, 0x52, 0, 0, 2⟩ ∧ memRead t.node 5 = some ⟨.internal, 0, 2, 3, 2⟩ ∧
    memRead t.node 6 = some ⟨.internal, 0, 1, 4, 4⟩ ∧ memRead t.node 7 = some ⟨.internal, 0, 5, 6, 6⟩ ∧
    memRead t.node 8 = some ⟨.internal, 0, 0, 7, 11⟩ ∧
    heldTree t = some (.node (.leaf 0x41) (.node (.node (.leaf 0x43) (.leaf 0x44)) (.node (.leaf 0x42) (.leaf 0x52))))

/-- R147: what BUILD guarantees: (a) the tree invariants, (b) non-empty prefix-free codes where a counter is not zero,
(c) one leaf for each symbol present and no other leaf but the pad leaves, (d) the weights, (e) the tree depends on FREQ
alone. -/
def Obligations.BuildGuarantees : Prop :=
  ∀ s : State, s.fault = 0 → ∃ t tr, exec .build s = .next t ∧ heldTree t = some tr ∧
    (TreeInv t ∧ BuiltTree t) ∧
    ((∃ a : Byte, freqRead s.freq a.toNat ≠ 0) →
      (∀ e ∈ tr.codes, e.2 ≠ []) ∧ ∀ e ∈ tr.codes, ∀ f ∈ tr.codes, e.2 <+: f.2 → e = f) ∧
    (tr.symbols.Nodup ∧ tr.symbols.Perm (builtSymbols Config.huffcore s.freq) ∧
      ∀ a : Byte, freqRead s.freq a.toNat ≠ 0 → a ∈ tr.symbols) ∧
    (∃ e, memRead t.node t.root.toNat = some e ∧ e.weight.toNat = totalCount s.freq) ∧
    ∀ s' : State, s'.fault = 0 → (∀ a : Byte, freqRead s'.freq a.toNat = freqRead s.freq a.toNat) →
      ∃ t', exec .build s' = .next t' ∧ t'.node = t.node ∧ t'.nnodes = t.nnodes ∧ t'.root = t.root

/-- R150: the built tree of two or more symbols has the least weighted external path length of all binary trees with its
leaves (Huffman's theorem). -/
def Obligations.BuiltTreeIsOptimal : Prop :=
  ∀ s : State, s.fault = 0 → 2 ≤ (presentSymbols s.freq).length → ∃ t tr, exec .build s = .next t ∧
    heldTree t = some tr ∧ tr.symbols.Perm ((presentSymbols s.freq).map (BitVec.ofNat 8)) ∧
    ∀ tr' : CodeTree, tr'.symbols.Perm tr.symbols → weightedLength s.freq tr ≤ weightedLength s.freq tr'

/-- R148: NGET. -/
def Obligations.NgetReadsOneNode : Prop :=
  UsesImm 0x21 .nget ∧
  ∀ (s : State) (n : Word32), Inv s → s.fault = 0 →
    (s.treeValid = false → exec (.nget n) s = .next { s with fault := 0x02, finfo := 0x21#8 ++ 0#8 ++ n }) ∧
    (s.treeValid = true → s.nnodes.toNat ≤ n.toNat →
      exec (.nget n) s = .next { s with fault := 0x03, finfo := 0x21#8 ++ 0#8 ++ n }) ∧
    (s.treeValid = true → n.toNat < s.nnodes.toNat → ∃ e, memRead s.node n.toNat = some e ∧
      exec (.nget n) s = .next { s with
        result := ((if e.kind = .internal then 1#1 else 0#1) ++ e.sym ++ e.left ++ e.right).setWidth 64 } ∧
      (e.kind = .leaf → e.left = 0 ∧ e.right = 0) ∧ (e.kind = .internal → e.sym = 0))

/-- R149: NWGT. -/
def Obligations.NwgtReadsOneWeight : Prop :=
  UsesImm 0x22 .nwgt ∧
  ∀ (s : State) (n : Word32), Inv s → s.fault = 0 →
    (s.treeValid = false → exec (.nwgt n) s = .next { s with fault := 0x02, finfo := 0x22#8 ++ 0#8 ++ n }) ∧
    (s.treeValid = true → s.nnodes.toNat ≤ n.toNat →
      exec (.nwgt n) s = .next { s with fault := 0x03, finfo := 0x22#8 ++ 0#8 ++ n }) ∧
    (s.treeValid = true → n.toNat < s.nnodes.toNat → ∃ e, memRead s.node n.toNat = some e ∧
      exec (.nwgt n) s = .next { s with result := e.weight.setWidth 64 } ∧ (DeserializedTree s → e.weight = 0))

/-! ### The codebook -/

/-- R160: CBGEN installs the codes of the held tree, or records E_SEQ or E_DUP_SYM. -/
def Obligations.CbgenInstallsTheCodes : Prop :=
  UsesNeither 0x28 .cbgen ∧
  ∀ s : State, Inv s → s.fault = 0 →
    (s.treeValid = false → exec .cbgen s = .next { s with fault := 0x02, finfo := 0x280000000000 }) ∧
    (s.treeValid = true → ∃ tr, heldTree s = some tr ∧
      (¬ tr.symbols.Nodup → exec .cbgen s = .next { s with fault := 0x41, finfo := 0x280000000000 }) ∧
      (tr.symbols.Nodup → ∃ c, exec .cbgen s = .next { s with cb := c, cbValid := true } ∧
        (∀ p ∈ tr.codes, ∃ e, memRead c p.1.toNat = some e ∧ e.valid = true ∧ e.bits = p.2 ∧
          e.len.toNat = p.2.length) ∧
        ∀ a : Byte, a ∉ tr.symbols → memRead c a.toNat = some { valid := false, len := 0, bits := [] }))

/-- R161: what the codebook guarantees: (a) valid exactly for leaf symbols, (b) the bits are the path to that leaf,
(c) prefix-free, (d) no empty code where the root is internal, (e) the sum of 2^(−len) is 1 there. -/
def Obligations.CodebookGuarantees : Prop :=
  ∀ s : State, Inv s → s.cbValid = true → ∃ tr, heldTree s = some tr ∧
    (∀ a : Byte, (∃ e, memRead s.cb a.toNat = some e ∧ e.valid = true) ↔ a ∈ tr.symbols) ∧
    (∀ (a : Byte) e, memRead s.cb a.toNat = some e → e.valid = true → (a, e.bits) ∈ tr.codes ∧
      e.len.toNat = e.bits.length ∧ ∃ d, follow s.node s.root.toNat e.bits = some d ∧ d.kind = .leaf ∧ d.sym = a) ∧
    (∀ (a b : Byte) e f, memRead s.cb a.toNat = some e → memRead s.cb b.toNat = some f → e.valid = true →
      f.valid = true → e.bits <+: f.bits → a = b) ∧
    ((∃ l r, tr = .node l r) →
      (∀ (a : Byte) e, memRead s.cb a.toNat = some e → e.valid = true → 1 ≤ e.len.toNat) ∧
      ((List.range 256).map fun a => match memRead s.cb a with
        | some e => if e.valid = true then 2 ^ (255 - e.len.toNat) else 0
        | none => 0).sum = 2 ^ 255)

/-- R162: CLEN. -/
def Obligations.ClenReadsTheLength : Prop :=
  UsesA 0x29 .clen ∧
  ∀ (s : State) (a : Byte), Inv s → s.fault = 0 →
    (s.cbValid = false → exec (.clen a) s = .next { s with fault := 0x02, finfo := 0x29#8 ++ a ++ 0#32 }) ∧
    (s.cbValid = true → ∃ e, memRead s.cb a.toNat = some e ∧
      exec (.clen a) s = .next { s with result := ((if e.valid then 1#1 else 0#1) ++ e.len).setWidth 64 } ∧
      (e.valid = false → e.len = 0))

/-- R163: CBIT. -/
def Obligations.CbitReadsOneBit : Prop :=
  UsesBoth 0x2A .cbit ∧
  ∀ (s : State) (a : Byte) (n : Word32), Inv s → s.fault = 0 →
    (s.cbValid = false → exec (.cbit a n) s = .next { s with fault := 0x02, finfo := 0x2A#8 ++ a ++ n }) ∧
    (s.cbValid = true → ∃ e, memRead s.cb a.toNat = some e ∧
      (e.len.toNat ≤ n.toNat → exec (.cbit a n) s = .next { s with fault := 0x03, finfo := 0x2A#8 ++ a ++ n }) ∧
      (n.toNat < e.len.toNat → ∃ b, e.bits[n.toNat]? = some b ∧
        exec (.cbit a n) s = .next { s with result := if b then 1 else 0 }))

/-! ### The header -/

/-- R101: the length of a header, how many of its bytes are `SENTINEL`, and that a header has one tree, which ends where
the header ends. -/
def Obligations.HeaderGrammarIsUnambiguous : Prop :=
  ∀ c : Config,
    (∀ v, (CodeTree.leaf v).ser c = [v]) ∧
    (∀ l r : CodeTree, (CodeTree.node l r).ser c = [c.sentinel] ++ l.ser c ++ r.ser c) ∧
    (∀ tr : CodeTree, (tr.ser c).length = tr.size ∧ tr.size = 2 * tr.symbols.length - 1 ∧ 1 ≤ tr.symbols.length ∧
      (c.sentinel ∉ tr.symbols → (tr.ser c).count c.sentinel = tr.symbols.length - 1)) ∧
    (∀ (tr tr' : CodeTree) (rest rest' : List Byte), c.sentinel ∉ tr.symbols → c.sentinel ∉ tr'.symbols →
      tr.ser c ++ rest = tr'.ser c ++ rest' → tr = tr' ∧ rest = rest')

/-- R171: SER writes the header of the held tree, or records E_SEQ, E_HDR_OVF or E_SENT_LEAF, in that order. -/
def Obligations.SerWritesTheHeader : Prop :=
  UsesNeither 0x30 .ser ∧
  ∀ s : State, Inv s → s.fault = 0 →
    (s.treeValid = false → exec .ser s = .next { s with fault := 0x02, finfo := 0x300000000000 }) ∧
    (s.treeValid = true → ∃ tr, heldTree s = some tr ∧ s.nnodes.toNat = tr.size ∧
      (255 < tr.size → exec .ser s = .next { s with fault := 0x30, finfo := 0x300000000000 }) ∧
      (tr.size ≤ 255 → 0xFF ∈ tr.symbols → exec .ser s = .next { s with fault := 0x31, finfo := 0x300000000000 }) ∧
      (tr.size ≤ 255 → 0xFF ∉ tr.symbols → ∃ m, exec .ser s = .next { s with
          hdr := m, hlen := BitVec.ofNat 8 tr.size, hfill := BitVec.ofNat 8 tr.size, hdrValid := true } ∧
        ∀ k, memRead m k = (tr.ser Config.huffcore)[k]?))

/-- R172, R173: DESER rebuilds the one tree of a well-formed header, with each node at the index of its header position,
and otherwise records E_HDR_SHORT, E_HDR_MALFORMED or E_HDR_TRAIL. -/
def Obligations.DeserRebuildsTheTree : Prop :=
  UsesNeither 0x31 .deser ∧
  ∀ s : State, Inv s → s.fault = 0 →
    (s.hdrValid = false → exec .deser s = .next { s with fault := 0x20, finfo := 0x310000000000 }) ∧
    (s.hdrValid = true → ∃ bs : List Byte, bs.length = s.hlen.toNat ∧ (∀ k, memRead s.hdr k = bs[k]?) ∧
      (∀ tr : CodeTree, 0xFF ∉ tr.symbols → bs = tr.ser Config.huffcore → ∃ m, exec .deser s = .next { s with
            node := m
            nnodes := s.hlen.setWidth 10
            root := 0
            cur := 0
            treeValid := true
            cbValid := false
            cb := []
            decActive := false
            decHalt := false
            decPartial := false } ∧
          treeAt m Config.levels 0 = some tr ∧ preorder m Config.levels 0 = .ok (List.range bs.length) ∧
          (∀ k b, bs[k]? = some b → ∃ e, memRead m k = some e ∧
            (b = 0xFF → e.kind = .internal ∧ e.sym = 0 ∧ e.left.toNat = k + 1 ∧ k + 1 < e.right.toNat ∧ e.weight = 0) ∧
            (b ≠ 0xFF → e = { kind := .leaf, sym := b, left := 0, right := 0, weight := 0 })) ∧
          ∀ k, bs.length ≤ k → memRead m k = none) ∧
      ((¬ ∃ tr rest, 0xFF ∉ CodeTree.symbols tr ∧ bs = tr.ser Config.huffcore ++ rest) →
        exec .deser s = .next { s with fault := 0x21, finfo := 0x310000000000 }) ∧
      ((∃ tr rest, 0xFF ∉ CodeTree.symbols tr ∧ rest ≠ [] ∧ bs = tr.ser Config.huffcore ++ rest) →
        exec .deser s = .next { s with fault := 0x22, finfo := 0x310000000000 }))

/-- R174: HLOAD declares a length and empties the buffer. -/
def Obligations.HloadDeclaresALength : Prop :=
  UsesA 0x32 .hload ∧
  ∀ (s : State) (n : Byte), s.fault = 0 → ∃ m,
    exec (.hload n) s = .next { s with hdr := m, hlen := n, hfill := 0, hdrValid := decide (n = 0) } ∧
      ∀ k, memRead m k = none

/-- R175: HPUT appends one byte, or records E_HDR_FULL. -/
def Obligations.HputAppendsOneByte : Prop :=
  UsesA 0x33 .hput ∧
  ∀ (s : State) (b : Byte), Inv s → s.fault = 0 →
    (s.hfill = s.hlen → exec (.hput b) s = .next { s with fault := 0x23, finfo := 0x33#8 ++ b ++ 0#32 }) ∧
    (s.hfill ≠ s.hlen → ∃ m, exec (.hput b) s = .next { s with
        hdr := m, hfill := s.hfill + 1, hdrValid := decide (s.hfill + 1 = s.hlen) } ∧
      (s.hfill + 1).toNat = s.hfill.toNat + 1 ∧ memRead m s.hfill.toNat = some b ∧
      ∀ k, k ≠ s.hfill.toNat → memRead m k = memRead s.hdr k)

/-- R176: HGET. -/
def Obligations.HgetReadsOneByte : Prop :=
  UsesA 0x34 .hget ∧
  ∀ (s : State) (k : Byte), Inv s → s.fault = 0 →
    (s.hfill.toNat ≤ k.toNat → exec (.hget k) s = .next { s with fault := 0x03, finfo := 0x34#8 ++ k ++ 0#32 }) ∧
    (k.toNat < s.hfill.toNat → ∃ b, memRead s.hdr k.toNat = some b ∧
      exec (.hget k) s = .next { s with result := b.setWidth 64 })

/-- R177: SER then DESER keeps the abstract tree, and DESER then SER keeps a well-formed header. -/
def Obligations.SerDeserRoundTrip : Prop :=
  (∀ (s : State) (tr : CodeTree), Inv s → s.fault = 0 → s.treeValid = true → heldTree s = some tr →
    s.nnodes.toNat ≤ 255 → 0xFF ∉ tr.symbols →
      ∃ t u, exec .ser s = .next t ∧ exec .deser t = .next u ∧ u.fault = 0 ∧ u.treeValid = true ∧
        heldTree u = some tr) ∧
  (∀ (s : State) (tr : CodeTree), Inv s → s.fault = 0 → s.hdrValid = true → 0xFF ∉ tr.symbols →
    tr.size = s.hlen.toNat → (∀ k, memRead s.hdr k = (tr.ser Config.huffcore)[k]?) →
      ∃ t u, exec .deser s = .next t ∧ exec .ser t = .next u ∧ u.fault = 0 ∧ u.hlen = s.hlen ∧
        ∀ k, memRead u.hdr k = memRead s.hdr k)

/-! ### The encoder -/

/-- R190: EHDR emits the length byte and the header bytes, each bit 7 first, and changes nothing else. -/
def Obligations.EhdrEmitsTheHeader : Prop :=
  UsesNeither 0x40 .ehdr ∧
  (∀ v : Byte, bits8 v = (List.range 8).map fun j => v.getLsbD (7 - j)) ∧
  ∀ s : State, Inv s → s.fault = 0 →
    (s.hdrValid = false → exec .ehdr s = .next { s with fault := 0x02, finfo := 0x400000000000 }) ∧
    (s.hdrValid = true → ∃ bs : List Byte, bs.length = s.hlen.toNat ∧ (∀ k, memRead s.hdr k = bs[k]?) ∧
      exec .ehdr s = .next { s with obits := s.obits ++ (bits8 s.hlen ++ bs.flatMap bits8) } ∧
      (bits8 s.hlen ++ bs.flatMap bits8).length = 8 * (1 + s.hlen.toNat))

/-- R191: EPUT emits the code of a symbol, first branch first, or records E_NO_CODE. -/
def Obligations.EputEmitsOneCode : Prop :=
  UsesA 0x41 .eput ∧
  ∀ (s : State) (a : Byte), Inv s → s.fault = 0 →
    (s.cbValid = false → exec (.eput a) s = .next { s with fault := 0x02, finfo := 0x41#8 ++ a ++ 0#32 }) ∧
    (s.cbValid = true → ∃ e, memRead s.cb a.toNat = some e ∧
      (e.valid = false ∨ e.len = 0 →
        exec (.eput a) s = .next { s with fault := 0x40, finfo := 0x41#8 ++ a ++ 0#32 }) ∧
      (e.valid = true → e.len ≠ 0 → exec (.eput a) s = .next { s with obits := s.obits ++ e.bits } ∧
        e.bits.length = e.len.toNat))

/-- R192, R193, R108: how the encode procedure ends on every input: with the first of the three faults that applies, or
with the bits of the file. -/
def Obligations.EncodeProcedureOutcome : Prop :=
  ∀ (s : State) (input : List Byte), ∃ t, runAll (encodeProcedure input) s = .next t ∧
    ((∃ a, 2 ^ 32 ≤ input.count a) → t.fault = 0x10) ∧
    ((∀ a, input.count a < 2 ^ 32) → 128 < input.dedup.length → t.fault = 0x30) ∧
    ((∀ a, input.count a < 2 ^ 32) → input.dedup.length ≤ 128 → 0xFF ∈ input → t.fault = 0x31) ∧
    ((∀ a, input.count a < 2 ^ 32) → input.dedup.length ≤ 128 → 0xFF ∉ input → t.fault = 0 ∧
      ∃ tr codes, heldTree t = some tr ∧ List.Forall₂ (fun a code => (a, code) ∈ CodeTree.codes tr) input codes ∧
        t.obits = fileBits (tr.ser Config.huffcore) codes)

/-! ### The decoder -/

/-- R200: DSTART. -/
def Obligations.DstartBeginsAWalk : Prop :=
  UsesNeither 0x50 .dstart ∧
  ∀ s : State, Inv s → s.fault = 0 →
    (s.treeValid = false → exec .dstart s = .next { s with fault := 0x02, finfo := 0x500000000000 }) ∧
    (s.treeValid = true → ∃ e, memRead s.node s.root.toNat = some e ∧ exec .dstart s = .next { s with
      cur := s.root, decActive := true, decHalt := decide (e.kind = .leaf), decPartial := false })

/-- R201, R203: DBIT. -/
def Obligations.DbitWalksOneBit : Prop :=
  UsesA 0x51 .dbit ∧
  ∀ (s : State) (a : Byte), Inv s → s.fault = 0 →
    (s.decActive = false → exec (.dbit a) s = .next { s with fault := 0x02, finfo := 0x51#8 ++ a ++ 0#32 }) ∧
    (s.decActive = true → 1 < a.toNat →
      exec (.dbit a) s = .next { s with fault := 0x03, finfo := 0x51#8 ++ a ++ 0#32 }) ∧
    (s.decActive = true → a.toNat ≤ 1 → s.decHalt = true → exec (.dbit a) s = .next s) ∧
    (s.decActive = true → a.toNat ≤ 1 → s.decHalt = false → ∃ e d, memRead s.node s.cur.toNat = some e ∧
      e.kind = .internal ∧ memRead s.node (if a = 0 then e.left else e.right).toNat = some d ∧
      (d.kind = .leaf → exec (.dbit a) s = .next { s with cur := s.root, obytes := s.obytes ++ [d.sym] }) ∧
      (d.kind = .internal → exec (.dbit a) s = .next { s with cur := if a = 0 then e.left else e.right }))

/-- R202: DEND. -/
def Obligations.DendEndsTheWalk : Prop :=
  UsesNeither 0x52 .dend ∧
  ∀ s : State, s.fault = 0 →
    (s.decActive = false → exec .dend s = .next { s with fault := 0x02, finfo := 0x520000000000 }) ∧
    (s.decActive = true → exec .dend s = .next { s with
      cur := s.root, decActive := false, decPartial := decide (s.cur ≠ s.root) })

/-- R103, R104, R205: the bits EPUT emits for a list of symbols, given to DBIT at the root, emit those symbols and leave
the walk at the root: each code ends exactly where its leaf is reached. -/
def Obligations.CodesWalkBackToTheirSymbols : Prop :=
  ∀ (s u : State) (tr : CodeTree) (input : List Byte), Inv s → s.fault = 0 → s.cbValid = true → heldTree s = some tr →
    (∃ l r, tr = .node l r) → (∀ a ∈ input, a ∈ tr.symbols) → Inv u → u.fault = 0 → u.decActive = true →
    u.cur = u.root → heldTree u = some tr → ∃ codes : List (List Bool),
      List.Forall₂ (fun a code => (a, code) ∈ tr.codes) input codes ∧
      runAll (input.map .eput) s = .next { s with obits := s.obits ++ codes.flatten } ∧
      runAll (codes.flatten.map fun b => .dbit (bitByte b)) u = .next { u with obytes := u.obytes ++ input }

/-- R205: what the encode procedure made without a fault, packed, the decode procedure takes back to the input, with one
DBIT for each code bit; the host that reads FAULT after DESER ends in the same state. -/
def Obligations.EncodeThenDecodeRecoversTheInput : Prop :=
  ∀ (s s' t : State) (input : List Byte), runAll (encodeProcedure input) s = .next t → t.fault = 0 →
    ∃ u tr codes, runAll (decodeProcedure (pack t.obits) t.obits.length) s' = .next u ∧
      decodeRun (pack t.obits) t.obits.length s' = .next (.recovered, u) ∧ u.fault = 0 ∧
      u.obytes = input ∧ u.decPartial = false ∧ heldTree t = some tr ∧ heldTree u = some tr ∧
      List.Forall₂ (fun a code => (a, code) ∈ CodeTree.codes tr) input codes ∧
      ((decodeProcedure (pack t.obits) t.obits.length).filter fun i => decide (∃ b : Bool, i = .dbit (bitByte b))).length =
        (codes.map List.length).sum

/-- R70, R71: packing and unpacking. -/
def Obligations.PackingContract : Prop :=
  ∀ bits : List Bool,
    (pack bits).length = (bits.length + 7) / 8 ∧
    (∀ k v, (pack bits)[k]? = some v → ∀ j, j < 8 →
      v.getLsbD (7 - j) = if h : 8 * k + j < bits.length then bits[8 * k + j] else false) ∧
    unpack (pack bits) = bits ++ List.replicate ((8 - bits.length % 8) % 8) false

/-! ### Invariants -/

/-- The invariant holds right after reset. -/
def Obligations.InvariantHoldsAtReset : Prop := Inv State.reset

/-- Every step from a state with the invariant leads to a state with the invariant, also for any other choice of the
reserved byte values (R8). -/
def Obligations.EveryStepKeepsTheInvariant : Prop :=
  (∀ s t : State, Inv s → step s = .next t → Inv t) ∧
  ∀ (c : Config) (s t : State), Inv s → stepIn c s = .next t → Inv t

/-- R120: execution is total: from a state with the invariant every step answers a next state, whatever waits at the
port, also for any other choice of the reserved byte values (R8). -/
def Obligations.EveryStepAnswersNext : Prop :=
  (∀ s : State, Inv s → (∃ t, step s = .next t) ∧ ∀ w : CmdWord, ∃ t, execWord w s = .next t) ∧
  ∀ (c : Config) (s : State), Inv s → (∃ t, stepIn c s = .next t) ∧ ∀ w : CmdWord, ∃ t, execWordIn c w s = .next t

/-! ### The configuration -/

/-- R8: the three reserved byte values are an argument of the model. This hardware's values, that the machine is the
configured machine with them, and for any pairwise distinct choice what each value is for. -/
def Obligations.ReservedBytesAreAnArgument : Prop :=
  (Config.huffcore.sentinel = 0xFF ∧ Config.huffcore.padSym = 0x00 ∧ Config.huffcore.altPadSym = 0x01) ∧
  (∀ s : State, stepIn Config.huffcore s = step s) ∧
  ∀ c : Config,
    (c.sentinel ≠ c.padSym ∧ c.sentinel ≠ c.altPadSym ∧ c.padSym ≠ c.altPadSym) ∧
    (∀ s : State, s.fault = 0 → (∀ a : Byte, freqRead s.freq a.toNat = 0) →
      ∃ t, execIn c .build s = .next t ∧ heldTree t = some (.leaf c.padSym)) ∧
    (∀ (s : State) (a : Byte), s.fault = 0 → freqRead s.freq a.toNat ≠ 0 →
      (∀ b : Byte, b ≠ a → freqRead s.freq b.toNat = 0) → ∃ t, execIn c .build s = .next t ∧
        heldTree t = some (.node (.leaf a) (.leaf (if a = c.padSym then c.altPadSym else c.padSym)))) ∧
    (∀ (s : State) (tr : CodeTree), Inv s → s.fault = 0 → s.treeValid = true → heldTree s = some tr →
      s.nnodes.toNat ≤ 255 →
      (c.sentinel ∈ tr.symbols →
        execIn c .ser s = .next { s with fault := 0x31, finfo := 0x300000000000 }) ∧
      (c.sentinel ∉ tr.symbols → ∃ t u, execIn c .ser s = .next t ∧ (∀ k, memRead t.hdr k = (tr.ser c)[k]?) ∧
        execIn c .deser t = .next u ∧ u.fault = 0 ∧ heldTree u = some tr)) ∧
    (∀ s : State, execIn c (.rdreg 9) s =
      .next { s with result := (c.altPadSym ++ c.padSym ++ c.sentinel).setWidth 64 }) ∧
    ∀ (i : Instr) (s : State), i ≠ .rdreg 9 → i ≠ .build → i ≠ .ser → i ≠ .deser → execIn c i s = exec i s

/-! ### The decode procedure -/

/-- R204: how the host's decode procedure ends on every file and every `NBITS`: without a tree, with the fault DESER
records for a short header, a header no tree begins (`0x21`) or a tree with header bytes left (`0x22`); or, where `NBITS` is
in its bounds, with the data bits walked: the codes of the bytes of OBYTES in order, and a last part of a code exactly where
DEC_PARTIAL is 1 (R201, R202), or nothing where the root is a leaf (R203). The end without a walk where `NBITS` is out of its
bounds is the model's choice (notes/assumptions/17.md). -/
def Obligations.DecodeProcedureOutcome : Prop :=
  ∀ (s : State) (file : List Byte) (nbits : Nat), ∃ e t, decodeRun file nbits s = .next (e, t) ∧
    (file = [] → e = .noTree ∧ t.fault = 0x20) ∧
    ∀ n rest, file = n :: rest →
      (rest.length < n.toNat → e = .noTree ∧ t.fault = 0x20) ∧
      (n.toNat ≤ rest.length →
        ((¬ ∃ tr more, 0xFF ∉ CodeTree.symbols tr ∧ headerPart n rest = tr.ser Config.huffcore ++ more) →
          e = .noTree ∧ t.fault = 0x21) ∧
        ((∃ tr more, 0xFF ∉ CodeTree.symbols tr ∧ more ≠ [] ∧ headerPart n rest = tr.ser Config.huffcore ++ more) →
          e = .noTree ∧ t.fault = 0x22) ∧
        ∀ tr : CodeTree, 0xFF ∉ tr.symbols → headerPart n rest = tr.ser Config.huffcore →
          t.fault = 0 ∧ heldTree t = some tr ∧
          (nbits < 8 * (1 + n.toNat) ∨ 8 * file.length < nbits → e = .badCount ∧ t.obytes = []) ∧
          (8 * (1 + n.toNat) ≤ nbits → nbits ≤ 8 * file.length → e = .recovered ∧ t.decActive = false ∧
            (dataBits file n nbits).length = nbits - 8 * (1 + n.toNat) ∧
            ((∃ v, tr = .leaf v) → t.obytes = [] ∧ t.decPartial = false) ∧
            ((∃ l r, tr = .node l r) → ∃ codes part, dataBits file n nbits = codes.flatten ++ part ∧
              List.Forall₂ (fun a code => (a, code) ∈ tr.codes) t.obytes codes ∧
              (∃ x ∈ tr.codes, part <+: x.2 ∧ part ≠ x.2) ∧ (t.decPartial = true ↔ part ≠ []))))

end
end

