-- ==== Sys2Proof/Laws/State.lean ====
section
/-! SUPPORT. One lemma per field of State for each named update of Machine/Ops.lean, each true by `rfl`. -/

namespace Sys2Proof.Machine

@[simp] theorem State.setResult_result (s : State) (v : BitVec 64) : (s.setResult v).result = v := rfl
@[simp] theorem State.setResult_fault (s : State) (v : BitVec 64) : (s.setResult v).fault = s.fault := rfl
@[simp] theorem State.setResult_finfo (s : State) (v : BitVec 64) : (s.setResult v).finfo = s.finfo := rfl
@[simp] theorem State.setResult_treeValid (s : State) (v : BitVec 64) : (s.setResult v).treeValid = s.treeValid := rfl
@[simp] theorem State.setResult_cbValid (s : State) (v : BitVec 64) : (s.setResult v).cbValid = s.cbValid := rfl
@[simp] theorem State.setResult_hdrValid (s : State) (v : BitVec 64) : (s.setResult v).hdrValid = s.hdrValid := rfl
@[simp] theorem State.setResult_decActive (s : State) (v : BitVec 64) : (s.setResult v).decActive = s.decActive := rfl
@[simp] theorem State.setResult_decHalt (s : State) (v : BitVec 64) : (s.setResult v).decHalt = s.decHalt := rfl
@[simp] theorem State.setResult_decPartial (s : State) (v : BitVec 64) : (s.setResult v).decPartial = s.decPartial := rfl
@[simp] theorem State.setResult_nnodes (s : State) (v : BitVec 64) : (s.setResult v).nnodes = s.nnodes := rfl
@[simp] theorem State.setResult_root (s : State) (v : BitVec 64) : (s.setResult v).root = s.root := rfl
@[simp] theorem State.setResult_hlen (s : State) (v : BitVec 64) : (s.setResult v).hlen = s.hlen := rfl
@[simp] theorem State.setResult_hfill (s : State) (v : BitVec 64) : (s.setResult v).hfill = s.hfill := rfl
@[simp] theorem State.setResult_cur (s : State) (v : BitVec 64) : (s.setResult v).cur = s.cur := rfl
@[simp] theorem State.setResult_freq (s : State) (v : BitVec 64) : (s.setResult v).freq = s.freq := rfl
@[simp] theorem State.setResult_node (s : State) (v : BitVec 64) : (s.setResult v).node = s.node := rfl
@[simp] theorem State.setResult_cb (s : State) (v : BitVec 64) : (s.setResult v).cb = s.cb := rfl
@[simp] theorem State.setResult_hdr (s : State) (v : BitVec 64) : (s.setResult v).hdr = s.hdr := rfl
@[simp] theorem State.setResult_obits (s : State) (v : BitVec 64) : (s.setResult v).obits = s.obits := rfl
@[simp] theorem State.setResult_obytes (s : State) (v : BitVec 64) : (s.setResult v).obytes = s.obytes := rfl
@[simp] theorem State.setResult_port (s : State) (v : BitVec 64) : (s.setResult v).port = s.port := rfl

@[simp] theorem State.setFreq_result (s : State) (m : Memory Word32) : (s.setFreq m).result = s.result := rfl
@[simp] theorem State.setFreq_fault (s : State) (m : Memory Word32) : (s.setFreq m).fault = s.fault := rfl
@[simp] theorem State.setFreq_finfo (s : State) (m : Memory Word32) : (s.setFreq m).finfo = s.finfo := rfl
@[simp] theorem State.setFreq_treeValid (s : State) (m : Memory Word32) : (s.setFreq m).treeValid = s.treeValid := rfl
@[simp] theorem State.setFreq_cbValid (s : State) (m : Memory Word32) : (s.setFreq m).cbValid = s.cbValid := rfl
@[simp] theorem State.setFreq_hdrValid (s : State) (m : Memory Word32) : (s.setFreq m).hdrValid = s.hdrValid := rfl
@[simp] theorem State.setFreq_decActive (s : State) (m : Memory Word32) : (s.setFreq m).decActive = s.decActive := rfl
@[simp] theorem State.setFreq_decHalt (s : State) (m : Memory Word32) : (s.setFreq m).decHalt = s.decHalt := rfl
@[simp] theorem State.setFreq_decPartial (s : State) (m : Memory Word32) : (s.setFreq m).decPartial = s.decPartial := rfl
@[simp] theorem State.setFreq_nnodes (s : State) (m : Memory Word32) : (s.setFreq m).nnodes = s.nnodes := rfl
@[simp] theorem State.setFreq_root (s : State) (m : Memory Word32) : (s.setFreq m).root = s.root := rfl
@[simp] theorem State.setFreq_hlen (s : State) (m : Memory Word32) : (s.setFreq m).hlen = s.hlen := rfl
@[simp] theorem State.setFreq_hfill (s : State) (m : Memory Word32) : (s.setFreq m).hfill = s.hfill := rfl
@[simp] theorem State.setFreq_cur (s : State) (m : Memory Word32) : (s.setFreq m).cur = s.cur := rfl
@[simp] theorem State.setFreq_freq (s : State) (m : Memory Word32) : (s.setFreq m).freq = m := rfl
@[simp] theorem State.setFreq_node (s : State) (m : Memory Word32) : (s.setFreq m).node = s.node := rfl
@[simp] theorem State.setFreq_cb (s : State) (m : Memory Word32) : (s.setFreq m).cb = s.cb := rfl
@[simp] theorem State.setFreq_hdr (s : State) (m : Memory Word32) : (s.setFreq m).hdr = s.hdr := rfl
@[simp] theorem State.setFreq_obits (s : State) (m : Memory Word32) : (s.setFreq m).obits = s.obits := rfl
@[simp] theorem State.setFreq_obytes (s : State) (m : Memory Word32) : (s.setFreq m).obytes = s.obytes := rfl
@[simp] theorem State.setFreq_port (s : State) (m : Memory Word32) : (s.setFreq m).port = s.port := rfl

@[simp] theorem State.installTree_result (s : State) (m : Memory Node) (n r : Nat) : (s.installTree m n r).result = s.result := rfl
@[simp] theorem State.installTree_fault (s : State) (m : Memory Node) (n r : Nat) : (s.installTree m n r).fault = s.fault := rfl
@[simp] theorem State.installTree_finfo (s : State) (m : Memory Node) (n r : Nat) : (s.installTree m n r).finfo = s.finfo := rfl
@[simp] theorem State.installTree_treeValid (s : State) (m : Memory Node) (n r : Nat) : (s.installTree m n r).treeValid = true := rfl
@[simp] theorem State.installTree_cbValid (s : State) (m : Memory Node) (n r : Nat) : (s.installTree m n r).cbValid = false := rfl
@[simp] theorem State.installTree_hdrValid (s : State) (m : Memory Node) (n r : Nat) : (s.installTree m n r).hdrValid = s.hdrValid := rfl
@[simp] theorem State.installTree_decActive (s : State) (m : Memory Node) (n r : Nat) : (s.installTree m n r).decActive = false := rfl
@[simp] theorem State.installTree_decHalt (s : State) (m : Memory Node) (n r : Nat) : (s.installTree m n r).decHalt = false := rfl
@[simp] theorem State.installTree_decPartial (s : State) (m : Memory Node) (n r : Nat) : (s.installTree m n r).decPartial = false := rfl
@[simp] theorem State.installTree_nnodes (s : State) (m : Memory Node) (n r : Nat) : (s.installTree m n r).nnodes = BitVec.ofNat 10 n := rfl
@[simp] theorem State.installTree_root (s : State) (m : Memory Node) (n r : Nat) : (s.installTree m n r).root = BitVec.ofNat 9 r := rfl
@[simp] theorem State.installTree_hlen (s : State) (m : Memory Node) (n r : Nat) : (s.installTree m n r).hlen = s.hlen := rfl
@[simp] theorem State.installTree_hfill (s : State) (m : Memory Node) (n r : Nat) : (s.installTree m n r).hfill = s.hfill := rfl
@[simp] theorem State.installTree_cur (s : State) (m : Memory Node) (n r : Nat) : (s.installTree m n r).cur = BitVec.ofNat 9 r := rfl
@[simp] theorem State.installTree_freq (s : State) (m : Memory Node) (n r : Nat) : (s.installTree m n r).freq = s.freq := rfl
@[simp] theorem State.installTree_node (s : State) (m : Memory Node) (n r : Nat) : (s.installTree m n r).node = m := rfl
@[simp] theorem State.installTree_cb (s : State) (m : Memory Node) (n r : Nat) : (s.installTree m n r).cb = [] := rfl
@[simp] theorem State.installTree_hdr (s : State) (m : Memory Node) (n r : Nat) : (s.installTree m n r).hdr = s.hdr := rfl
@[simp] theorem State.installTree_obits (s : State) (m : Memory Node) (n r : Nat) : (s.installTree m n r).obits = s.obits := rfl
@[simp] theorem State.installTree_obytes (s : State) (m : Memory Node) (n r : Nat) : (s.installTree m n r).obytes = s.obytes := rfl
@[simp] theorem State.installTree_port (s : State) (m : Memory Node) (n r : Nat) : (s.installTree m n r).port = s.port := rfl

@[simp] theorem State.installCodebook_result (s : State) (c : Memory CbEntry) : (s.installCodebook c).result = s.result := rfl
@[simp] theorem State.installCodebook_fault (s : State) (c : Memory CbEntry) : (s.installCodebook c).fault = s.fault := rfl
@[simp] theorem State.installCodebook_finfo (s : State) (c : Memory CbEntry) : (s.installCodebook c).finfo = s.finfo := rfl
@[simp] theorem State.installCodebook_treeValid (s : State) (c : Memory CbEntry) : (s.installCodebook c).treeValid = s.treeValid := rfl
@[simp] theorem State.installCodebook_cbValid (s : State) (c : Memory CbEntry) : (s.installCodebook c).cbValid = true := rfl
@[simp] theorem State.installCodebook_hdrValid (s : State) (c : Memory CbEntry) : (s.installCodebook c).hdrValid = s.hdrValid := rfl
@[simp] theorem State.installCodebook_decActive (s : State) (c : Memory CbEntry) : (s.installCodebook c).decActive = s.decActive := rfl
@[simp] theorem State.installCodebook_decHalt (s : State) (c : Memory CbEntry) : (s.installCodebook c).decHalt = s.decHalt := rfl
@[simp] theorem State.installCodebook_decPartial (s : State) (c : Memory CbEntry) : (s.installCodebook c).decPartial = s.decPartial := rfl
@[simp] theorem State.installCodebook_nnodes (s : State) (c : Memory CbEntry) : (s.installCodebook c).nnodes = s.nnodes := rfl
@[simp] theorem State.installCodebook_root (s : State) (c : Memory CbEntry) : (s.installCodebook c).root = s.root := rfl
@[simp] theorem State.installCodebook_hlen (s : State) (c : Memory CbEntry) : (s.installCodebook c).hlen = s.hlen := rfl
@[simp] theorem State.installCodebook_hfill (s : State) (c : Memory CbEntry) : (s.installCodebook c).hfill = s.hfill := rfl
@[simp] theorem State.installCodebook_cur (s : State) (c : Memory CbEntry) : (s.installCodebook c).cur = s.cur := rfl
@[simp] theorem State.installCodebook_freq (s : State) (c : Memory CbEntry) : (s.installCodebook c).freq = s.freq := rfl
@[simp] theorem State.installCodebook_node (s : State) (c : Memory CbEntry) : (s.installCodebook c).node = s.node := rfl
@[simp] theorem State.installCodebook_cb (s : State) (c : Memory CbEntry) : (s.installCodebook c).cb = c := rfl
@[simp] theorem State.installCodebook_hdr (s : State) (c : Memory CbEntry) : (s.installCodebook c).hdr = s.hdr := rfl
@[simp] theorem State.installCodebook_obits (s : State) (c : Memory CbEntry) : (s.installCodebook c).obits = s.obits := rfl
@[simp] theorem State.installCodebook_obytes (s : State) (c : Memory CbEntry) : (s.installCodebook c).obytes = s.obytes := rfl
@[simp] theorem State.installCodebook_port (s : State) (c : Memory CbEntry) : (s.installCodebook c).port = s.port := rfl

@[simp] theorem State.setHeader_result (s : State) (m : Memory Byte) (n k : BitVec 8) (b : Bool) : (s.setHeader m n k b).result = s.result := rfl
@[simp] theorem State.setHeader_fault (s : State) (m : Memory Byte) (n k : BitVec 8) (b : Bool) : (s.setHeader m n k b).fault = s.fault := rfl
@[simp] theorem State.setHeader_finfo (s : State) (m : Memory Byte) (n k : BitVec 8) (b : Bool) : (s.setHeader m n k b).finfo = s.finfo := rfl
@[simp] theorem State.setHeader_treeValid (s : State) (m : Memory Byte) (n k : BitVec 8) (b : Bool) : (s.setHeader m n k b).treeValid = s.treeValid := rfl
@[simp] theorem State.setHeader_cbValid (s : State) (m : Memory Byte) (n k : BitVec 8) (b : Bool) : (s.setHeader m n k b).cbValid = s.cbValid := rfl
@[simp] theorem State.setHeader_hdrValid (s : State) (m : Memory Byte) (n k : BitVec 8) (b : Bool) : (s.setHeader m n k b).hdrValid = b := rfl
@[simp] theorem State.setHeader_decActive (s : State) (m : Memory Byte) (n k : BitVec 8) (b : Bool) : (s.setHeader m n k b).decActive = s.decActive := rfl
@[simp] theorem State.setHeader_decHalt (s : State) (m : Memory Byte) (n k : BitVec 8) (b : Bool) : (s.setHeader m n k b).decHalt = s.decHalt := rfl
@[simp] theorem State.setHeader_decPartial (s : State) (m : Memory Byte) (n k : BitVec 8) (b : Bool) : (s.setHeader m n k b).decPartial = s.decPartial := rfl
@[simp] theorem State.setHeader_nnodes (s : State) (m : Memory Byte) (n k : BitVec 8) (b : Bool) : (s.setHeader m n k b).nnodes = s.nnodes := rfl
@[simp] theorem State.setHeader_root (s : State) (m : Memory Byte) (n k : BitVec 8) (b : Bool) : (s.setHeader m n k b).root = s.root := rfl
@[simp] theorem State.setHeader_hlen (s : State) (m : Memory Byte) (n k : BitVec 8) (b : Bool) : (s.setHeader m n k b).hlen = n := rfl
@[simp] theorem State.setHeader_hfill (s : State) (m : Memory Byte) (n k : BitVec 8) (b : Bool) : (s.setHeader m n k b).hfill = k := rfl
@[simp] theorem State.setHeader_cur (s : State) (m : Memory Byte) (n k : BitVec 8) (b : Bool) : (s.setHeader m n k b).cur = s.cur := rfl
@[simp] theorem State.setHeader_freq (s : State) (m : Memory Byte) (n k : BitVec 8) (b : Bool) : (s.setHeader m n k b).freq = s.freq := rfl
@[simp] theorem State.setHeader_node (s : State) (m : Memory Byte) (n k : BitVec 8) (b : Bool) : (s.setHeader m n k b).node = s.node := rfl
@[simp] theorem State.setHeader_cb (s : State) (m : Memory Byte) (n k : BitVec 8) (b : Bool) : (s.setHeader m n k b).cb = s.cb := rfl
@[simp] theorem State.setHeader_hdr (s : State) (m : Memory Byte) (n k : BitVec 8) (b : Bool) : (s.setHeader m n k b).hdr = m := rfl
@[simp] theorem State.setHeader_obits (s : State) (m : Memory Byte) (n k : BitVec 8) (b : Bool) : (s.setHeader m n k b).obits = s.obits := rfl
@[simp] theorem State.setHeader_obytes (s : State) (m : Memory Byte) (n k : BitVec 8) (b : Bool) : (s.setHeader m n k b).obytes = s.obytes := rfl
@[simp] theorem State.setHeader_port (s : State) (m : Memory Byte) (n k : BitVec 8) (b : Bool) : (s.setHeader m n k b).port = s.port := rfl

@[simp] theorem State.setWalk_result (s : State) (c : NodeIndex) (x y z : Bool) : (s.setWalk c x y z).result = s.result := rfl
@[simp] theorem State.setWalk_fault (s : State) (c : NodeIndex) (x y z : Bool) : (s.setWalk c x y z).fault = s.fault := rfl
@[simp] theorem State.setWalk_finfo (s : State) (c : NodeIndex) (x y z : Bool) : (s.setWalk c x y z).finfo = s.finfo := rfl
@[simp] theorem State.setWalk_treeValid (s : State) (c : NodeIndex) (x y z : Bool) : (s.setWalk c x y z).treeValid = s.treeValid := rfl
@[simp] theorem State.setWalk_cbValid (s : State) (c : NodeIndex) (x y z : Bool) : (s.setWalk c x y z).cbValid = s.cbValid := rfl
@[simp] theorem State.setWalk_hdrValid (s : State) (c : NodeIndex) (x y z : Bool) : (s.setWalk c x y z).hdrValid = s.hdrValid := rfl
@[simp] theorem State.setWalk_decActive (s : State) (c : NodeIndex) (x y z : Bool) : (s.setWalk c x y z).decActive = x := rfl
@[simp] theorem State.setWalk_decHalt (s : State) (c : NodeIndex) (x y z : Bool) : (s.setWalk c x y z).decHalt = y := rfl
@[simp] theorem State.setWalk_decPartial (s : State) (c : NodeIndex) (x y z : Bool) : (s.setWalk c x y z).decPartial = z := rfl
@[simp] theorem State.setWalk_nnodes (s : State) (c : NodeIndex) (x y z : Bool) : (s.setWalk c x y z).nnodes = s.nnodes := rfl
@[simp] theorem State.setWalk_root (s : State) (c : NodeIndex) (x y z : Bool) : (s.setWalk c x y z).root = s.root := rfl
@[simp] theorem State.setWalk_hlen (s : State) (c : NodeIndex) (x y z : Bool) : (s.setWalk c x y z).hlen = s.hlen := rfl
@[simp] theorem State.setWalk_hfill (s : State) (c : NodeIndex) (x y z : Bool) : (s.setWalk c x y z).hfill = s.hfill := rfl
@[simp] theorem State.setWalk_cur (s : State) (c : NodeIndex) (x y z : Bool) : (s.setWalk c x y z).cur = c := rfl
@[simp] theorem State.setWalk_freq (s : State) (c : NodeIndex) (x y z : Bool) : (s.setWalk c x y z).freq = s.freq := rfl
@[simp] theorem State.setWalk_node (s : State) (c : NodeIndex) (x y z : Bool) : (s.setWalk c x y z).node = s.node := rfl
@[simp] theorem State.setWalk_cb (s : State) (c : NodeIndex) (x y z : Bool) : (s.setWalk c x y z).cb = s.cb := rfl
@[simp] theorem State.setWalk_hdr (s : State) (c : NodeIndex) (x y z : Bool) : (s.setWalk c x y z).hdr = s.hdr := rfl
@[simp] theorem State.setWalk_obits (s : State) (c : NodeIndex) (x y z : Bool) : (s.setWalk c x y z).obits = s.obits := rfl
@[simp] theorem State.setWalk_obytes (s : State) (c : NodeIndex) (x y z : Bool) : (s.setWalk c x y z).obytes = s.obytes := rfl
@[simp] theorem State.setWalk_port (s : State) (c : NodeIndex) (x y z : Bool) : (s.setWalk c x y z).port = s.port := rfl

@[simp] theorem State.setCur_result (s : State) (c : NodeIndex) : (s.setCur c).result = s.result := rfl
@[simp] theorem State.setCur_fault (s : State) (c : NodeIndex) : (s.setCur c).fault = s.fault := rfl
@[simp] theorem State.setCur_finfo (s : State) (c : NodeIndex) : (s.setCur c).finfo = s.finfo := rfl
@[simp] theorem State.setCur_treeValid (s : State) (c : NodeIndex) : (s.setCur c).treeValid = s.treeValid := rfl
@[simp] theorem State.setCur_cbValid (s : State) (c : NodeIndex) : (s.setCur c).cbValid = s.cbValid := rfl
@[simp] theorem State.setCur_hdrValid (s : State) (c : NodeIndex) : (s.setCur c).hdrValid = s.hdrValid := rfl
@[simp] theorem State.setCur_decActive (s : State) (c : NodeIndex) : (s.setCur c).decActive = s.decActive := rfl
@[simp] theorem State.setCur_decHalt (s : State) (c : NodeIndex) : (s.setCur c).decHalt = s.decHalt := rfl
@[simp] theorem State.setCur_decPartial (s : State) (c : NodeIndex) : (s.setCur c).decPartial = s.decPartial := rfl
@[simp] theorem State.setCur_nnodes (s : State) (c : NodeIndex) : (s.setCur c).nnodes = s.nnodes := rfl
@[simp] theorem State.setCur_root (s : State) (c : NodeIndex) : (s.setCur c).root = s.root := rfl
@[simp] theorem State.setCur_hlen (s : State) (c : NodeIndex) : (s.setCur c).hlen = s.hlen := rfl
@[simp] theorem State.setCur_hfill (s : State) (c : NodeIndex) : (s.setCur c).hfill = s.hfill := rfl
@[simp] theorem State.setCur_cur (s : State) (c : NodeIndex) : (s.setCur c).cur = c := rfl
@[simp] theorem State.setCur_freq (s : State) (c : NodeIndex) : (s.setCur c).freq = s.freq := rfl
@[simp] theorem State.setCur_node (s : State) (c : NodeIndex) : (s.setCur c).node = s.node := rfl
@[simp] theorem State.setCur_cb (s : State) (c : NodeIndex) : (s.setCur c).cb = s.cb := rfl
@[simp] theorem State.setCur_hdr (s : State) (c : NodeIndex) : (s.setCur c).hdr = s.hdr := rfl
@[simp] theorem State.setCur_obits (s : State) (c : NodeIndex) : (s.setCur c).obits = s.obits := rfl
@[simp] theorem State.setCur_obytes (s : State) (c : NodeIndex) : (s.setCur c).obytes = s.obytes := rfl
@[simp] theorem State.setCur_port (s : State) (c : NodeIndex) : (s.setCur c).port = s.port := rfl

@[simp] theorem State.emitBits_result (s : State) (bs : List Bool) : (s.emitBits bs).result = s.result := rfl
@[simp] theorem State.emitBits_fault (s : State) (bs : List Bool) : (s.emitBits bs).fault = s.fault := rfl
@[simp] theorem State.emitBits_finfo (s : State) (bs : List Bool) : (s.emitBits bs).finfo = s.finfo := rfl
@[simp] theorem State.emitBits_treeValid (s : State) (bs : List Bool) : (s.emitBits bs).treeValid = s.treeValid := rfl
@[simp] theorem State.emitBits_cbValid (s : State) (bs : List Bool) : (s.emitBits bs).cbValid = s.cbValid := rfl
@[simp] theorem State.emitBits_hdrValid (s : State) (bs : List Bool) : (s.emitBits bs).hdrValid = s.hdrValid := rfl
@[simp] theorem State.emitBits_decActive (s : State) (bs : List Bool) : (s.emitBits bs).decActive = s.decActive := rfl
@[simp] theorem State.emitBits_decHalt (s : State) (bs : List Bool) : (s.emitBits bs).decHalt = s.decHalt := rfl
@[simp] theorem State.emitBits_decPartial (s : State) (bs : List Bool) : (s.emitBits bs).decPartial = s.decPartial := rfl
@[simp] theorem State.emitBits_nnodes (s : State) (bs : List Bool) : (s.emitBits bs).nnodes = s.nnodes := rfl
@[simp] theorem State.emitBits_root (s : State) (bs : List Bool) : (s.emitBits bs).root = s.root := rfl
@[simp] theorem State.emitBits_hlen (s : State) (bs : List Bool) : (s.emitBits bs).hlen = s.hlen := rfl
@[simp] theorem State.emitBits_hfill (s : State) (bs : List Bool) : (s.emitBits bs).hfill = s.hfill := rfl
@[simp] theorem State.emitBits_cur (s : State) (bs : List Bool) : (s.emitBits bs).cur = s.cur := rfl
@[simp] theorem State.emitBits_freq (s : State) (bs : List Bool) : (s.emitBits bs).freq = s.freq := rfl
@[simp] theorem State.emitBits_node (s : State) (bs : List Bool) : (s.emitBits bs).node = s.node := rfl
@[simp] theorem State.emitBits_cb (s : State) (bs : List Bool) : (s.emitBits bs).cb = s.cb := rfl
@[simp] theorem State.emitBits_hdr (s : State) (bs : List Bool) : (s.emitBits bs).hdr = s.hdr := rfl
@[simp] theorem State.emitBits_obits (s : State) (bs : List Bool) : (s.emitBits bs).obits = s.obits ++ bs := rfl
@[simp] theorem State.emitBits_obytes (s : State) (bs : List Bool) : (s.emitBits bs).obytes = s.obytes := rfl
@[simp] theorem State.emitBits_port (s : State) (bs : List Bool) : (s.emitBits bs).port = s.port := rfl

@[simp] theorem State.emitBytes_result (s : State) (bs : List Byte) : (s.emitBytes bs).result = s.result := rfl
@[simp] theorem State.emitBytes_fault (s : State) (bs : List Byte) : (s.emitBytes bs).fault = s.fault := rfl
@[simp] theorem State.emitBytes_finfo (s : State) (bs : List Byte) : (s.emitBytes bs).finfo = s.finfo := rfl
@[simp] theorem State.emitBytes_treeValid (s : State) (bs : List Byte) : (s.emitBytes bs).treeValid = s.treeValid := rfl
@[simp] theorem State.emitBytes_cbValid (s : State) (bs : List Byte) : (s.emitBytes bs).cbValid = s.cbValid := rfl
@[simp] theorem State.emitBytes_hdrValid (s : State) (bs : List Byte) : (s.emitBytes bs).hdrValid = s.hdrValid := rfl
@[simp] theorem State.emitBytes_decActive (s : State) (bs : List Byte) : (s.emitBytes bs).decActive = s.decActive := rfl
@[simp] theorem State.emitBytes_decHalt (s : State) (bs : List Byte) : (s.emitBytes bs).decHalt = s.decHalt := rfl
@[simp] theorem State.emitBytes_decPartial (s : State) (bs : List Byte) : (s.emitBytes bs).decPartial = s.decPartial := rfl
@[simp] theorem State.emitBytes_nnodes (s : State) (bs : List Byte) : (s.emitBytes bs).nnodes = s.nnodes := rfl
@[simp] theorem State.emitBytes_root (s : State) (bs : List Byte) : (s.emitBytes bs).root = s.root := rfl
@[simp] theorem State.emitBytes_hlen (s : State) (bs : List Byte) : (s.emitBytes bs).hlen = s.hlen := rfl
@[simp] theorem State.emitBytes_hfill (s : State) (bs : List Byte) : (s.emitBytes bs).hfill = s.hfill := rfl
@[simp] theorem State.emitBytes_cur (s : State) (bs : List Byte) : (s.emitBytes bs).cur = s.cur := rfl
@[simp] theorem State.emitBytes_freq (s : State) (bs : List Byte) : (s.emitBytes bs).freq = s.freq := rfl
@[simp] theorem State.emitBytes_node (s : State) (bs : List Byte) : (s.emitBytes bs).node = s.node := rfl
@[simp] theorem State.emitBytes_cb (s : State) (bs : List Byte) : (s.emitBytes bs).cb = s.cb := rfl
@[simp] theorem State.emitBytes_hdr (s : State) (bs : List Byte) : (s.emitBytes bs).hdr = s.hdr := rfl
@[simp] theorem State.emitBytes_obits (s : State) (bs : List Byte) : (s.emitBytes bs).obits = s.obits := rfl
@[simp] theorem State.emitBytes_obytes (s : State) (bs : List Byte) : (s.emitBytes bs).obytes = s.obytes ++ bs := rfl
@[simp] theorem State.emitBytes_port (s : State) (bs : List Byte) : (s.emitBytes bs).port = s.port := rfl

@[simp] theorem raise_result (s : State) (e : ErrorCode) (w : CmdWord) : (raise e w s).result = s.result := rfl
@[simp] theorem raise_fault (s : State) (e : ErrorCode) (w : CmdWord) : (raise e w s).fault = e.code := rfl
@[simp] theorem raise_finfo (s : State) (e : ErrorCode) (w : CmdWord) : (raise e w s).finfo = w := rfl
@[simp] theorem raise_treeValid (s : State) (e : ErrorCode) (w : CmdWord) : (raise e w s).treeValid = s.treeValid := rfl
@[simp] theorem raise_cbValid (s : State) (e : ErrorCode) (w : CmdWord) : (raise e w s).cbValid = s.cbValid := rfl
@[simp] theorem raise_hdrValid (s : State) (e : ErrorCode) (w : CmdWord) : (raise e w s).hdrValid = s.hdrValid := rfl
@[simp] theorem raise_decActive (s : State) (e : ErrorCode) (w : CmdWord) : (raise e w s).decActive = s.decActive := rfl
@[simp] theorem raise_decHalt (s : State) (e : ErrorCode) (w : CmdWord) : (raise e w s).decHalt = s.decHalt := rfl
@[simp] theorem raise_decPartial (s : State) (e : ErrorCode) (w : CmdWord) : (raise e w s).decPartial = s.decPartial := rfl
@[simp] theorem raise_nnodes (s : State) (e : ErrorCode) (w : CmdWord) : (raise e w s).nnodes = s.nnodes := rfl
@[simp] theorem raise_root (s : State) (e : ErrorCode) (w : CmdWord) : (raise e w s).root = s.root := rfl
@[simp] theorem raise_hlen (s : State) (e : ErrorCode) (w : CmdWord) : (raise e w s).hlen = s.hlen := rfl
@[simp] theorem raise_hfill (s : State) (e : ErrorCode) (w : CmdWord) : (raise e w s).hfill = s.hfill := rfl
@[simp] theorem raise_cur (s : State) (e : ErrorCode) (w : CmdWord) : (raise e w s).cur = s.cur := rfl
@[simp] theorem raise_freq (s : State) (e : ErrorCode) (w : CmdWord) : (raise e w s).freq = s.freq := rfl
@[simp] theorem raise_node (s : State) (e : ErrorCode) (w : CmdWord) : (raise e w s).node = s.node := rfl
@[simp] theorem raise_cb (s : State) (e : ErrorCode) (w : CmdWord) : (raise e w s).cb = s.cb := rfl
@[simp] theorem raise_hdr (s : State) (e : ErrorCode) (w : CmdWord) : (raise e w s).hdr = s.hdr := rfl
@[simp] theorem raise_obits (s : State) (e : ErrorCode) (w : CmdWord) : (raise e w s).obits = s.obits := rfl
@[simp] theorem raise_obytes (s : State) (e : ErrorCode) (w : CmdWord) : (raise e w s).obytes = s.obytes := rfl
@[simp] theorem raise_port (s : State) (e : ErrorCode) (w : CmdWord) : (raise e w s).port = s.port := rfl

@[simp] theorem resetBlock_result (s : State) : (resetBlock s).result = 0 := rfl
@[simp] theorem resetBlock_fault (s : State) : (resetBlock s).fault = 0 := rfl
@[simp] theorem resetBlock_finfo (s : State) : (resetBlock s).finfo = 0 := rfl
@[simp] theorem resetBlock_treeValid (s : State) : (resetBlock s).treeValid = false := rfl
@[simp] theorem resetBlock_cbValid (s : State) : (resetBlock s).cbValid = false := rfl
@[simp] theorem resetBlock_hdrValid (s : State) : (resetBlock s).hdrValid = false := rfl
@[simp] theorem resetBlock_decActive (s : State) : (resetBlock s).decActive = false := rfl
@[simp] theorem resetBlock_decHalt (s : State) : (resetBlock s).decHalt = false := rfl
@[simp] theorem resetBlock_decPartial (s : State) : (resetBlock s).decPartial = false := rfl
@[simp] theorem resetBlock_nnodes (s : State) : (resetBlock s).nnodes = 0 := rfl
@[simp] theorem resetBlock_root (s : State) : (resetBlock s).root = 0 := rfl
@[simp] theorem resetBlock_hlen (s : State) : (resetBlock s).hlen = 0 := rfl
@[simp] theorem resetBlock_hfill (s : State) : (resetBlock s).hfill = 0 := rfl
@[simp] theorem resetBlock_cur (s : State) : (resetBlock s).cur = 0 := rfl
@[simp] theorem resetBlock_freq (s : State) : (resetBlock s).freq = [] := rfl
@[simp] theorem resetBlock_node (s : State) : (resetBlock s).node = [] := rfl
@[simp] theorem resetBlock_cb (s : State) : (resetBlock s).cb = [] := rfl
@[simp] theorem resetBlock_hdr (s : State) : (resetBlock s).hdr = [] := rfl
@[simp] theorem resetBlock_obits (s : State) : (resetBlock s).obits = [] := rfl
@[simp] theorem resetBlock_obytes (s : State) : (resetBlock s).obytes = [] := rfl
@[simp] theorem resetBlock_port (s : State) : (resetBlock s).port = s.port := rfl

@[simp] theorem State.reset_result : State.reset.result = 0 := rfl
@[simp] theorem State.reset_fault : State.reset.fault = 0 := rfl
@[simp] theorem State.reset_finfo : State.reset.finfo = 0 := rfl
@[simp] theorem State.reset_treeValid : State.reset.treeValid = false := rfl
@[simp] theorem State.reset_cbValid : State.reset.cbValid = false := rfl
@[simp] theorem State.reset_hdrValid : State.reset.hdrValid = false := rfl
@[simp] theorem State.reset_decActive : State.reset.decActive = false := rfl
@[simp] theorem State.reset_decHalt : State.reset.decHalt = false := rfl
@[simp] theorem State.reset_decPartial : State.reset.decPartial = false := rfl
@[simp] theorem State.reset_nnodes : State.reset.nnodes = 0 := rfl
@[simp] theorem State.reset_root : State.reset.root = 0 := rfl
@[simp] theorem State.reset_hlen : State.reset.hlen = 0 := rfl
@[simp] theorem State.reset_hfill : State.reset.hfill = 0 := rfl
@[simp] theorem State.reset_cur : State.reset.cur = 0 := rfl
@[simp] theorem State.reset_freq : State.reset.freq = [] := rfl
@[simp] theorem State.reset_node : State.reset.node = [] := rfl
@[simp] theorem State.reset_cb : State.reset.cb = [] := rfl
@[simp] theorem State.reset_hdr : State.reset.hdr = [] := rfl
@[simp] theorem State.reset_obits : State.reset.obits = [] := rfl
@[simp] theorem State.reset_obytes : State.reset.obytes = [] := rfl
@[simp] theorem State.reset_port : State.reset.port = [] := rfl

end Sys2Proof.Machine
end

