-- ==== Sys2Proof/Laws/Memory.lean ====
section
/-! SUPPORT. The memories: reading after a write, the canonical form and that every memory operation keeps it, and
that memories in canonical form are equal when they read the same. -/

namespace Sys2Proof.Machine

variable {α : Type}

/-! ### Reading after a write -/

@[simp] theorem memRead_nil (k : Nat) : memRead ([] : Memory α) k = none := rfl

theorem memRead_cons (j : Nat) (v : α) (m : Memory α) (k : Nat) :
    memRead ((j, v) :: m) k = if k = j then some v else memRead m k := rfl

theorem memRead_memWrite (m : Memory α) (k : Nat) (v : α) (i : Nat) :
    memRead (memWrite m k v) i = if i = k then some v else memRead m i := by
  induction m with
  | nil => simp [memWrite, memRead]
  | cons e m ih =>
    obtain ⟨j, w⟩ := e
    simp only [memWrite]
    split
    · simp [memRead_cons]
    · split
      · subst_vars; simp only [memRead_cons]; split <;> rfl
      · simp only [memRead_cons, ih]
        split
        · subst_vars; simp; omega
        · rfl

@[simp] theorem memRead_memWrite_same (m : Memory α) (k : Nat) (v : α) : memRead (memWrite m k v) k = some v := by
  simp [memRead_memWrite]

theorem memRead_memWrite_other (m : Memory α) {k i : Nat} (v : α) (h : i ≠ k) :
    memRead (memWrite m k v) i = memRead m i := by
  simp [memRead_memWrite, h]

theorem memRead_memErase (m : Memory α) (k i : Nat) :
    memRead (memErase m k) i = if i = k then none else memRead m i := by
  induction m with
  | nil => simp [memErase]
  | cons e m ih =>
    obtain ⟨j, w⟩ := e
    unfold memErase at ih ⊢
    by_cases hj : j = k
    · subst hj
      simp only [ne_eq, not_true_eq_false, decide_false, Bool.false_eq_true, not_false_eq_true,
        List.filter_cons_of_neg, ih, memRead_cons]
      split <;> rfl
    · simp only [ne_eq, hj, not_false_eq_true, decide_true, List.filter_cons_of_pos, memRead_cons, ih]
      split
      · subst_vars; simp [hj]
      · rfl

/-- The counter read after a counter is written (R35). -/
theorem freqRead_freqWrite (m : Memory Word32) (k : Nat) (v : Word32) (i : Nat) :
    freqRead (freqWrite m k v) i = if i = k then v else freqRead m i := by
  unfold freqRead freqWrite
  split
  · subst_vars; rw [memRead_memErase]; split <;> rfl
  · rw [memRead_memWrite]; split <;> rfl

@[simp] theorem freqRead_nil (k : Nat) : freqRead [] k = 0 := rfl

theorem memRead_memOfList (vs : List α) (k i : Nat) :
    memRead (memOfList k vs) i = if k ≤ i then vs[i - k]? else none := by
  induction vs generalizing k with
  | nil => simp [memOfList]
  | cons v vs ih =>
    simp only [memOfList, memRead_cons, ih]
    by_cases h : i = k
    · subst h; simp
    · simp only [h, if_false]
      by_cases hk : k ≤ i
      · have : i - k = (i - (k + 1)) + 1 := by omega
        rw [if_pos (by omega), if_pos hk, this, List.getElem?_cons_succ]
      · rw [if_neg (by omega), if_neg hk]

/-! ### The canonical form -/

theorem memRead_some_mem {m : Memory α} {k : Nat} {v : α} (h : memRead m k = some v) : (k, v) ∈ m := by
  induction m with
  | nil => simp at h
  | cons e m ih =>
    obtain ⟨j, w⟩ := e
    rw [memRead_cons] at h
    split at h
    · subst_vars; simp_all
    · exact List.mem_cons_of_mem _ (ih h)

/-- The rising form, as a statement about pairs. -/
theorem Memory.rising_iff (m : Memory α) : Memory.rising m = true ↔ m.Pairwise (fun a b => a.1 < b.1) := by
  induction m with
  | nil => simp [Memory.rising]
  | cons e m ih =>
    obtain ⟨j, v⟩ := e
    cases m with
    | nil => simp [Memory.rising]
    | cons f m =>
      obtain ⟨k, w⟩ := f
      simp only [Memory.rising, Bool.and_eq_true, decide_eq_true_eq, ih]
      constructor
      · rintro ⟨h, hp⟩
        refine List.Pairwise.cons ?_ hp
        intro x hx
        rcases List.mem_cons.mp hx with rfl | hx
        · exact h
        · exact lt_trans h ((List.pairwise_cons.mp hp).1 x hx)
      · intro hp
        exact ⟨(List.pairwise_cons.mp hp).1 (k, w) (by simp), (List.pairwise_cons.mp hp).2⟩

theorem mem_memRead {m : Memory α} (h : Memory.rising m = true) {k : Nat} {v : α} (hm : (k, v) ∈ m) :
    memRead m k = some v := by
  rw [Memory.rising_iff] at h
  induction m with
  | nil => simp at hm
  | cons e m ih =>
    obtain ⟨j, w⟩ := e
    obtain ⟨hj, hp⟩ := List.pairwise_cons.mp h
    rw [memRead_cons]
    rcases List.mem_cons.mp hm with heq | hm
    · simp_all
    · have := hj _ hm
      rw [if_neg (by simp at this; omega)]
      exact ih hp hm

/-- What the canonical form says, read by read. -/
theorem Memory.wf_iff (cap : Nat) (dead : α → Bool) (m : Memory α) :
    Memory.wf cap dead m = true ↔
      Memory.rising m = true ∧ ∀ k v, memRead m k = some v → k < cap ∧ dead v = false := by
  unfold Memory.wf
  simp only [Bool.and_eq_true, List.all_eq_true, Bool.not_eq_true', decide_eq_true_eq]
  constructor
  · rintro ⟨hr, h⟩
    exact ⟨hr, fun k v hk => h _ (memRead_some_mem hk)⟩
  · rintro ⟨hr, h⟩
    exact ⟨hr, fun e he => h e.1 e.2 (mem_memRead hr he)⟩

theorem Memory.rising_nil : Memory.rising ([] : Memory α) = true := rfl

theorem mem_memWrite {m : Memory α} {k : Nat} {v : α} {e : Nat × α} (h : e ∈ memWrite m k v) : e = (k, v) ∨ e ∈ m := by
  induction m with
  | nil => simpa [memWrite] using h
  | cons f m ih =>
    obtain ⟨j, w⟩ := f
    simp only [memWrite] at h
    split at h
    · simpa using h
    · split at h
      · rcases List.mem_cons.mp h with h | h
        · exact .inl h
        · exact .inr (List.mem_cons_of_mem _ h)
      · rcases List.mem_cons.mp h with h | h
        · exact .inr (by simp [h])
        · exact (ih h).imp id (List.mem_cons_of_mem _)

theorem Memory.rising_memWrite {m : Memory α} (h : Memory.rising m = true) (k : Nat) (v : α) :
    Memory.rising (memWrite m k v) = true := by
  rw [Memory.rising_iff] at *
  induction m with
  | nil => simp [memWrite]
  | cons e m ih =>
    obtain ⟨j, w⟩ := e
    obtain ⟨hj, hp⟩ := List.pairwise_cons.mp h
    simp only [memWrite]
    split
    · refine List.Pairwise.cons ?_ h
      intro x hx
      rcases List.mem_cons.mp hx with rfl | hx
      · assumption
      · exact lt_trans (by assumption) (hj x hx)
    · split
      · subst_vars; exact List.Pairwise.cons hj hp
      · refine List.Pairwise.cons ?_ (ih hp)
        intro x hx
        rcases mem_memWrite hx with rfl | hx
        · show j < k; omega
        · exact hj x hx

theorem Memory.rising_memErase {m : Memory α} (h : Memory.rising m = true) (k : Nat) :
    Memory.rising (memErase m k) = true := by
  rw [Memory.rising_iff] at *
  exact h.filter _

theorem Memory.rising_memOfList (vs : List α) (k : Nat) : Memory.rising (memOfList k vs) = true := by
  induction vs generalizing k with
  | nil => rfl
  | cons v vs ih =>
    cases vs with
    | nil => rfl
    | cons w vs => simp only [memOfList, Memory.rising, Bool.and_eq_true, decide_eq_true_eq]; exact ⟨by omega, ih (k + 1)⟩

/-- A write keeps the canonical form, where the index exists and the value is one a listed entry may hold. -/
theorem Memory.wf_memWrite {cap : Nat} {dead : α → Bool} {m : Memory α} (h : Memory.wf cap dead m = true) {k : Nat}
    {v : α} (hk : k < cap) (hv : dead v = false) : Memory.wf cap dead (memWrite m k v) = true := by
  rw [Memory.wf_iff] at *
  refine ⟨Memory.rising_memWrite h.1 k v, fun i w hi => ?_⟩
  rw [memRead_memWrite] at hi
  split at hi
  · cases hi; subst_vars; exact ⟨hk, hv⟩
  · exact h.2 i w hi

theorem Memory.wf_memErase {cap : Nat} {dead : α → Bool} {m : Memory α} (h : Memory.wf cap dead m = true) (k : Nat) :
    Memory.wf cap dead (memErase m k) = true := by
  rw [Memory.wf_iff] at *
  refine ⟨Memory.rising_memErase h.1 k, fun i w hi => ?_⟩
  rw [memRead_memErase] at hi
  split at hi
  · cases hi
  · exact h.2 i w hi

/-- A counter write keeps the canonical form of FREQ, a zero counter included (R35). -/
theorem Memory.wf_freqWrite {m : Memory Word32} (h : Memory.wf Config.nsym (· == 0) m = true) (a : Byte) (v : Word32) :
    Memory.wf Config.nsym (· == 0) (freqWrite m a.toNat v) = true := by
  unfold freqWrite
  split
  · exact Memory.wf_memErase h _
  · exact Memory.wf_memWrite h a.isLt (by simpa using ‹¬ v = 0›)

theorem Memory.wf_memOfList {cap : Nat} {dead : α → Bool} {vs : List α} (hl : vs.length ≤ cap)
    (hd : ∀ v ∈ vs, dead v = false) : Memory.wf cap dead (memOfList 0 vs) = true := by
  rw [Memory.wf_iff]
  refine ⟨Memory.rising_memOfList vs 0, fun k v hk => ?_⟩
  rw [memRead_memOfList] at hk
  simp only [Nat.zero_le, if_true, Nat.sub_zero] at hk
  obtain ⟨hlt, rfl⟩ := List.getElem?_eq_some_iff.mp hk
  exact ⟨by omega, hd _ (List.getElem_mem hlt)⟩

/-- The memories of the state right after reset are in canonical form. -/
theorem State.reset_memoriesWf : State.reset.memoriesWf = true := by decide

/-- Memories in canonical form that read the same are equal. -/
theorem Memory.ext_of_rising {m n : Memory α} (hm : Memory.rising m = true) (hn : Memory.rising n = true)
    (h : ∀ k, memRead m k = memRead n k) : m = n := by
  induction m generalizing n with
  | nil =>
    cases n with
    | nil => rfl
    | cons e n => obtain ⟨k, w⟩ := e; have := h k; simp [memRead_cons] at this
  | cons e m ih =>
    obtain ⟨j, v⟩ := e
    cases n with
    | nil => have := h j; simp [memRead_cons] at this
    | cons f n =>
      obtain ⟨k, w⟩ := f
      have hmj := (List.pairwise_cons.mp ((Memory.rising_iff _).mp hm)).1
      have hnk := (List.pairwise_cons.mp ((Memory.rising_iff _).mp hn)).1
      have hjk : j = k := by
        have h1 := h j
        have h2 := h k
        simp only [memRead_cons, if_true] at h1 h2
        by_contra hne
        rw [if_neg hne] at h1
        rw [if_neg (Ne.symm hne)] at h2
        have a := hnk _ (memRead_some_mem h1.symm)
        have b := hmj _ (memRead_some_mem h2)
        simp at a b; omega
      subst hjk
      have hv : v = w := by have := h j; simpa [memRead_cons] using this
      subst hv
      congr 1
      refine ih ((Memory.rising_iff _).mpr (List.pairwise_cons.mp ((Memory.rising_iff _).mp hm)).2)
        ((Memory.rising_iff _).mpr (List.pairwise_cons.mp ((Memory.rising_iff _).mp hn)).2) fun i => ?_
      have hi := h i
      simp only [memRead_cons] at hi
      by_cases hij : i = j
      · subst hij
        cases hx : memRead m i with
        | some x => have := hmj _ (memRead_some_mem hx); simp at this
        | none =>
          cases hy : memRead n i with
          | some y => have := hnk _ (memRead_some_mem hy); simp at this
          | none => rfl
      · simpa [hij] using hi

/-! ### Reads that a command needs -/

theorem readEntry_ok_iff {sp : Space} {m : Memory α} {k : Nat} {v : α} :
    readEntry sp m k = .ok v ↔ memRead m k = some v := by
  unfold readEntry; cases memRead m k <;> simp

theorem readEntry_of_some {sp : Space} {m : Memory α} {k : Nat} {v : α} (h : memRead m k = some v) :
    readEntry sp m k = .ok v := readEntry_ok_iff.mpr h

/-- A needed read never raises a fault of the block. -/
theorem readEntry_ne_raise {sp : Space} {m : Memory α} {k : Nat} {e : ErrorCode} :
    readEntry sp m k ≠ .error (.raise e) := by
  unfold readEntry; cases memRead m k <;> simp

theorem readAll_ok_iff {sp : Space} {m : Memory α} {ks : List Nat} {vs : List α} :
    readAll sp m ks = .ok vs ↔ ks.map (memRead m) = vs.map some := by
  induction ks generalizing vs with
  | nil => cases vs <;> simp [readAll]
  | cons k ks ih =>
    simp only [readAll, readEntry]
    cases hk : memRead m k with
    | none => cases vs <;> simp [hk]
    | some v =>
      cases hr : readAll sp m ks with
      | error x =>
        simp only [reduceCtorEq, false_iff]
        intro h
        cases vs with
        | nil => simp at h
        | cons w ws =>
          simp only [List.map_cons, List.cons.injEq] at h
          have := ih.mpr h.2
          rw [hr] at this; cases this
      | ok ws =>
        have h := ih.mp hr
        constructor
        · intro e; cases e; simp [hk, h]
        · intro e
          cases vs with
          | nil => simp at e
          | cons x xs =>
            simp only [List.map_cons, List.cons.injEq, hk, Option.some.injEq] at e
            have := ih.mpr e.2
            rw [hr] at this; cases this
            rw [e.1]

theorem readAll_ok_of_isSome {sp : Space} {m : Memory α} {ks : List Nat} (h : ∀ k ∈ ks, (memRead m k).isSome) :
    ∃ vs, readAll sp m ks = .ok vs := by
  induction ks with
  | nil => exact ⟨[], rfl⟩
  | cons k ks ih =>
    obtain ⟨vs, hvs⟩ := ih fun j hj => h j (List.mem_cons_of_mem _ hj)
    obtain ⟨v, hv⟩ := Option.isSome_iff_exists.mp (h k (by simp))
    exact ⟨v :: vs, by simp [readAll, readEntry_of_some hv, hvs]⟩

theorem readAll_length {sp : Space} {m : Memory α} {ks : List Nat} {vs : List α} (h : readAll sp m ks = .ok vs) :
    vs.length = ks.length := by
  have := congrArg List.length (readAll_ok_iff.mp h); simpa using this.symm

end Sys2Proof.Machine
end

