-- ==== Sys2Proof/Laws/Ops.lean ====
section
/-! SUPPORT. What the shared operations of a command can do: the execution frame, the checks, the commit, the ports, and
one inversion lemma for the step. -/

namespace Sys2Proof.Machine

variable {α : Type} {i : Instr} {s t : State} {e : ErrorCode} {k : Host.Outcome State Fault Refusal}

/-! ### The frame -/

theorem running_of_ok (h : s.fault = 0) : running s k = k := if_pos h

theorem running_of_faulted (h : s.fault ≠ 0) : running s k = .next s := if_neg h

/-- The frame answers a next state in two ways: the command is refused, or it runs. -/
theorem running_next (h : running s k = .next t) : (s.fault ≠ 0 ∧ t = s) ∨ (s.fault = 0 ∧ k = .next t) := by
  unfold running at h
  split at h
  · exact .inr ⟨‹_›, h⟩
  · exact .inl ⟨‹_›, by cases h; rfl⟩

theorem check_pass {ok : Prop} [Decidable ok] (h : ok) : check ok e i s k = k := if_pos h

theorem check_fail {ok : Prop} [Decidable ok] (h : ¬ ok) : check ok e i s k = .next (raise e (encode i) s) :=
  if_neg h

/-- A check answers a next state in two ways: it fails and raises its fault, or it passes. -/
theorem check_next {ok : Prop} [Decidable ok] (h : check ok e i s k = .next t) :
    (¬ ok ∧ t = raise e (encode i) s) ∨ (ok ∧ k = .next t) := by
  unfold check at h
  split at h
  · exact .inr ⟨‹_›, h⟩
  · exact .inl ⟨‹_›, by cases h; rfl⟩

@[simp] theorem commit_ok {f : α → State} (v : α) : commit i s (.ok v) f = .next (f v) := rfl

@[simp] theorem commit_raise {f : α → State} : commit i s (.error (.raise e)) f = .next (raise e (encode i) s) := rfl

@[simp] theorem commit_fault {f : α → State} (x : Fault) : commit i s (.error (.fault x)) f = .fault x := rfl

/-- A commit answers a next state in two ways: the local result is written, or the fault met is raised. -/
theorem commit_next {r : Except Stop α} {f : α → State} (h : commit i s r f = .next t) :
    (∃ v, r = .ok v ∧ t = f v) ∨ (∃ e, r = .error (.raise e) ∧ t = raise e (encode i) s) := by
  match r, h with
  | .ok v, h => exact .inl ⟨v, rfl, by cases h; rfl⟩
  | .error (.raise e), h => exact .inr ⟨e, rfl, by cases h; rfl⟩
  | .error (.fault f), h => cases h

/-! ### Fault codes -/

theorem ErrorCode.code_ne_zero (e : ErrorCode) : e.code ≠ 0 := by cases e <;> decide

theorem ErrorCode.code_injective {e f : ErrorCode} (h : e.code = f.code) : e = f := by
  cases e <;> cases f <;> first | rfl | (exact absurd h (by decide))

/-! ### The ports and the step -/

theorem step_idle (h : s.port = []) : step s = .next s := by simp [step, fetch, h]

theorem step_event {ev : PortEvent} {rest : List PortEvent} (h : s.port = ev :: rest) :
    step s = takeEvent ev { s with port := rest } := by simp [step, fetch, h]

theorem step_present (s : State) (w : CmdWord) : step (present s w) = execWord w s := rfl

theorem execWord_of_decode {w : CmdWord} (h : decode w = .ok i) : execWord w s = exec i s := by simp [execWord, h]

theorem execWord_of_illegal {w : CmdWord} {x : DecodeError} (h : decode w = .error x) :
    execWord w s = illegalWord w s := by simp [execWord, h]

/-- What a step can do: idle, a reset, a command, or an illegal word. -/
theorem step_cases (s : State) :
    (s.port = [] ∧ step s = .next s) ∨
    (∃ rest, s.port = .resetInput :: rest ∧ step s = .next (resetBlock { s with port := rest })) ∨
    (∃ w rest i, s.port = .command w :: rest ∧ decode w = .ok i ∧ step s = exec i { s with port := rest }) ∨
    (∃ w rest x, s.port = .command w :: rest ∧ decode w = .error x ∧
      step s = illegalWord w { s with port := rest }) := by
  cases hp : s.port with
  | nil => exact .inl ⟨rfl, step_idle hp⟩
  | cons ev rest =>
    right
    cases ev with
    | resetInput => exact .inl ⟨rest, rfl, step_event hp⟩
    | command w =>
      right
      cases hd : decode w with
      | ok i => exact .inl ⟨w, rest, i, rfl, hd, (step_event hp).trans (execWord_of_decode hd)⟩
      | error x => exact .inr ⟨w, rest, x, rfl, hd, (step_event hp).trans (execWord_of_illegal hd)⟩

end Sys2Proof.Machine
end

