-- ==== Sys2Proof/Laws/Tree.lean ====
section
/-! SUPPORT. The tree a node memory holds: the relation `Rep` between an index, the abstract tree and its pre-order, and
what each traversal of the machine (`preorder`, `treeAt`, `visit`, the reads of SER) computes in terms of it. -/

namespace Sys2Proof.Machine

open Sys2Proof.Safety

/-- The entries from index `i` on are the tree `t`, and `p` is `preorder(i)` (R15). -/
inductive Rep (nodes : Memory Node) : Nat → CodeTree → List Nat → Prop
  | leaf {i : Nat} {e : Node} : memRead nodes i = some e → e.kind = .leaf → Rep nodes i (.leaf e.sym) [i]
  | node {i : Nat} {e : Node} {l r : CodeTree} {p q : List Nat} : memRead nodes i = some e → e.kind = .internal →
      Rep nodes e.left.toNat l p → Rep nodes e.right.toNat r q → Rep nodes i (.node l r) (i :: (p ++ q))

variable {nodes : Memory Node} {i : Nat} {t : CodeTree} {p : List Nat} {c : Config}

theorem Rep.length (h : Rep nodes i t p) : p.length = t.size := by
  induction h with
  | leaf => rfl
  | node _ _ _ _ ihl ihr => simp [CodeTree.size, ihl, ihr]; omega

theorem Rep.root_mem (h : Rep nodes i t p) : i ∈ p := by cases h <;> simp

theorem Rep.written (h : Rep nodes i t p) : ∀ k ∈ p, (memRead nodes k).isSome := by
  induction h with
  | leaf h _ => simp [h]
  | node h _ _ _ ihl ihr =>
    intro k hk
    simp only [List.mem_cons, List.mem_append] at hk
    rcases hk with rfl | hk | hk
    · simp [h]
    · exact ihl k hk
    · exact ihr k hk

/-- Another memory that reads the same on the tree's entries holds the same tree. -/
theorem Rep.congr {nodes' : Memory Node} (h : Rep nodes i t p) (hk : ∀ k ∈ p, memRead nodes' k = memRead nodes k) :
    Rep nodes' i t p := by
  induction h with
  | leaf h hl => exact .leaf ((hk _ (by simp)).trans h) hl
  | node h hi _ _ ihl ihr =>
    exact .node ((hk _ (by simp)).trans h) hi (ihl fun k m => hk k (by simp [m])) (ihr fun k m => hk k (by simp [m]))

/-- An index stands for one tree with one pre-order. -/
theorem Rep.unique {t' : CodeTree} {p' : List Nat} (h : Rep nodes i t p) (h' : Rep nodes i t' p') : t = t' ∧ p = p' := by
  induction h generalizing t' p' with
  | leaf h hl =>
    cases h' with
    | leaf h₂ _ => rw [h] at h₂; cases h₂; exact ⟨rfl, rfl⟩
    | node h₂ hi _ _ => rw [h] at h₂; cases h₂; rw [hl] at hi; cases hi
  | node h hi _ _ ihl ihr =>
    cases h' with
    | leaf h₂ hl => rw [h] at h₂; cases h₂; rw [hi] at hl; cases hl
    | node h₂ _ hl₂ hr₂ =>
      rw [h] at h₂; cases h₂
      obtain ⟨rfl, rfl⟩ := ihl hl₂
      obtain ⟨rfl, rfl⟩ := ihr hr₂
      exact ⟨rfl, rfl⟩

/-- A tree of `n` nodes has at most `n / 2` levels below its root: every internal node has two children (R7). -/
theorem two_mul_depth_lt_size (t : CodeTree) : 2 * t.depth + 1 ≤ t.size := by
  induction t with
  | leaf => simp [CodeTree.depth, CodeTree.size]
  | node l r ihl ihr => simp only [CodeTree.depth, CodeTree.size]; omega

theorem CodeTree.size_pos (t : CodeTree) : 1 ≤ t.size := by cases t <;> simp [CodeTree.size]; omega

theorem CodeTree.size_eq_symbols (t : CodeTree) : t.size + 1 = 2 * t.symbols.length := by
  induction t with
  | leaf => rfl
  | node l r ihl ihr => simp only [CodeTree.size, CodeTree.symbols, List.length_append]; omega

/-! ### What the traversals compute -/

theorem Rep.preorder_eq (h : Rep nodes i t p) {fuel : Nat} (hf : t.depth < fuel) : preorder nodes fuel i = .ok p := by
  induction h generalizing fuel with
  | leaf h hl =>
    obtain ⟨f, rfl⟩ : ∃ f, fuel = f + 1 := ⟨fuel - 1, by omega⟩
    simp [preorder, readEntry_of_some h, hl]
  | node h hi _ _ ihl ihr =>
    obtain ⟨f, rfl⟩ : ∃ f, fuel = f + 1 := ⟨fuel - 1, by omega⟩
    simp only [CodeTree.depth] at hf
    simp [preorder, readEntry_of_some h, hi, ihl (fuel := f) (by omega), ihr (fuel := f) (by omega)]

theorem Rep.treeAt_eq (h : Rep nodes i t p) {fuel : Nat} (hf : t.depth < fuel) : treeAt nodes fuel i = some t := by
  induction h generalizing fuel with
  | leaf h hl =>
    obtain ⟨f, rfl⟩ : ∃ f, fuel = f + 1 := ⟨fuel - 1, by omega⟩
    simp [treeAt, h, hl]
  | node h hi _ _ ihl ihr =>
    obtain ⟨f, rfl⟩ : ∃ f, fuel = f + 1 := ⟨fuel - 1, by omega⟩
    simp only [CodeTree.depth] at hf
    simp [treeAt, h, hi, ihl (fuel := f) (by omega), ihr (fuel := f) (by omega)]

theorem rep_of_preorder {fuel : Nat} (h : preorder nodes fuel i = .ok p) : ∃ t, Rep nodes i t p ∧ t.depth < fuel := by
  induction fuel generalizing i p with
  | zero => simp [preorder] at h
  | succ f ih =>
    simp only [preorder] at h
    cases he : readEntry .node nodes i with
    | error x => simp [he] at h
    | ok e =>
      have hm := readEntry_ok_iff.mp he
      cases hk : e.kind with
      | leaf =>
        simp only [he, hk, Except.ok.injEq] at h
        subst h
        exact ⟨_, .leaf hm hk, by simp [CodeTree.depth]⟩
      | internal =>
        simp only [he, hk] at h
        cases hl : preorder nodes f e.left.toNat with
        | error x => simp [hl] at h
        | ok l =>
          cases hr : preorder nodes f e.right.toNat with
          | error x => simp [hl, hr] at h
          | ok r =>
            simp only [hl, hr, Except.ok.injEq] at h
            subst h
            obtain ⟨tl, rl, dl⟩ := ih hl
            obtain ⟨tr, rr, dr⟩ := ih hr
            exact ⟨_, .node hm hk rl rr, by simp only [CodeTree.depth]; omega⟩

theorem rep_of_treeAt {fuel : Nat} (h : treeAt nodes fuel i = some t) : ∃ p, Rep nodes i t p ∧ t.depth < fuel := by
  induction fuel generalizing i t with
  | zero => simp [treeAt] at h
  | succ f ih =>
    simp only [treeAt] at h
    cases hm : memRead nodes i with
    | none => simp [hm] at h
    | some e =>
      cases hk : e.kind with
      | leaf =>
        simp only [hm, hk, Option.some.injEq] at h
        subst h
        exact ⟨_, .leaf hm hk, by simp [CodeTree.depth]⟩
      | internal =>
        simp only [hm, hk] at h
        cases hl : treeAt nodes f e.left.toNat with
        | none => simp [hl] at h
        | some l =>
          cases hr : treeAt nodes f e.right.toNat with
          | none => simp [hl, hr] at h
          | some r =>
            simp only [hl, hr, Option.some.injEq] at h
            subst h
            obtain ⟨pl, rl, dl⟩ := ih hl
            obtain ⟨pr, rr, dr⟩ := ih hr
            exact ⟨_, .node hm hk rl rr, by simp only [CodeTree.depth]; omega⟩

/-- The reads of SER (R171): the entries in pre-order give the header bytes of the tree, and a leaf carries `SENTINEL`
exactly when the tree has that symbol. -/
theorem Rep.readAll_eq (h : Rep nodes i t p) (c : Config) :
    ∃ es : List Node, p.map (memRead nodes) = es.map some ∧ es.map (headerByte c) = t.ser c ∧
      es.any (sentinelLeaf c) = decide (c.sentinel ∈ t.symbols) := by
  induction h with
  | @leaf i e h hl =>
    refine ⟨[e], by simp [h], by simp [headerByte, hl, CodeTree.ser], ?_⟩
    simp only [List.any_cons, List.any_nil, Bool.or_false, sentinelLeaf, hl, CodeTree.symbols, List.mem_singleton]
    rw [Bool.eq_iff_iff]; simp only [BEq.rfl, Bool.true_and, beq_iff_eq, decide_eq_true_eq]; exact eq_comm
  | @node i e l r p q h hi _ _ ihl ihr =>
    obtain ⟨el, ml, sl, al⟩ := ihl
    obtain ⟨er, mr, sr, ar⟩ := ihr
    refine ⟨e :: (el ++ er), by simp [h, ml, mr], by simp [headerByte, hi, CodeTree.ser, sl, sr], ?_⟩
    simp only [List.any_cons, List.any_append, al, ar, sentinelLeaf, hi, CodeTree.symbols, List.mem_append]
    rw [Bool.eq_iff_iff]; simp

/-! ### The codes of a tree -/

theorem CodeTree.codes_symbols (t : CodeTree) : t.codes.map (·.1) = t.symbols := by
  induction t with
  | leaf => rfl
  | node l r ihl ihr => simp [CodeTree.codes, CodeTree.symbols, ← ihl, ← ihr, Function.comp_def]

theorem CodeTree.codes_length_le (t : CodeTree) : ∀ e ∈ t.codes, e.2.length ≤ t.depth := by
  induction t with
  | leaf => simp [CodeTree.codes]
  | node l r ihl ihr =>
    intro e he
    simp only [CodeTree.codes, List.mem_append, List.mem_map] at he
    rcases he with ⟨f, hf, rfl⟩ | ⟨f, hf, rfl⟩
    · have := ihl f hf; simp only [List.length_cons, CodeTree.depth]; omega
    · have := ihr f hf; simp only [List.length_cons, CodeTree.depth]; omega

/-- The code of a leaf of an internal root is not empty (R147). -/
theorem CodeTree.codes_ne_nil (l r : CodeTree) : ∀ e ∈ (CodeTree.node l r).codes, e.2 ≠ [] := by
  intro e he
  simp only [CodeTree.codes, List.mem_append, List.mem_map] at he
  rcases he with ⟨f, _, rfl⟩ | ⟨f, _, rfl⟩ <;> simp

/-- The codes of a tree are prefix-free (R104, R161): a code that begins another is that code, of the same leaf. -/
theorem CodeTree.codes_prefix (t : CodeTree) : ∀ e ∈ t.codes, ∀ f ∈ t.codes, e.2 <+: f.2 → e = f := by
  induction t with
  | leaf v => intro e he f hf _; simp [CodeTree.codes] at he hf; subst he hf; rfl
  | node l r ihl ihr =>
    intro e he f hf hp
    simp only [CodeTree.codes, List.mem_append, List.mem_map] at he hf
    rcases he with ⟨e', he', rfl⟩ | ⟨e', he', rfl⟩ <;> rcases hf with ⟨f', hf', rfl⟩ | ⟨f', hf', rfl⟩
    · rw [ihl e' he' f' hf' (by simpa [List.cons_prefix_cons] using hp)]
    · simp [List.cons_prefix_cons] at hp
    · simp [List.cons_prefix_cons] at hp
    · rw [ihr e' he' f' hf' (by simpa [List.cons_prefix_cons] using hp)]

end Sys2Proof.Machine
end

