-- ==== Sys2Proof/Laws/Build.lean ====
section
/-! SUPPORT. BUILD in terms of the abstract tree: the leaves it places, the forest the merge loop keeps, and what the
finished tree is. -/

namespace Sys2Proof.Machine

open Sys2Proof.Safety

/-! ### Placing the leaves -/

/-- The leaf of a symbol (R141). -/
def leafOf (freq : Memory Word32) (s : Nat) : Node := leafNode (BitVec.ofNat 8 s) ((freqRead freq s).setWidth 40)

theorem memWrite_memOfList {α : Type} (vs : List α) (k : Nat) (v : α) :
    memWrite (memOfList k vs) (k + vs.length) v = memOfList k (vs ++ [v]) := by
  induction vs generalizing k with
  | nil => simp [memOfList, memWrite]
  | cons w vs ih =>
    have h := ih (k + 1)
    rw [show k + 1 + vs.length = k + (w :: vs).length by simp; omega] at h
    simp only [memOfList, List.cons_append, memWrite]
    rw [if_neg (by simp), if_neg (by simp), h]

theorem placeLeaves_fold (freq : Memory Word32) (l : List Nat) (vs : List Node) :
    l.foldl (placeLeaf freq) (memOfList 0 vs, vs.length) =
      (memOfList 0 (vs ++ (l.filter fun s => decide (freqRead freq s ≠ 0)).map (leafOf freq)),
        (vs ++ (l.filter fun s => decide (freqRead freq s ≠ 0)).map (leafOf freq)).length) := by
  induction l generalizing vs with
  | nil => simp
  | cons s l ih =>
    rw [List.foldl_cons]
    by_cases h : freqRead freq s = 0#32
    · have hp : placeLeaf freq (memOfList 0 vs, vs.length) s = (memOfList 0 vs, vs.length) := by simp [placeLeaf, h]
      rw [hp, ih]
      simp [h]
    · have hp : placeLeaf freq (memOfList 0 vs, vs.length) s =
          (memOfList 0 (vs ++ [leafOf freq s]), (vs ++ [leafOf freq s]).length) := by
        have hw := memWrite_memOfList vs 0 (leafOf freq s)
        rw [Nat.zero_add] at hw
        rw [placeLeaf, if_pos (show freqRead freq s ≠ 0 from h)]
        exact Prod.ext hw (by simp)
      rw [hp, ih]
      simp [h]

/-- place_leaves (R141): the leaves of the present symbols, in symbol order, from index 0. -/
theorem placeLeaves_eq (freq : Memory Word32) :
    placeLeaves freq = (memOfList 0 ((presentSymbols freq).map (leafOf freq)), (presentSymbols freq).length) := by
  have h := placeLeaves_fold freq (List.range Config.nsym) []
  simpa [placeLeaves, memOfList, presentSymbols] using h

theorem presentSymbols_lt {freq : Memory Word32} {s : Nat} (h : s ∈ presentSymbols freq) : s < 256 :=
  List.mem_range.mp (List.mem_filter.mp h).1

theorem presentSymbols_nodup (freq : Memory Word32) : (presentSymbols freq).Nodup := List.nodup_range.filter _

theorem presentSymbols_length_le (freq : Memory Word32) : (presentSymbols freq).length ≤ 256 :=
  (List.length_filter_le _ _).trans (by simp [Config.nsym])

/-! ### The merge order -/

theorem firstOf_mem (x : ActiveNode) (l : List ActiveNode) : firstOf x l ∈ x :: l := by
  unfold firstOf
  induction l generalizing x with
  | nil => simp
  | cons y l ih =>
    rw [List.foldl_cons]
    rcases List.mem_cons.mp (ih (if y.before x then y else x)) with h | h
    · rw [h]; split <;> simp
    · exact List.mem_cons_of_mem _ (List.mem_cons_of_mem _ h)

/-- Removing the first element of ACTIVE leaves the others. -/
theorem takeFirst_perm {active rest : List ActiveNode} {x : ActiveNode} (h : takeFirst active = some (x, rest)) :
    active.Perm (x :: rest) := by
  cases active with
  | nil => cases h
  | cons y l =>
    simp only [takeFirst, Option.some.injEq, Prod.mk.injEq] at h
    obtain ⟨rfl, rfl⟩ := h
    exact List.perm_cons_erase (firstOf_mem y l)

theorem takeFirst_isSome {active : List ActiveNode} (h : active ≠ []) : ∃ x rest, takeFirst active = some (x, rest) := by
  cases active with
  | nil => exact absurd rfl h
  | cons y l => exact ⟨_, _, rfl⟩

theorem before_iff (x y : ActiveNode) :
    x.before y = true ↔ x.weight.toNat < y.weight.toNat ∨ (x.weight = y.weight ∧ x.index < y.index) := by
  simp [ActiveNode.before, BitVec.lt_def]

/-- The first element is before every other one, in the order of R142. -/
theorem firstOf_first (x : ActiveNode) (l : List ActiveNode) : ∀ y ∈ x :: l, ¬ y.before (firstOf x l) = true := by
  have trans : ∀ a b c : ActiveNode, ¬ a.before b = true → ¬ b.before c = true → ¬ a.before c = true := by
    intro a b c h1 h2
    simp only [before_iff, not_or, not_and, not_lt] at *
    constructor
    · omega
    · intro h
      have hw := congrArg BitVec.toNat h
      have e1 : a.weight = b.weight := BitVec.eq_of_toNat_eq (by omega)
      have e2 : b.weight = c.weight := BitVec.eq_of_toNat_eq (by omega)
      have := h1.2 e1; have := h2.2 e2; omega
  have irrefl : ∀ a : ActiveNode, ¬ a.before a = true := by intro a; simp [before_iff]
  have asymm : ∀ a b : ActiveNode, a.before b = true → ¬ b.before a = true := by
    intro a b h
    simp only [before_iff, not_or, not_and, not_lt] at *
    rcases h with h | ⟨h, h'⟩
    · exact ⟨by omega, fun e => absurd (congrArg BitVec.toNat e) (by omega)⟩
    · exact ⟨by rw [h], fun _ => by omega⟩
  unfold firstOf
  induction l generalizing x with
  | nil => intro y hy; simp only [List.mem_singleton] at hy; subst hy; exact irrefl _
  | cons z l ih =>
    intro y hy
    rw [List.foldl_cons]
    have h := ih (if z.before x then z else x)
    have hz : ¬ z.before (if z.before x then z else x) = true := by
      split
      · exact irrefl _
      · assumption
    have hx : ¬ x.before (if z.before x then z else x) = true := by
      split
      · exact asymm _ _ ‹_›
      · exact irrefl _
    rcases List.mem_cons.mp hy with rfl | hy
    · exact trans _ _ _ hx (h _ (by simp))
    · rcases List.mem_cons.mp hy with rfl | hy
      · exact trans _ _ _ hz (h _ (by simp))
      · exact h y (List.mem_cons_of_mem _ hy)

/-! ### The merge loop -/

/-- What BUILD writes in entry `i` (R36, R37): unused fields 0, children before their parent and different, an internal
weight the sum of its children's. -/
def BuiltNode (nodes : Memory Node) (i : Nat) (e : Node) : Prop :=
  (e.kind = .leaf → e.left = 0 ∧ e.right = 0) ∧
    (e.kind = .internal → e.sym = 0 ∧ e.left.toNat < i ∧ e.right.toNat < i ∧ e.left ≠ e.right ∧
      ∃ l r, memRead nodes e.left.toNat = some l ∧ memRead nodes e.right.toNat = some r ∧
        e.weight.toNat = l.weight.toNat + r.weight.toNat)

/-- What the merge loop keeps: entries 0 to `n − 1` are written, the elements of ACTIVE are the roots of trees that
share no entry and together use them all, their weights add up to `total`, and their leaves carry `syms`. -/
structure Forest (nodes : Memory Node) (active : List ActiveNode) (n total : Nat) (syms : List Byte) : Prop where
  entries : ∃ vs, nodes = memOfList 0 vs ∧ vs.length = n
  sound : ∀ i e, memRead nodes i = some e → BuiltNode nodes i e
  trees : ∃ G : List (ActiveNode × CodeTree × List Nat), (G.map (·.1)).Perm active ∧
    (∀ g ∈ G, Rep nodes g.1.index g.2.1 g.2.2 ∧ ∃ e, memRead nodes g.1.index = some e ∧ e.weight = g.1.weight) ∧
    (G.flatMap (·.2.2)).Perm (List.range n) ∧ (G.flatMap (·.2.1.symbols)).Perm syms
  sum : (active.map (·.weight.toNat)).sum = total

theorem exists_of_map_perm_cons {α β : Type} {f : α → β} {G : List α} {x : β} {rest : List β}
    (h : (G.map f).Perm (x :: rest)) : ∃ g G', G.Perm (g :: G') ∧ f g = x ∧ (G'.map f).Perm rest := by
  obtain ⟨g, hg, rfl⟩ := List.mem_map.mp (h.mem_iff.mpr (List.mem_cons_self ..))
  obtain ⟨A, B, rfl⟩ := List.append_of_mem hg
  refine ⟨g, A ++ B, List.perm_middle, rfl, ?_⟩
  have h' : ((g :: (A ++ B)).map f).Perm (f g :: rest) := (List.perm_middle.symm.map f).trans h
  exact (List.perm_cons (f g)).mp (by simpa using h')

theorem memRead_memOfList_zero {α : Type} (vs : List α) (k : Nat) : memRead (memOfList 0 vs) k = vs[k]? := by
  simp [memRead_memOfList]

/-- One merge keeps the forest (R143). -/
theorem Forest.merge {nodes : Memory Node} {active rest others : List ActiveNode} {x y : ActiveNode} {n total : Nat}
    {syms : List Byte} (h : Forest nodes active n total syms) (hx : active.Perm (x :: rest)) (hy : rest.Perm (y :: others))
    (hn : n < 511) (ht : total < 2 ^ 40) :
    Forest (memWrite nodes n (internalNode x.index y.index (x.weight + y.weight))) (⟨x.weight + y.weight, n⟩ :: others)
      (n + 1) total syms := by
  obtain ⟨⟨vs, rfl, hvs⟩, sound, ⟨G, hG, hrep, hperm, hsym⟩, hsum⟩ := h
  obtain ⟨gx, G1, hG1, hgx, hr1⟩ := exists_of_map_perm_cons (hG.trans hx)
  obtain ⟨gy, G2, hG2, hgy, hr2⟩ := exists_of_map_perm_cons (hr1.trans hy)
  have hGG : G.Perm (gx :: gy :: G2) := hG1.trans (hG2.cons gx)
  obtain ⟨repx, ex, hex, wx⟩ := hrep gx (hGG.mem_iff.mpr (by simp))
  obtain ⟨repy, ey, hey, wy⟩ := hrep gy (hGG.mem_iff.mpr (by simp))
  rw [hgx] at repx hex wx
  rw [hgy] at repy hey wy
  have hpre : (gx.2.2 ++ (gy.2.2 ++ G2.flatMap (·.2.2))).Perm (List.range n) := by
    have := (hGG.flatMap_right (·.2.2)).symm.trans hperm
    simpa using this
  have hnd : (gx.2.2 ++ (gy.2.2 ++ G2.flatMap (·.2.2))).Nodup := hpre.nodup_iff.mpr List.nodup_range
  have lt_of_mem : ∀ k, k ∈ gx.2.2 ++ (gy.2.2 ++ G2.flatMap (·.2.2)) → k < n := fun k hk =>
    List.mem_range.mp (hpre.mem_iff.mp hk)
  have hxn : x.index < n := lt_of_mem _ (by simp [repx.root_mem])
  have hyn : y.index < n := lt_of_mem _ (by simp [repy.root_mem])
  have hxy : x.index ≠ y.index := by
    intro heq
    have hd := (List.nodup_append.mp hnd).2.2
    exact hd _ repx.root_mem _ (by simp [heq ▸ repy.root_mem]) rfl
  have hsum' : x.weight.toNat + y.weight.toNat + (others.map (·.weight.toNat)).sum = total := by
    have e1 := (hx.map (·.weight.toNat)).sum_eq
    have e2 := (hy.map (·.weight.toNat)).sum_eq
    simp only [List.map_cons, List.sum_cons] at e1 e2
    omega
  have hw : (x.weight + y.weight).toNat = x.weight.toNat + y.weight.toNat := by
    rw [BitVec.toNat_add, Nat.mod_eq_of_lt (by omega)]
  have hix : (BitVec.ofNat 9 x.index).toNat = x.index := by simp; omega
  have hiy : (BitVec.ofNat 9 y.index).toNat = y.index := by simp; omega
  have hold : ∀ k, k < n → ∀ v, memRead (memWrite (memOfList 0 vs) n v) k = memRead (memOfList 0 vs) k :=
    fun k hk v => memRead_memWrite_other _ _ (by omega)
  refine ⟨⟨vs ++ [internalNode x.index y.index (x.weight + y.weight)], ?_, by simp [hvs]⟩, ?_, ?_, ?_⟩
  · have := memWrite_memOfList vs 0 (internalNode x.index y.index (x.weight + y.weight))
    rw [Nat.zero_add, hvs] at this; exact this
  · intro i e he
    rw [memRead_memWrite] at he
    split at he
    · subst_vars
      cases he
      refine ⟨(fun h => by cases h), fun _ => ⟨rfl, ?_, ?_, ?_, ex, ey, ?_, ?_, ?_⟩⟩
      · simpa [internalNode, hix] using hxn
      · simpa [internalNode, hiy] using hyn
      · intro heq
        have := congrArg BitVec.toNat heq
        simp only [internalNode, hix, hiy] at this
        exact hxy this
      · simp only [internalNode, hix]; rw [hold _ hxn, hex]
      · simp only [internalNode, hiy]; rw [hold _ hyn, hey]
      · simp only [internalNode, hw, wx, wy]
    · have hlt : i < n := by
        rw [memRead_memOfList_zero] at he
        have := (List.getElem?_eq_some_iff.mp he).1; omega
      obtain ⟨hl, hi⟩ := sound i e he
      refine ⟨hl, fun hk => ?_⟩
      obtain ⟨a, b, c, d, l, r, h1, h2, h3⟩ := hi hk
      exact ⟨a, b, c, d, l, r, by rw [hold _ (by omega), h1], by rw [hold _ (by omega), h2], h3⟩
  · have lift : ∀ {i t p}, Rep (memOfList 0 vs) i t p → (∀ k ∈ p, k < n) → ∀ v,
        Rep (memWrite (memOfList 0 vs) n v) i t p := fun hr hk v => hr.congr fun k hm => hold k (hk k hm) v
    refine ⟨(⟨x.weight + y.weight, n⟩, .node gx.2.1 gy.2.1, n :: (gx.2.2 ++ gy.2.2)) :: G2, ?_, ?_, ?_, ?_⟩
    · exact hr2.cons _
    · intro g hg
      rcases List.mem_cons.mp hg with rfl | hg
      · refine ⟨Rep.node (memRead_memWrite_same _ _ _) rfl ?_ ?_, _, memRead_memWrite_same _ _ _, rfl⟩
        · simp only [internalNode, hix]
          exact lift repx (fun k hk => lt_of_mem k (by simp [hk])) _
        · simp only [internalNode, hiy]
          exact lift repy (fun k hk => lt_of_mem k (by simp [hk])) _
      · obtain ⟨hr, e, he, hwt⟩ := hrep g (hGG.mem_iff.mpr (by simp [hg]))
        have hsub : ∀ k ∈ g.2.2, k < n := fun k hk =>
          lt_of_mem k (by simp only [List.mem_append, List.mem_flatMap]; exact .inr (.inr ⟨g, hg, hk⟩))
        exact ⟨lift hr hsub _, e, by rw [hold _ (hsub _ hr.root_mem), he], hwt⟩
    · simp only [List.flatMap_cons, List.cons_append, List.append_assoc]
      rw [List.range_succ]
      exact (hpre.cons n).trans (List.perm_append_singleton n _).symm
    · simp only [List.flatMap_cons, CodeTree.symbols]
      have := (hGG.flatMap_right (·.2.1.symbols)).symm.trans hsym
      simpa using this
  · simp only [List.map_cons, List.sum_cons, hw]; omega

/-- The merge loop ends with one tree that uses every entry, its root last (R143). -/
theorem mergeLoop_spec {fuel : Nat} {nodes : Memory Node} {active : List ActiveNode} {n total : Nat} {syms : List Byte}
    (h : Forest nodes active n total syms) (ht : total < 2 ^ 40) (hn : n + active.length ≤ 512) (hne : active ≠ [])
    (hf : active.length ≤ fuel + 1) (hlast : ∃ a ∈ active, a.index + 1 = n) :
    (mergeLoop fuel nodes active n).2 + 1 = n + active.length ∧
      ∃ a, Forest (mergeLoop fuel nodes active n).1 [a] (mergeLoop fuel nodes active n).2 total syms ∧
        a.index + 1 = (mergeLoop fuel nodes active n).2 := by
  have single : ∀ a, active = [a] → n + 1 = n + active.length ∧
      ∃ a, Forest nodes [a] n total syms ∧ a.index + 1 = n := by
    rintro a rfl
    obtain ⟨b, hb, hbi⟩ := hlast
    simp only [List.mem_singleton] at hb
    subst hb
    exact ⟨by simp, b, h, hbi⟩
  induction fuel generalizing nodes active n with
  | zero =>
    obtain ⟨a, rfl⟩ : ∃ a, active = [a] := by
      match active, hne, hf with
      | [a], _, _ => exact ⟨a, rfl⟩
      | _ :: _ :: _, _, hf => simp at hf
    exact single a rfl
  | succ f ih =>
    obtain ⟨x, rest, hx⟩ := takeFirst_isSome hne
    have px := takeFirst_perm hx
    have lx := px.length_eq
    simp only [List.length_cons] at lx
    simp only [mergeLoop, hx]
    cases hy : takeFirst rest with
    | none =>
      have : rest = [] := by
        by_contra hr
        obtain ⟨_, _, h'⟩ := takeFirst_isSome hr
        rw [hy] at h'; cases h'
      subst this
      exact single x (List.perm_singleton.mp px)
    | some r =>
      obtain ⟨y, others⟩ := r
      have py := takeFirst_perm hy
      have ly := py.length_eq
      simp only [List.length_cons] at ly
      have hm := h.merge px py (by omega) ht
      have hres := ih (active := ⟨x.weight + y.weight, n⟩ :: others) (n := n + 1) hm
        (by simp only [List.length_cons]; omega) (by simp)
        (by simp only [List.length_cons]; omega) ⟨_, List.mem_cons_self .., rfl⟩ (by
          rintro a ha
          simp only [List.cons.injEq] at ha
          obtain ⟨rfl, rfl⟩ := ha
          exact ⟨by simp, _, hm, rfl⟩)
      refine ⟨?_, hres.2⟩
      have := hres.1
      simp only [List.length_cons] at this
      simp only
      omega

/-! ### The finished tree -/

theorem totalCount_lt (freq : Memory Word32) : totalCount freq < 2 ^ 40 := by
  unfold totalCount
  have key : ∀ l : List Nat, (l.map fun s => (freqRead freq s).toNat).sum ≤ l.length * (2 ^ 32 - 1) := by
    intro l
    induction l with
    | nil => simp
    | cons s l ih =>
      simp only [List.map_cons, List.sum_cons, List.length_cons]
      have := (freqRead freq s).isLt
      omega
  have := key (List.range Config.nsym)
  simp only [List.length_range, Config.nsym] at this ⊢
  omega

theorem totalCount_present (freq : Memory Word32) :
    ((presentSymbols freq).map fun s => (freqRead freq s).toNat).sum = totalCount freq := by
  unfold totalCount presentSymbols
  induction List.range Config.nsym with
  | nil => rfl
  | cons s l ih =>
    simp only [List.map_cons, List.sum_cons, ← ih]
    by_cases h : freqRead freq s = 0#32 <;> simp [h]

theorem leafOf_weight (freq : Memory Word32) (s : Nat) : (leafOf freq s).weight.toNat = (freqRead freq s).toNat := by
  have := (freqRead freq s).isLt
  simp only [leafOf, leafNode, BitVec.toNat_setWidth]
  omega

theorem ofNat8_nodup {l : List Nat} (h : l.Nodup) (hl : ∀ s ∈ l, s < 256) : (l.map (BitVec.ofNat 8)).Nodup := by
  refine (List.nodup_map_iff_inj_on h).mpr fun a ha b hb heq => ?_
  have := congrArg BitVec.toNat heq
  simp only [BitVec.toNat_ofNat, Nat.reducePow] at this
  have := hl a ha; have := hl b hb; omega

theorem builtSymbols_nodup {c : Config} (freq : Memory Word32) : (builtSymbols c freq).Nodup := by
  unfold builtSymbols
  split
  · simp
  · rename_i s _
    simp only [List.nodup_cons, List.mem_singleton, List.not_mem_nil, not_false_eq_true, List.nodup_nil, and_self,
      and_true]
    split
    · rename_i h; rw [h]; exact c.distinct.2.2
    · assumption
  · exact ofNat8_nodup (presentSymbols_nodup freq) fun s hs => presentSymbols_lt hs

/-- What BUILD's local result is (R140, R147): the node memory it writes, the one tree in it with the root last, and
the weight of that root. -/
structure BuiltResult (c : Config) (freq : Memory Word32) (nodes : Memory Node) (n : Nat) : Prop where
  entries : ∃ vs, nodes = memOfList 0 vs ∧ vs.length = n
  size : n = 2 * (builtSymbols c freq).length - 1
  pos : 1 ≤ n
  le : n ≤ Config.nodeMax
  sound : ∀ i e, memRead nodes i = some e → BuiltNode nodes i e
  tree : ∃ t p, Rep nodes (n - 1) t p ∧ p.Perm (List.range n) ∧ t.symbols.Perm (builtSymbols c freq)
  total : ∃ e, memRead nodes (n - 1) = some e ∧ e.weight.toNat = totalCount freq

theorem leaves_forest (freq : Memory Word32) (l : List Nat) :
    ∃ active, activeLeaves (memOfList 0 (l.map (leafOf freq))) = active ∧ active.length = l.length ∧
      (l ≠ [] → ∃ a ∈ active, a.index + 1 = l.length) ∧
      Forest (memOfList 0 (l.map (leafOf freq))) active l.length ((l.map fun s => (freqRead freq s).toNat).sum)
        (l.map (BitVec.ofNat 8)) := by
  have keys : ∀ (l : List Nat) k, activeLeaves (memOfList k (l.map (leafOf freq))) =
      (l.zipIdx k).map fun e => (⟨(leafOf freq e.1).weight, e.2⟩ : ActiveNode) := by
    intro l
    induction l with
    | nil => intro k; rfl
    | cons s l ih =>
      intro k
      have := ih (k + 1)
      simp only [activeLeaves] at this
      simp [activeLeaves, memOfList, this]
  refine ⟨_, rfl, by simp [keys], fun hne => ?_, ?_⟩
  · rw [keys]
    have hpos : 0 < l.length := List.length_pos_of_ne_nil hne
    refine ⟨⟨(leafOf freq l[l.length - 1]).weight, l.length - 1⟩, ?_, by simp; omega⟩
    refine List.mem_map.mpr ⟨(l[l.length - 1], l.length - 1), ?_, rfl⟩
    rw [List.mem_zipIdx_iff_getElem?]
    simp [show l.length - 1 < l.length by omega]
  · have read : ∀ k, memRead (memOfList 0 (l.map (leafOf freq))) k = l[k]?.map (leafOf freq) := by
      intro k; rw [memRead_memOfList_zero, List.getElem?_map]
    refine ⟨⟨_, rfl, by simp⟩, ?_, ?_, ?_⟩
    · intro i e he
      rw [read] at he
      obtain ⟨s, _, rfl⟩ := Option.map_eq_some_iff.mp he
      exact ⟨fun _ => ⟨rfl, rfl⟩, (fun h => by cases h)⟩
    · refine ⟨l.zipIdx.map fun e => (⟨(leafOf freq e.1).weight, e.2⟩, .leaf (BitVec.ofNat 8 e.1), [e.2]), ?_, ?_, ?_, ?_⟩
      · rw [keys]; simp [Function.comp_def]
      · intro g hg
        obtain ⟨e, he, rfl⟩ := List.mem_map.mp hg
        have hr : memRead (memOfList 0 (l.map (leafOf freq))) e.2 = some (leafOf freq e.1) := by
          rw [read, List.mem_zipIdx_iff_getElem?.mp he]; rfl
        exact ⟨Rep.leaf (e := leafOf freq e.1) hr rfl, _, hr, rfl⟩
      · have h2 : ∀ (l : List Nat) k, (l.zipIdx k).flatMap (fun e => [e.2]) = List.range' k l.length := by
          intro l
          induction l with
          | nil => intro k; rfl
          | cons s l ih => intro k; simp [ih, List.range'_succ]
        simp only [List.flatMap_map]
        rw [h2, List.range_eq_range']
      · have h3 : ∀ (l : List Nat) k, (l.zipIdx k).flatMap (fun e => [BitVec.ofNat 8 e.1]) = l.map (BitVec.ofNat 8) := by
          intro l
          induction l with
          | nil => intro k; rfl
          | cons s l ih => intro k; simp [ih]
        simp only [List.flatMap_map, CodeTree.symbols]
        rw [h3]
    · rw [keys]
      have h4 : ∀ (l : List Nat) k, ((l.zipIdx k).map fun e => (leafOf freq e.1).weight.toNat).sum =
          (l.map fun s => (freqRead freq s).toNat).sum := by
        intro l
        induction l with
        | nil => intro k; rfl
        | cons s l ih =>
          intro k
          rw [List.zipIdx_cons, List.map_cons, List.sum_cons, ih, List.map_cons, List.sum_cons, leafOf_weight]
      simp only [List.map_map, Function.comp_def]
      exact h4 l 0

/-- BUILD's local result, for every frequency table. -/
theorem buildTree_spec (c : Config) (freq : Memory Word32) :
    BuiltResult c freq (buildTree c freq).1 (buildTree c freq).2 := by
  have htot := totalCount_present freq
  have hlen := presentSymbols_length_le freq
  have hsyms : ∀ l, presentSymbols freq = l → builtSymbols c freq = match l with
      | [] => [c.padSym]
      | [s] => [BitVec.ofNat 8 s, if BitVec.ofNat 8 s = c.padSym then c.altPadSym else c.padSym]
      | l => l.map (BitVec.ofNat 8) := by rintro l rfl; rfl
  unfold buildTree
  rw [placeLeaves_eq]
  generalize hl : presentSymbols freq = l at *
  have hb := hsyms l rfl
  match l, hb with
  | [], hb =>
    simp only at hb
    simp only [List.map_nil, memOfList, List.length_nil, emptyCase]
    refine ⟨⟨[leafNode c.padSym 0], rfl, rfl⟩, by simp [hb], by simp, by simp [Config.nodeMax], ?_, ?_, ?_⟩
    · intro i e he
      simp only [memRead_cons, memRead_nil] at he
      split at he
      · cases he; exact ⟨fun _ => ⟨rfl, rfl⟩, (fun h => by cases h)⟩
      · cases he
    · exact ⟨_, [0], Rep.leaf (e := leafNode c.padSym 0) rfl rfl, by simp, by simp [hb, leafNode, CodeTree.symbols]⟩
    · exact ⟨leafNode c.padSym 0, rfl, by simpa [leafNode] using htot⟩
  | [s], hb =>
    simp only at hb
    simp only [List.map_cons, List.map_nil, memOfList, List.length_cons, List.length_nil, singleCase]
    have hs : (leafOf freq s).sym = BitVec.ofNat 8 s := rfl
    refine ⟨⟨[leafOf freq s, leafNode _ 0, internalNode 0 1 (leafOf freq s).weight], rfl, rfl⟩, by simp [hb], by simp,
      by simp [Config.nodeMax], ?_, ?_, ?_⟩
    · intro i e he
      simp only [memRead_cons, memRead_nil] at he
      split at he
      · cases he; exact ⟨fun _ => ⟨rfl, rfl⟩, (fun h => by cases h)⟩
      · split at he
        · cases he; exact ⟨fun _ => ⟨rfl, rfl⟩, (fun h => by cases h)⟩
        · split at he
          · obtain rfl := (Option.some.inj he).symm
            have h0 : (internalNode 0 1 (leafOf freq s).weight).left.toNat = 0 := rfl
            have h1 : (internalNode 0 1 (leafOf freq s).weight).right.toNat = 1 := rfl
            have h2 : i = 2 := by omega
            refine ⟨(fun h => by cases h), fun _ => ⟨rfl, by omega, by omega, ?_, leafOf freq s,
              leafNode (if (leafOf freq s).sym = c.padSym then c.altPadSym else c.padSym) 0, ?_, ?_, ?_⟩⟩
            · intro h; rw [h, h1] at h0; cases h0
            · rw [h0]; rfl
            · rw [h1]; rfl
            · simp [internalNode, leafNode]
          · cases he
    · refine ⟨_, [2, 0, 1], Rep.node (e := internalNode 0 1 (leafOf freq s).weight) (p := [0]) (q := [1]) rfl rfl
        (Rep.leaf (e := leafOf freq s) rfl rfl) (Rep.leaf (e := leafNode _ 0) rfl rfl), by decide, ?_⟩
      rw [hb]
      simp [CodeTree.symbols, hs, leafNode]
    · refine ⟨internalNode 0 1 (leafOf freq s).weight, rfl, ?_⟩
      have h1 := leafOf_weight freq s
      simp only [internalNode]
      rw [h1]
      simpa using htot
  | a :: b :: r, hb =>
    simp only at hb
    obtain ⟨active, hact, hlen', hlast, hfor⟩ := leaves_forest freq (a :: b :: r)
    rw [htot] at hfor
    obtain ⟨hn, x, hfin, hx⟩ := mergeLoop_spec (fuel := (a :: b :: r).length) hfor (totalCount_lt freq)
      (by rw [hlen']; omega) (by intro h; rw [h] at hlen'; simp at hlen') (by omega) (hlast (by simp))
    change BuiltResult c freq
      (mergeLoop (a :: b :: r).length (memOfList 0 ((a :: b :: r).map (leafOf freq)))
        (activeLeaves (memOfList 0 ((a :: b :: r).map (leafOf freq)))) (a :: b :: r).length).1
      (mergeLoop (a :: b :: r).length (memOfList 0 ((a :: b :: r).map (leafOf freq)))
        (activeLeaves (memOfList 0 ((a :: b :: r).map (leafOf freq)))) (a :: b :: r).length).2
    rw [hact]
    generalize hres : mergeLoop (a :: b :: r).length (memOfList 0 ((a :: b :: r).map (leafOf freq))) active
      (a :: b :: r).length = res at *
    obtain ⟨nodes, n⟩ := res
    simp only at hn hfin hx ⊢
    obtain ⟨ent, sound, ⟨G, hG, hrep, hperm, hsym⟩, hsum⟩ := hfin
    have hG1 : ∃ g, G = [g] ∧ g.1 = x := by
      have hle := hG.length_eq
      simp only [List.length_map, List.length_cons, List.length_nil] at hle
      obtain ⟨g, rfl⟩ := List.length_eq_one_iff.mp hle
      exact ⟨g, rfl, by simpa using hG⟩
    obtain ⟨g, rfl, rfl⟩ := hG1
    obtain ⟨hr, e, he, hw⟩ := hrep g (by simp)
    simp only [List.flatMap_cons, List.flatMap_nil, List.append_nil] at hperm hsym
    have hidx : g.1.index = n - 1 := by omega
    rw [hidx] at hr he
    rw [hlen'] at hn
    refine ⟨ent, ?_, by omega, by simp only [Config.nodeMax]; simp only [List.length_cons] at *; omega, sound,
      ⟨_, _, hr, hperm, by rw [hb]; exact hsym⟩, ⟨e, he, ?_⟩⟩
    · rw [hb, List.length_map]; simp only [List.length_cons] at *; omega
    · simp only [List.map_cons, List.map_nil, List.sum_cons, List.sum_nil, Nat.add_zero] at hsum
      rw [hw, hsum]

/-- The number of nodes BUILD installs (R140, R143 to R145). -/
theorem buildTree_nodes (c : Config) (freq : Memory Word32) : (buildTree c freq).2 = builtNodes freq := by
  rw [(buildTree_spec c freq).size]
  unfold builtNodes builtSymbols
  generalize presentSymbols freq = l
  match l with
  | [] => rfl
  | [_] => rfl
  | _ :: _ :: _ => simp

end Sys2Proof.Machine
end

