-- ==== Sys2Proof/Laws/Codebook.lean ====
section
/-! SUPPORT. CBGEN in terms of the abstract tree: `visit` inserts the codes of the tree one after the other, which
succeeds exactly when the leaves carry pairwise distinct symbols, and the codebook then reads as the tree's codes. -/

namespace Sys2Proof.Machine

open Sys2Proof.Safety

variable {nodes : Memory Node} {i : Nat} {t : CodeTree} {p : List Nat}

/-- The entry of a symbol without a code (R160). -/
def blankEntry : CbEntry := { valid := false, len := 0, bits := [] }

/-- Insert codes one after the other, as the leaves are met (R160). -/
def insertCodes : List (Byte × List Bool) → Memory CbEntry → Except Stop (Memory CbEntry)
  | [], c => .ok c
  | (s, path) :: rest, c =>
    match readEntry .cb c s.toNat with
    | .error x => .error x
    | .ok old => if old.valid = true then .error (.raise .dupSym) else insertCodes rest (memWrite c s.toNat (codeEntry path))

theorem insertCodes_append (l l' : List (Byte × List Bool)) (c : Memory CbEntry) :
    insertCodes (l ++ l') c = match insertCodes l c with | .error x => .error x | .ok c' => insertCodes l' c' := by
  induction l generalizing c with
  | nil => rfl
  | cons e l ih =>
    obtain ⟨s, path⟩ := e
    simp only [List.cons_append, insertCodes]
    cases readEntry .cb c s.toNat with
    | error x => rfl
    | ok old => by_cases h : old.valid = true <;> simp [h, ih]

/-- `visit` inserts the codes of the tree, each behind the path that leads to it. -/
theorem Rep.visit_eq (h : Rep nodes i t p) {fuel : Nat} (hf : t.depth < fuel) (path : List Bool) (c : Memory CbEntry) :
    visit nodes fuel i path c = insertCodes (t.codes.map fun e => (e.1, path ++ e.2)) c := by
  induction h generalizing fuel path c with
  | @leaf i e h hl =>
    obtain ⟨f, rfl⟩ : ∃ f, fuel = f + 1 := ⟨fuel - 1, by omega⟩
    simp only [visit, readEntry_of_some h, hl, CodeTree.codes, List.map_cons, List.map_nil, List.append_nil, insertCodes]
    all_goals (cases readEntry .cb c e.sym.toNat <;> rfl)
  | @node i e l r p q h hi _ _ ihl ihr =>
    obtain ⟨f, rfl⟩ : ∃ f, fuel = f + 1 := ⟨fuel - 1, by omega⟩
    simp only [CodeTree.depth] at hf
    simp only [visit, readEntry_of_some h, hi, ihl (fuel := f) (by omega), ihr (fuel := f) (by omega), CodeTree.codes,
      List.map_append, List.map_map, insertCodes_append, Function.comp_def, List.append_assoc, List.singleton_append]
    all_goals (cases insertCodes (l.codes.map fun e => (e.1, path ++ false :: e.2)) c <;> rfl)

/-- Every symbol has an entry. -/
def FullCodebook (c : Memory CbEntry) : Prop := ∀ a : Byte, (memRead c a.toNat).isSome

theorem FullCodebook.memWrite {c : Memory CbEntry} (h : FullCodebook c) (s : Byte) (e : CbEntry) :
    FullCodebook (memWrite c s.toNat e) := by
  intro a
  rw [memRead_memWrite]
  split
  · rfl
  · exact h a

/-- What inserting codes gives: their entries, and every other entry as before. -/
theorem insertCodes_reads {l : List (Byte × List Bool)} {c c' : Memory CbEntry} (h : insertCodes l c = .ok c') :
    (l.map (·.1)).Nodup ∧ (∀ e ∈ l, memRead c' e.1.toNat = some (codeEntry e.2)) ∧
      (∀ k, (∀ s ∈ l.map (·.1), k ≠ s.toNat) → memRead c' k = memRead c k) ∧
      (∀ s ∈ l.map (·.1), ∃ old, memRead c s.toNat = some old ∧ old.valid = false) := by
  induction l generalizing c with
  | nil => simp only [insertCodes, Except.ok.injEq] at h; subst h; simp
  | cons e l ih =>
    obtain ⟨s, path⟩ := e
    simp only [insertCodes] at h
    cases hr : readEntry .cb c s.toNat with
    | error x => simp [hr] at h
    | ok old =>
      simp only [hr] at h
      split at h
      · cases h
      · rename_i hv
        obtain ⟨hn, hw, ho, hb⟩ := ih h
        have hs : s ∉ l.map (·.1) := by
          intro hm
          obtain ⟨old', h1, h2⟩ := hb s hm
          rw [memRead_memWrite_same] at h1
          cases h1; simp [codeEntry] at h2
        refine ⟨by simpa using ⟨by simpa using hs, hn⟩, ?_, ?_, ?_⟩
        · intro e he
          rcases List.mem_cons.mp he with rfl | he
          · have hk := ho s.toNat fun s' hs' heq => hs (BitVec.eq_of_toNat_eq heq ▸ hs')
            simpa using hk
          · exact hw e he
        · intro k hk
          rw [ho k fun s' hs' => hk s' (by simp only [List.map_cons, List.mem_cons]; exact .inr hs'),
            memRead_memWrite_other _ _ (hk s (by simp))]
        · intro s' hs'
          simp only [List.map_cons, List.mem_cons] at hs'
          rcases hs' with rfl | hs'
          · exact ⟨old, readEntry_ok_iff.mp hr, by simpa using hv⟩
          · obtain ⟨old', h1, h2⟩ := hb s' hs'
            have hne : s'.toNat ≠ s.toNat := fun heq => hs (BitVec.eq_of_toNat_eq heq ▸ hs')
            exact ⟨old', by rwa [memRead_memWrite_other _ _ hne] at h1, h2⟩

/-- Inserting codes into a full codebook succeeds or raises E_DUP_SYM; the model never stops there. -/
theorem insertCodes_full {l : List (Byte × List Bool)} {c : Memory CbEntry} (hc : FullCodebook c) :
    (∃ c', insertCodes l c = .ok c') ∨
      (insertCodes l c = .error (.raise .dupSym) ∧
        (¬ (l.map (·.1)).Nodup ∨ ∃ s ∈ l.map (·.1), ∃ old, memRead c s.toNat = some old ∧ old.valid = true)) := by
  induction l generalizing c with
  | nil => exact .inl ⟨c, rfl⟩
  | cons e l ih =>
    obtain ⟨s, path⟩ := e
    obtain ⟨old, ho⟩ := Option.isSome_iff_exists.mp (hc s)
    simp only [insertCodes, readEntry_of_some ho]
    by_cases hv : old.valid = true
    · exact .inr ⟨by simp [hv], .inr ⟨s, by simp, old, ho, hv⟩⟩
    · simp only [hv]
      rcases ih (hc.memWrite s (codeEntry path)) with h | ⟨h, h'⟩
      · exact .inl h
      · refine .inr ⟨h, ?_⟩
        rcases h' with h' | ⟨s', hs', old', h1, h2⟩
        · left; intro hn; exact h' (by simpa using (List.nodup_cons.mp hn).2)
        · by_cases heq : s' = s
          · left; subst heq; intro hn; exact (List.nodup_cons.mp hn).1 hs'
          · right
            have hne : s'.toNat ≠ s.toNat := fun h => heq (BitVec.eq_of_toNat_eq h)
            exact ⟨s', by simp only [List.map_cons, List.mem_cons]; exact .inr hs', old', by rwa [memRead_memWrite_other _ _ hne] at h1, h2⟩

theorem memRead_range_map {α : Type} (f : Nat → α) (n k : Nat) :
    memRead ((List.range n).map fun s => (s, f s)) k = if k < n then some (f k) else none := by
  have key : ∀ l : List Nat, memRead (l.map fun s => (s, f s)) k = if k ∈ l then some (f k) else none := by
    intro l
    induction l with
    | nil => rfl
    | cons j l ih =>
      simp only [List.map_cons, memRead_cons, ih, List.mem_cons]
      by_cases h : k = j
      · subst h; simp
      · simp [h]
  simpa using key (List.range n)

theorem memRead_blankCodebook (a : Byte) : memRead blankCodebook a.toNat = some blankEntry := by
  exact (memRead_range_map (fun _ => blankEntry) Config.nsym a.toNat).trans (if_pos a.isLt)

theorem full_blankCodebook : FullCodebook blankCodebook := fun a => by simp [memRead_blankCodebook]

/-- CBGEN's local result for a tree with distinct leaf symbols: the codebook reads as the codes of the tree. -/
theorem Rep.codebookOf_ok (h : Rep nodes i t p) (hd : t.depth < Config.levels) {c : Memory CbEntry}
    (hc : codebookOf nodes i = .ok c) :
    t.symbols.Nodup ∧ (∀ e ∈ t.codes, memRead c e.1.toNat = some (codeEntry e.2)) ∧
      ∀ a : Byte, a ∉ t.symbols → memRead c a.toNat = some blankEntry := by
  rw [codebookOf, h.visit_eq hd] at hc
  simp only [List.nil_append, Prod.mk.eta, List.map_id'] at hc
  obtain ⟨hn, hw, ho, -⟩ := insertCodes_reads hc
  rw [CodeTree.codes_symbols] at hn ho
  refine ⟨hn, hw, fun a ha => ?_⟩
  rw [ho a.toNat fun s hs heq => ha (BitVec.eq_of_toNat_eq heq ▸ hs), memRead_blankCodebook]

/-- CBGEN's local result succeeds where the leaf symbols are distinct, and is E_DUP_SYM where they are not. -/
theorem Rep.codebookOf_cases (h : Rep nodes i t p) (hd : t.depth < Config.levels) :
    (t.symbols.Nodup ∧ ∃ c, codebookOf nodes i = .ok c) ∨
      (¬ t.symbols.Nodup ∧ codebookOf nodes i = .error (.raise .dupSym)) := by
  rcases insertCodes_full (l := t.codes) full_blankCodebook with ⟨c, hc⟩ | ⟨he, hr⟩
  · have hc' : codebookOf nodes i = .ok c := by
      rw [codebookOf, h.visit_eq hd]; simpa using hc
    exact .inl ⟨(h.codebookOf_ok hd hc').1, c, hc'⟩
  · refine .inr ⟨?_, by rw [codebookOf, h.visit_eq hd]; simpa using he⟩
    rcases hr with hr | ⟨s, _, old, h1, h2⟩
    · rwa [CodeTree.codes_symbols] at hr
    · rw [memRead_blankCodebook] at h1; cases h1; simp [blankEntry] at h2

/-- The length of a code fits its 8-bit field (R7). -/
theorem codeEntry_len {path : List Bool} (h : path.length < 256) : (codeEntry path).len.toNat = path.length := by
  simp [codeEntry, Nat.mod_eq_of_lt h]

theorem insertCodes_rising {l : List (Byte × List Bool)} {c c' : Memory CbEntry} (hr : Memory.rising c = true)
    (h : insertCodes l c = .ok c') : Memory.rising c' = true := by
  induction l generalizing c with
  | nil => simp only [insertCodes, Except.ok.injEq] at h; exact h ▸ hr
  | cons e l ih =>
    obtain ⟨s, path⟩ := e
    simp only [insertCodes] at h
    cases hx : readEntry .cb c s.toNat with
    | error x => simp [hx] at h
    | ok old =>
      simp only [hx] at h
      split at h
      · cases h
      · exact ih (Memory.rising_memWrite hr _ _) h

theorem rising_blankCodebook : Memory.rising blankCodebook = true := by
  rw [Memory.rising_iff, blankCodebook, List.pairwise_map]
  exact List.pairwise_lt_range

/-- The codebook is in canonical form, with its 256 entries. -/
theorem Rep.codebookOf_wf (h : Rep nodes i t p) (hd : t.depth < Config.levels) {c : Memory CbEntry}
    (hc : codebookOf nodes i = .ok c) : Memory.wf Config.nsym (fun _ => false) c = true := by
  rw [codebookOf, h.visit_eq hd] at hc
  simp only [List.nil_append, Prod.mk.eta, List.map_id'] at hc
  rw [Memory.wf_iff]
  refine ⟨insertCodes_rising rising_blankCodebook hc, fun k v hk => ⟨?_, rfl⟩⟩
  by_contra hge
  have hne : ∀ s ∈ t.codes.map (·.1), k ≠ s.toNat := fun s _ heq => hge (heq ▸ s.isLt)
  rw [(insertCodes_reads hc).2.2.1 k hne] at hk
  have hnone := (memRead_range_map (fun _ => blankEntry) Config.nsym k).trans (if_neg hge)
  exact absurd (hnone.symm.trans hk) (by simp)

end Sys2Proof.Machine
end

