-- ==== Sys2Proof/Laws/Configured.lean ====
section
/-! SUPPORT. The configured machine: with this hardware's values it is the machine, only four commands depend on the
values, and one inversion lemma for its step. -/

namespace Sys2Proof.Machine

variable {c : Config} {i : Instr} {s : State}

/-! ### With the values of this hardware -/

@[simp] theorem execIn_huffcore (i : Instr) (s : State) : execIn Config.huffcore i s = exec i s := by cases i <;> rfl

@[simp] theorem execWordIn_huffcore (w : CmdWord) (s : State) : execWordIn Config.huffcore w s = execWord w s := by
  unfold execWordIn execWord
  cases decode w with
  | ok i => exact execIn_huffcore i s
  | error x => rfl

@[simp] theorem stepIn_huffcore (s : State) : stepIn Config.huffcore s = step s := by
  unfold stepIn step
  rcases fetch s with _ | ⟨e, s'⟩
  · rfl
  · cases e
    · exact execWordIn_huffcore _ _
    · rfl

theorem coreIn_huffcore : coreIn Config.huffcore = Sys2Proof.core := by
  simp only [coreIn, core, funext stepIn_huffcore]

/-! ### With any values -/

/-- Register 9, CFG, is the only one that shows the reserved byte values (R34). -/
theorem regView_eq {a : Byte} (h : a ≠ 9) : regView s a c = regView s a := by
  have hn : a.toNat ≠ 9 := fun he => h (BitVec.eq_of_toNat_eq he)
  unfold regView
  generalize a.toNat = n at hn
  match n, hn with
  | 9, hn => exact absurd rfl hn
  | 0, _ | 1, _ | 2, _ | 3, _ | 4, _ | 5, _ | 6, _ | 7, _ | 8, _ | _ + 10, _ => rfl

/-- Which commands depend on the reserved byte values (R8, R34). -/
theorem execIn_eq_exec (hr : i ≠ .rdreg 9) (hb : i ≠ .build) (hs : i ≠ .ser) (hd : i ≠ .deser) :
    execIn c i s = exec i s := by
  cases i with
  | rdreg a =>
    have ha : a ≠ 9 := fun h => hr (h ▸ rfl)
    simp only [execIn, exec, execRdreg, regView_eq (c := c) ha]
  | build => exact absurd rfl hb
  | ser => exact absurd rfl hs
  | deser => exact absurd rfl hd
  | _ => rfl

theorem execWordIn_of_decode {w : CmdWord} (h : decode w = .ok i) : execWordIn c w s = execIn c i s := by
  simp [execWordIn, h]

theorem execWordIn_of_illegal {w : CmdWord} {x : DecodeError} (h : decode w = .error x) :
    execWordIn c w s = illegalWord w s := by simp [execWordIn, h]

/-- What a step of the configured machine can do: idle, a reset, a command, or an illegal word. -/
theorem stepIn_cases (c : Config) (s : State) :
    (s.port = [] ∧ stepIn c s = .next s) ∨
    (∃ rest, s.port = .resetInput :: rest ∧ stepIn c s = .next (resetBlock { s with port := rest })) ∨
    (∃ w rest i, s.port = .command w :: rest ∧ decode w = .ok i ∧ stepIn c s = execIn c i { s with port := rest }) ∨
    (∃ w rest x, s.port = .command w :: rest ∧ decode w = .error x ∧
      stepIn c s = illegalWord w { s with port := rest }) := by
  cases hp : s.port with
  | nil => exact .inl ⟨rfl, by simp [stepIn, fetch, hp]⟩
  | cons ev rest =>
    right
    have step_eq : stepIn c s = takeEventIn c ev { s with port := rest } := by simp [stepIn, fetch, hp]
    cases ev with
    | resetInput => exact .inl ⟨rest, rfl, step_eq⟩
    | command w =>
      right
      cases hd : decode w with
      | ok i => exact .inl ⟨w, rest, i, rfl, hd, step_eq.trans (execWordIn_of_decode hd)⟩
      | error x => exact .inr ⟨w, rest, x, rfl, hd, step_eq.trans (execWordIn_of_illegal hd)⟩

end Sys2Proof.Machine
end

