-- ==== Sys2Proof/WellFormed.lean ====
section
/-! DEFINITION. Well-formed command fields (30_encoding.md rules R94, R95). Every operand value of a command is
encodable (R96), so what can be ill-formed is the word, not an `Instr`: an unknown opcode, or a field that must be
zero and is not. -/

namespace Sys2Proof

/-- The opcode is one of the 24 (R92, R94). -/
def Fields.opcodeKnown (f : Fields) : Bool := (opcodeOf f.op).isSome

/-- The field `a` is zero where the command does not use it (R95). -/
def Fields.aAllowed (f : Fields) : Bool :=
  match opcodeOf f.op with
  | some o => o.usesA || f.a == 0
  | none => false

/-- The field `imm` is zero where the command does not use it (R95). -/
def Fields.immAllowed (f : Fields) : Bool :=
  match opcodeOf f.op with
  | some o => o.usesImm || f.imm == 0
  | none => false

/-- The fields are those of a command: the three checks of R94 and R95. -/
def Fields.wellFormed (f : Fields) : Bool := f.opcodeKnown && f.aAllowed && f.immAllowed

/-- The command's own fields pass the checks. -/
def Instr.wellFormed (i : Instr) : Bool := i.fields.wellFormed

end Sys2Proof
end

