-- ==== Sys2Proof/Laws/Decode.lean ====
section
/-! SUPPORT. The command word and its fields: taking a word apart and putting it together, and the opcode map. -/

namespace Sys2Proof

theorem fieldsOf_wordOf (f : Fields) : fieldsOf (wordOf f) = f := by
  obtain ⟨op, a, imm⟩ := f
  simp only [fieldsOf, wordOf, Fields.mk.injEq]
  refine ⟨?_, ?_, ?_⟩
  · ext i hi
    simp only [BitVec.getElem_extractLsb', BitVec.getLsbD_append]
    have h1 : ¬ 40 + i < 32 := by omega
    have h2 : ¬ 40 + i - 32 < 8 := by omega
    simp only [h1, h2, if_false]
    rw [show 40 + i - 32 - 8 = i by omega]; simp [hi]
  · ext i hi
    simp only [BitVec.getElem_extractLsb', BitVec.getLsbD_append]
    have h1 : ¬ 32 + i < 32 := by omega
    have h2 : 32 + i - 32 < 8 := by omega
    simp only [h1, h2, if_false, if_true]
    rw [show 32 + i - 32 = i by omega]; simp [hi]
  · ext i hi
    simp only [BitVec.getElem_extractLsb', BitVec.getLsbD_append, Nat.zero_add, hi, if_true, BitVec.getLsbD_eq_getElem]

theorem wordOf_fieldsOf (w : CmdWord) : wordOf (fieldsOf w) = w := by
  simp only [wordOf, fieldsOf]
  apply BitVec.eq_of_getLsbD_eq
  intro i hi
  simp only [BitVec.getLsbD_append, BitVec.getLsbD_extractLsb']
  by_cases h1 : i < 32
  · simp [h1]
  · by_cases h2 : i - 32 < 8
    · simp [h1, h2]; congr 1; omega
    · have h3 : i - 32 - 8 < 8 := by omega
      simp only [h1, h2, h3, if_false, decide_true, Bool.true_and]; congr 1; omega

@[simp] theorem opcodeOf_code (o : Opcode) : opcodeOf o.code = some o := by cases o <;> rfl

/-- The opcode map read backwards: a byte with an opcode is that opcode's value. -/
theorem code_of_opcodeOf {b : Byte} {o : Opcode} (h : opcodeOf b = some o) : b = o.code := by
  unfold opcodeOf at h
  split at h <;> first
    | (cases h; apply BitVec.eq_of_toNat_eq; simpa [Opcode.code] using ‹_›)
    | cases h

theorem fieldsOf_encode (i : Instr) : fieldsOf (encode i) = i.fields := fieldsOf_wordOf _

end Sys2Proof
end

