-- ==== Sys2Proof/Laws/Header.lean ====
section
/-! SUPPORT. SER and DESER in terms of the abstract tree: what SER writes is `ser(t)`, what a parse that succeeds builds
is the one tree of its bytes, numbered by header position, and a parse of `ser(t)` succeeds. -/

namespace Sys2Proof.Machine

open Sys2Proof.Safety

variable {nodes : Memory Node} {i : Nat} {t : CodeTree} {p : List Nat} {c : Config}

/-! ### SER -/

theorem CodeTree.ser_length (t : CodeTree) : (t.ser c).length = t.size := by
  induction t with
  | leaf => rfl
  | node l r ihl ihr => simp [CodeTree.ser, CodeTree.size, ihl, ihr]; omega

/-- What SER computes for a tree (R171), its two faults included. -/
theorem Rep.serialize_eq (h : Rep nodes i t p) (hd : t.depth < Config.levels) (c : Config) :
    serialize c nodes t.size i =
      if t.size > Config.hdrCap then .error (.raise .hdrOvf)
      else if c.sentinel ∈ t.symbols then .error (.raise .sentLeaf)
      else .ok (t.ser c) := by
  obtain ⟨es, hes, hser, hany⟩ := h.readAll_eq c
  have hr : readAll .node nodes p = .ok es := readAll_ok_iff.mpr hes
  unfold serialize
  split
  · rfl
  · simp only [h.preorder_eq hd, h.length, ne_eq, not_true_eq_false, if_false, hr, hany, hser, decide_eq_true_eq]

/-! ### The parse -/

/-- What the parse writes at header position `k` of a subtree that ends before `q` (R173). -/
def ParsedNode (k q : Nat) (e : Node) : Prop :=
  e.weight = 0 ∧ (e.kind = .leaf → e.left = 0 ∧ e.right = 0) ∧
    (e.kind = .internal → e.sym = 0 ∧ e.left.toNat = k + 1 ∧ k + 1 < e.right.toNat ∧ e.right.toNat < q)

theorem ParsedNode.mono {k q q' : Nat} {e : Node} (h : ParsedNode k q e) (hq : q ≤ q') : ParsedNode k q' e :=
  ⟨h.1, h.2.1, fun hi => by obtain ⟨a, b, c, d⟩ := h.2.2 hi; exact ⟨a, b, c, by omega⟩⟩

theorem range'_split (a b d : Nat) (h1 : a < b) (h2 : b ≤ d) :
    List.range' a (d - a) = a :: (List.range' (a + 1) (b - (a + 1)) ++ List.range' b (d - b)) := by
  have e1 : d - a = (d - (a + 1)) + 1 := by omega
  rw [e1, List.range'_succ]
  congr 1
  have e2 : d - (a + 1) = (b - (a + 1)) + (d - b) := by omega
  rw [e2, ← List.range'_append_1]
  congr 2
  omega

/-- What a parse that succeeds does: it consumes the header bytes of one tree without a `SENTINEL` leaf, builds that
tree at the indices equal to the header positions, and changes no other entry. -/
theorem parse_ok {hdr : Memory Byte} {hlen : Nat} (hl : hlen ≤ 255) {fuel pos q : Nat} {N N' : Memory Node}
    (h : parse c hdr hlen fuel pos N = .ok (q, N')) :
    pos < q ∧ q ≤ hlen ∧
    (∃ t, Rep N' pos t (List.range' pos (q - pos)) ∧
      (List.range' pos (q - pos)).map (memRead hdr) = (t.ser c).map some ∧ c.sentinel ∉ t.symbols) ∧
    (∀ k, k < pos ∨ q ≤ k → memRead N' k = memRead N k) ∧
    (∀ k e, pos ≤ k → k < q → memRead N' k = some e → ParsedNode k q e) ∧
    (Memory.rising N = true → Memory.rising N' = true) := by
  induction fuel generalizing pos N q N' with
  | zero => simp [parse] at h
  | succ f ih =>
    simp only [parse] at h
    split at h
    · cases h
    rename_i hp
    cases hb : readEntry .hdr hdr pos with
    | error x => simp [hb] at h
    | ok b =>
      have hm := readEntry_ok_iff.mp hb
      simp only [hb] at h
      split at h
      · rename_i hs
        cases h1 : parse c hdr hlen f (pos + 1) N with
        | error x => simp [h1] at h
        | ok r1 =>
          obtain ⟨q1, N1⟩ := r1
          simp only [h1] at h
          cases h2 : parse c hdr hlen f q1 N1 with
          | error x => simp [h2] at h
          | ok r2 =>
            obtain ⟨r, N2⟩ := r2
            simp only [h2, Except.ok.injEq, Prod.mk.injEq] at h
            obtain ⟨rfl, rfl⟩ := h
            obtain ⟨lt1, le1, ⟨tl, rl, sl, nl⟩, fr1, pn1, ri1⟩ := ih h1
            obtain ⟨lt2, le2, ⟨tr, rr, sr, nr⟩, fr2, pn2, ri2⟩ := ih h2
            have hsplit := range'_split pos q1 r (by omega) (by omega)
            have e1 : (pos + 1) % 512 = pos + 1 := Nat.mod_eq_of_lt (by omega)
            have e2 : q1 % 512 = q1 := Nat.mod_eq_of_lt (by omega)
            refine ⟨by omega, le2, ⟨.node tl tr, ?_, ?_, ?_⟩, ?_, ?_, ?_⟩
            · rw [hsplit]
              refine Rep.node (memRead_memWrite_same _ _ _) rfl ?_ ?_
              · simp only [BitVec.toNat_ofNat, Nat.reducePow, e1]
                refine rl.congr fun k hk => ?_
                have := List.mem_range'_1.mp hk
                rw [memRead_memWrite_other _ _ (by omega), fr2 k (by omega)]
              · simp only [BitVec.toNat_ofNat, Nat.reducePow, e2]
                refine rr.congr fun k hk => ?_
                have := List.mem_range'_1.mp hk
                rw [memRead_memWrite_other _ _ (by omega)]
            · rw [hsplit, List.map_cons, List.map_append, sl, sr, hm, hs]
              simp [CodeTree.ser]
            · simp only [CodeTree.symbols, List.mem_append, not_or]; exact ⟨nl, nr⟩
            · intro k hk
              rw [memRead_memWrite_other _ _ (by omega), fr2 k (by omega), fr1 k (by omega)]
            · intro k e hk hk' he
              rw [memRead_memWrite] at he
              split at he
              · subst_vars
                cases he
                refine ⟨rfl, (fun h => by cases h), fun _ => ⟨rfl, ?_, ?_, ?_⟩⟩ <;>
                  simp only [BitVec.toNat_ofNat, Nat.reducePow, e1, e2] <;> omega
              · by_cases hq : k < q1
                · rw [fr2 k (by omega)] at he
                  exact (pn1 k e (by omega) hq he).mono (by omega)
                · exact pn2 k e (by omega) hk' he
            · intro hr; exact Memory.rising_memWrite (ri2 (ri1 hr)) _ _
      · rename_i hs
        simp only [Except.ok.injEq, Prod.mk.injEq] at h
        obtain ⟨rfl, rfl⟩ := h
        have hrange : List.range' pos (pos + 1 - pos) = [pos] := by simp
        refine ⟨by omega, by omega, ⟨.leaf b, ?_, ?_, ?_⟩, ?_, ?_, ?_⟩
        · rw [hrange]; exact Rep.leaf (e := ⟨.leaf, b, 0, 0, 0⟩) (memRead_memWrite_same _ _ _) rfl
        · rw [hrange]; simp [hm, CodeTree.ser]
        · simp only [CodeTree.symbols, List.mem_singleton]; exact fun h => hs h.symm
        · intro k hk; rw [memRead_memWrite_other _ _ (by omega)]
        · intro k e hk hk' he
          have : k = pos := by omega
          subst this
          rw [memRead_memWrite_same] at he
          cases he
          exact ⟨rfl, fun _ => ⟨rfl, rfl⟩, (fun h => by cases h)⟩
        · intro hr; exact Memory.rising_memWrite hr _ _

/-- A parse of the header bytes of a tree without a `SENTINEL` leaf succeeds and ends just after them (R101, R173). -/
theorem parse_of_ser (t : CodeTree) {hdr : Memory Byte} {hlen fuel pos : Nat} (hs : c.sentinel ∉ t.symbols)
    (hb : ∀ k, k < t.size → memRead hdr (pos + k) = (t.ser c)[k]?) (hp : pos + t.size ≤ hlen) (hf : t.depth < fuel)
    (N : Memory Node) : ∃ N', parse c hdr hlen fuel pos N = .ok (pos + t.size, N') := by
  induction t generalizing fuel pos N with
  | leaf v =>
    obtain ⟨f, rfl⟩ : ∃ f, fuel = f + 1 := ⟨fuel - 1, by omega⟩
    have h0 := hb 0 (by simp [CodeTree.size])
    simp only [CodeTree.size] at hp
    simp only [CodeTree.ser, Nat.add_zero, List.getElem?_cons_zero] at h0
    have hne : v ≠ c.sentinel := fun h => hs (by simp [CodeTree.symbols, h])
    simp only [parse, if_neg (show ¬ hlen ≤ pos by omega), readEntry_of_some h0, if_neg hne, CodeTree.size]
    exact ⟨_, rfl⟩
  | node l r ihl ihr =>
    obtain ⟨f, rfl⟩ : ∃ f, fuel = f + 1 := ⟨fuel - 1, by omega⟩
    simp only [CodeTree.depth] at hf
    simp only [CodeTree.size] at hp hb
    simp only [CodeTree.symbols, List.mem_append, not_or] at hs
    have h0 := hb 0 (by omega)
    simp only [CodeTree.ser, Nat.add_zero, List.getElem?_cons_zero] at h0
    obtain ⟨N1, h1⟩ := ihl (fuel := f) (pos := pos + 1) hs.1 (fun k hk => by
      have := hb (k + 1) (by omega)
      rw [show pos + 1 + k = pos + (k + 1) by omega, this]
      simp only [CodeTree.ser, List.getElem?_cons_succ]
      rw [List.getElem?_append_left (by rw [CodeTree.ser_length]; exact hk)]) (by omega) (by omega) N
    obtain ⟨N2, h2⟩ := ihr (fuel := f) (pos := pos + 1 + l.size) hs.2 (fun k hk => by
      have := hb (l.size + k + 1) (by omega)
      rw [show pos + 1 + l.size + k = pos + (l.size + k + 1) by omega, this]
      simp only [CodeTree.ser, List.getElem?_cons_succ]
      rw [List.getElem?_append_right (by rw [CodeTree.ser_length]; omega), CodeTree.ser_length]
      congr 1; omega) (by omega) (by omega) N1
    simp only [parse, if_neg (show ¬ hlen ≤ pos by omega), readEntry_of_some h0, if_true, h1, h2, CodeTree.size]
    rw [show pos + (1 + l.size + r.size) = pos + 1 + l.size + r.size by omega]
    exact ⟨_, rfl⟩

/-- On a complete buffer the parse succeeds or raises E_HDR_MALFORMED: the model never stops there. -/
theorem parse_total {hdr : Memory Byte} {hlen : Nat} (hl : hlen ≤ 255) (hw : ∀ k, k < hlen → (memRead hdr k).isSome)
    {fuel pos : Nat} (hp : pos ≤ hlen) (hf : hlen < fuel + pos) (N : Memory Node) :
    (∃ r, parse c hdr hlen fuel pos N = .ok r) ∨ parse c hdr hlen fuel pos N = .error (.raise .hdrMalformed) := by
  induction fuel generalizing pos N with
  | zero => omega
  | succ f ih =>
    simp only [parse]
    split
    · exact .inr rfl
    · obtain ⟨b, hb⟩ := Option.isSome_iff_exists.mp (hw pos (by omega))
      simp only [readEntry_of_some hb]
      split
      · rcases ih (pos := pos + 1) (by omega) (by omega) N with ⟨⟨q, N1⟩, h1⟩ | h1
        · have hq := parse_ok hl h1
          simp only [h1]
          rcases ih (pos := q) hq.2.1 (by omega) N1 with ⟨⟨r, N2⟩, h2⟩ | h2
          · simp only [h2]; exact .inl ⟨_, rfl⟩
          · simp only [h2]; exact .inr trivial
        · simp only [h1]; exact .inr trivial
      · exact .inl ⟨_, rfl⟩

/-- What DESER's local result is on a complete buffer (R172): one of its two own faults, or the whole header's tree. -/
theorem deserialize_cases {hdr : Memory Byte} {hlen : Nat} (hl : hlen ≤ 255)
    (hw : ∀ k, k < hlen → (memRead hdr k).isSome) :
    deserialize c hdr hlen = .error (.raise .hdrMalformed) ∨ deserialize c hdr hlen = .error (.raise .hdrTrail) ∨
      ∃ N, deserialize c hdr hlen = .ok (hlen, N) := by
  unfold deserialize
  rcases parse_total (c := c) hl hw (fuel := Config.levels) (pos := 0) (by omega) (by simp [Config.levels]; omega) []
    with ⟨⟨q, N⟩, h⟩ | h
  · have hq := parse_ok hl h
    simp only [h]
    split
    · exact .inr (.inl rfl)
    · have : q = hlen := by omega
      exact .inr (.inr ⟨N, by rw [this]⟩)
  · simp only [h]; exact .inl trivial

/-- The parse behind a DESER that succeeds. -/
theorem parse_of_deserialize {hdr : Memory Byte} {hlen q : Nat} {N : Memory Node}
    (h : deserialize c hdr hlen = .ok (q, N)) : parse c hdr hlen Config.levels 0 [] = .ok (q, N) ∧ hlen ≤ q := by
  unfold deserialize at h
  cases hp : parse c hdr hlen Config.levels 0 [] with
  | error x => simp [hp] at h
  | ok r =>
    obtain ⟨q', N'⟩ := r
    simp only [hp] at h
    split at h
    · cases h
    · simp only [Except.ok.injEq, Prod.mk.injEq] at h
      obtain ⟨rfl, rfl⟩ := h
      exact ⟨rfl, by omega⟩

end Sys2Proof.Machine
end

