-- ==== Sys2Proof/Laws/Invariant.lean ====
section
/-! SUPPORT. The tree invariants: what they give a command that walks the tree, that they depend on the node memory,
NNODES and ROOT alone, and that a tree BUILD or DESER installs has them. -/

namespace Sys2Proof.Machine

open Sys2Proof.Safety

variable {s t : State} {nodes : Memory Node} {i : Nat} {tr : CodeTree} {p : List Nat}

/-! ### The leaves of a tree -/

/-- The symbol of entry `k`, where it is a leaf. -/
def leafSymbol (nodes : Memory Node) (k : Nat) : Option Byte :=
  (memRead nodes k).bind fun e => if e.kind = .leaf then some e.sym else none

/-- The symbols of a tree are those of its leaf entries, in pre-order. -/
theorem Rep.filterMap_leafSymbol (h : Rep nodes i tr p) : p.filterMap (leafSymbol nodes) = tr.symbols := by
  induction h with
  | leaf h hl => simp [leafSymbol, h, hl, CodeTree.symbols]
  | node h hi _ _ ihl ihr => simp [leafSymbol, h, hi, CodeTree.symbols, ← ihl, ← ihr]

/-- Two leaf entries of a tree with distinct symbols that carry one symbol are one entry. -/
theorem Rep.leaf_injective (h : Rep nodes i tr p) (hn : tr.symbols.Nodup) {j k : Nat} (hj : j ∈ p) (hk : k ∈ p)
    {e f : Node} (he : memRead nodes j = some e) (hf : memRead nodes k = some f) (le : e.kind = .leaf)
    (lf : f.kind = .leaf) (hs : e.sym = f.sym) : j = k := by
  rw [← h.filterMap_leafSymbol, List.Nodup, List.pairwise_filterMap] at hn
  have : Std.Symm fun a a' => ∀ b : Byte, leafSymbol nodes a = some b → ∀ b' : Byte, leafSymbol nodes a' = some b' →
      b ≠ b' := ⟨fun x y hxy b hb b' hb' heq => hxy b' hb' b hb heq.symm⟩
  by_contra hne
  exact hn.forall hj hk hne e.sym (by simp [leafSymbol, he, le]) f.sym (by simp [leafSymbol, hf, lf]) hs

/-! ### What the tree invariants give -/

/-- The tree the block holds. -/
theorem rep_of_treeInv (h : TreeInv s) : ∃ tr p, heldTree s = some tr ∧ Rep s.node s.root.toNat tr p ∧
    tr.depth < Config.levels ∧ p.Perm (List.range s.nnodes.toNat) ∧ tr.size = s.nnodes.toNat := by
  obtain ⟨p, hp, hperm⟩ := h.exactly_once
  obtain ⟨tr, hr, hd⟩ := rep_of_preorder hp
  exact ⟨tr, p, hr.treeAt_eq hd, hr, hd, hperm, by rw [← hr.length, hperm.length_eq, List.length_range]⟩

theorem builtTree_congr (h : BuiltTree s) (hn : t.node = s.node) (hc : t.nnodes = s.nnodes) (hr : t.root = s.root) :
    BuiltTree t := by
  constructor
  · rw [hc, hr]; exact h.root_last
  · rw [hn]; exact h.children_before
  · rw [hn]; exact h.weights_add
  · rw [hn]; exact h.symbols_distinct

theorem deserializedTree_congr (h : DeserializedTree s) (hn : t.node = s.node) (hc : t.nnodes = s.nnodes)
    (hr : t.root = s.root) : DeserializedTree t := by
  constructor
  · rw [hr]; exact h.root_first
  · rw [hn]; exact h.children_after
  · rw [hn, hc]; exact h.preorder_is_range
  · rw [hn]; exact h.weights_zero

/-- The tree invariants speak of NODE, NNODES and ROOT alone. -/
theorem treeInv_congr (h : TreeInv s) (hn : t.node = s.node) (hc : t.nnodes = s.nnodes) (hr : t.root = s.root) :
    TreeInv t := by
  constructor
  · rw [hc]; exact h.nnodes_pos
  · rw [hc]; exact h.nnodes_le
  · rw [hc, hr]; exact h.root_lt
  · rw [hn, hc]; exact h.written
  · rw [hn, hc]; exact h.children
  · rw [hn, hc, hr]; exact h.exactly_once
  · rw [hn]; exact h.leaf_fields
  · rw [hn]; exact h.internal_fields
  · exact h.numbering.imp (builtTree_congr · hn hc hr) (deserializedTree_congr · hn hc hr)

/-! ### The trees BUILD and DESER install -/

/-- BUILD numbers its tree as R37 (d) says, with the weights of R36 and the distinct symbols of R37 (e). -/
theorem builtTree_of_builtResult {c : Config} {freq : Memory Word32} {n : Nat}
    (h : BuiltResult c freq nodes n) (s : State) : BuiltTree (s.installTree nodes n (n - 1)) := by
  obtain ⟨⟨vs, rfl, hvs⟩, -, pos, le, sound, ⟨tr, p, hrep, hperm, hsym⟩, -⟩ := h
  simp only [Config.nodeMax] at le
  have hn : (BitVec.ofNat 10 n).toNat = n := by simp; omega
  have hr : (BitVec.ofNat 9 (n - 1)).toNat = n - 1 := by simp; omega
  have mem : ∀ i e, memRead (memOfList 0 vs) i = some e → i ∈ p := fun i e he => by
    rw [memRead_memOfList_zero] at he
    have := (List.getElem?_eq_some_iff.mp he).1
    exact hperm.mem_iff.mpr (List.mem_range.mpr (by omega))
  refine ⟨?_, ?_, ?_, ?_⟩ <;>
    simp only [State.installTree_nnodes, State.installTree_root, State.installTree_node, hn, hr]
  · omega
  · intro i e he hk
    obtain ⟨_, a, b, _⟩ := (sound i e he).2 hk
    exact ⟨a, b⟩
  · intro i e he hk
    obtain ⟨_, _, _, _, l, r, h1, h2, h3⟩ := (sound i e he).2 hk
    exact ⟨l, r, h1, h2, h3⟩
  · intro i j e f he hf
    exact hrep.leaf_injective (hsym.nodup_iff.mpr (builtSymbols_nodup freq)) (mem i e he) (mem j f hf) he hf

/-- BUILD installs a tree with the invariants of R37. -/
theorem treeInv_of_builtResult {c : Config} {freq : Memory Word32} {n : Nat}
    (h : BuiltResult c freq nodes n) (s : State) : TreeInv (s.installTree nodes n (n - 1)) := by
  have hbuilt := builtTree_of_builtResult h s
  obtain ⟨⟨vs, rfl, hvs⟩, -, pos, le, sound, ⟨tr, p, hrep, hperm, -⟩, -⟩ := h
  simp only [Config.nodeMax] at le
  have hn : (BitVec.ofNat 10 n).toNat = n := by simp; omega
  have hr : (BitVec.ofNat 9 (n - 1)).toNat = n - 1 := by simp; omega
  have hw : ∀ i, (memRead (memOfList 0 vs) i).isSome ↔ i < n := by
    intro i; rw [memRead_memOfList_zero]; simp [hvs]
  have hdepth : tr.depth < Config.levels := by
    have h1 := two_mul_depth_lt_size tr
    rw [← hrep.length, hperm.length_eq, List.length_range] at h1
    simp only [Config.levels]; omega
  refine ⟨?_, ?_, ?_, ?_, ?_, ?_, ?_, ?_, .inl hbuilt⟩ <;>
    simp only [State.installTree_nnodes, State.installTree_root, State.installTree_node, hn, hr, Config.nodeMax]
  · exact pos
  · exact le
  · omega
  · exact hw
  · intro i e he hk
    obtain ⟨_, a, b, c, _⟩ := (sound i e he).2 hk
    have := (hw i).mp (by simp [he])
    exact ⟨by omega, by omega, c⟩
  · exact ⟨p, hrep.preorder_eq hdepth, hperm⟩
  · exact fun i e he => (sound i e he).1
  · exact fun i e he hk => ((sound i e he).2 hk).1

/-- The tree a DESER that succeeds builds, and the entries it writes. -/
theorem deserialize_ok {c : Config} {hdr : Memory Byte} {hlen q : Nat} (hl : hlen ≤ 255)
    (h : deserialize c hdr hlen = .ok (q, nodes)) :
    q = hlen ∧ 0 < hlen ∧
    (∃ tr, Rep nodes 0 tr (List.range hlen) ∧ (List.range hlen).map (memRead hdr) = (tr.ser c).map some ∧
      c.sentinel ∉ tr.symbols) ∧
    (∀ k, hlen ≤ k → memRead nodes k = none) ∧
    (∀ k e, memRead nodes k = some e → ParsedNode k hlen e) ∧ Memory.rising nodes = true := by
  obtain ⟨hp, hq⟩ := parse_of_deserialize h
  obtain ⟨lt, le, ht, fr, pn, ri⟩ := parse_ok hl hp
  obtain rfl : q = hlen := by omega
  simp only [Nat.sub_zero, ← List.range_eq_range'] at ht
  have hno : ∀ k, q ≤ k → memRead nodes k = none := fun k hk => by rw [fr k (.inr hk)]; rfl
  refine ⟨rfl, lt, ht, hno, fun k e he => pn k e (Nat.zero_le _) ?_ he, ri rfl⟩
  by_contra hk
  rw [hno k (by omega)] at he
  cases he

/-- DESER installs a tree with the invariants of R37. -/
theorem treeInv_of_deserialize {c : Config} {hdr : Memory Byte} {hlen q : Nat} (hl : hlen ≤ 255)
    (h : deserialize c hdr hlen = .ok (q, nodes)) (s : State) : TreeInv (s.installTree nodes q 0) := by
  obtain ⟨rfl, pos, ⟨tr, hrep, -, -⟩, hno, pn, -⟩ := deserialize_ok hl h
  have hn : (BitVec.ofNat 10 q).toNat = q := by simp; omega
  have hw : ∀ i, (memRead nodes i).isSome ↔ i < q := by
    intro i
    refine ⟨fun hi => ?_, fun hi => hrep.written i (List.mem_range.mpr hi)⟩
    by_contra hge
    rw [hno i (by omega)] at hi
    cases hi
  have hdepth : tr.depth < Config.levels := by
    have h1 := two_mul_depth_lt_size tr
    rw [← hrep.length, List.length_range] at h1
    simp only [Config.levels]; omega
  have hpre := hrep.preorder_eq hdepth
  refine ⟨?_, ?_, ?_, ?_, ?_, ?_, ?_, ?_, .inr ⟨?_, ?_, ?_, ?_⟩⟩ <;>
    simp only [State.installTree_nnodes, State.installTree_root, State.installTree_node, hn, Config.nodeMax,
      BitVec.ofNat_eq_ofNat, BitVec.toNat_zero]
  · exact pos
  · omega
  · exact pos
  · exact hw
  · intro i e he hk
    obtain ⟨-, -, h3⟩ := pn i e he
    obtain ⟨_, a, b, c⟩ := h3 hk
    exact ⟨by omega, by omega, fun heq => by have := congrArg BitVec.toNat heq; omega⟩
  · exact ⟨_, hpre, List.Perm.refl _⟩
  · exact fun i e he => (pn i e he).2.1
  · exact fun i e he hk => ((pn i e he).2.2 hk).1
  · intro i e he hk
    obtain ⟨_, a, b, c⟩ := (pn i e he).2.2 hk
    exact ⟨a, by omega⟩
  · exact hpre
  · exact fun i e he => (pn i e he).1

/-! ### The invariant under each update of the state -/

theorem memoriesWf_iff (s : State) : s.memoriesWf = true ↔
    Memory.wf Config.nsym (· == 0) s.freq = true ∧ Memory.wf Config.nodeMax (fun _ => false) s.node = true ∧
      Memory.wf Config.nsym (fun _ => false) s.cb = true ∧ Memory.wf Config.hdrCap (fun _ => false) s.hdr = true := by
  simp [State.memoriesWf, Bool.and_eq_true, and_assoc]

theorem headerInv_congr (h : HeaderInv s) (h1 : t.hdr = s.hdr) (h2 : t.hlen = s.hlen) (h3 : t.hfill = s.hfill)
    (h4 : t.hdrValid = s.hdrValid) : HeaderInv t :=
  ⟨by rw [h2, h3]; exact h.fill_le, by rw [h1, h3]; exact h.written, by rw [h2, h3, h4]; exact h.complete,
    by rw [h2, h3, h4]; exact h.incomplete⟩

theorem noTree_congr (h : NoTree s) (h1 : t.node = s.node) (h2 : t.nnodes = s.nnodes) (h3 : t.root = s.root)
    (h4 : t.cur = s.cur) (h5 : t.cbValid = s.cbValid) (h6 : t.decActive = s.decActive) (h7 : t.decHalt = s.decHalt)
    (h8 : t.decPartial = s.decPartial) : NoTree t :=
  ⟨h1.trans h.node, h2.trans h.nnodes, h3.trans h.root, h4.trans h.cur, h5.trans h.cbValid, h6.trans h.decActive,
    h7.trans h.decHalt, h8.trans h.decPartial⟩

theorem walkInv_congr (h : WalkInv s) (h1 : t.node = s.node) (h3 : t.root = s.root) (h4 : t.cur = s.cur)
    (h6 : t.decActive = s.decActive) (h7 : t.decHalt = s.decHalt) (h8 : t.decPartial = s.decPartial) : WalkInv t :=
  ⟨by rw [h3, h4, h6]; exact h.idle, by rw [h6, h8]; exact h.no_partial, by rw [h1, h3, h6, h7]; exact h.halt,
    by rw [h3, h4, h7]; exact h.halted, by rw [h1, h4, h6, h7]; exact h.internal⟩

/-- RESULT, the outputs and the port are free. -/
theorem inv_outputs (h : Inv s) (r : BitVec 64) (o : List Bool) (b : List Byte) (p : List PortEvent) :
    Inv { s with result := r, obits := o, obytes := b, port := p } :=
  ⟨h.memories, h.fault_code, h.finfo, headerInv_congr h.header rfl rfl rfl rfl,
    fun ht => treeInv_congr (h.tree ht) rfl rfl rfl, fun ht => noTree_congr (h.noTree ht) rfl rfl rfl rfl rfl rfl rfl rfl,
    h.codebook, h.noCodebook, walkInv_congr h.walk rfl rfl rfl rfl rfl rfl⟩

theorem inv_raise (h : Inv s) (e : ErrorCode) (w : CmdWord) : Inv (raise e w s) :=
  ⟨h.memories, .inr ⟨e, rfl⟩, fun hf => absurd hf e.code_ne_zero, headerInv_congr h.header rfl rfl rfl rfl,
    fun ht => treeInv_congr (h.tree ht) rfl rfl rfl, fun ht => noTree_congr (h.noTree ht) rfl rfl rfl rfl rfl rfl rfl rfl,
    h.codebook, h.noCodebook, walkInv_congr h.walk rfl rfl rfl rfl rfl rfl⟩

theorem inv_setFreq (h : Inv s) {m : Memory Word32} (hm : Memory.wf Config.nsym (· == 0) m = true) : Inv (s.setFreq m) :=
  ⟨(memoriesWf_iff _).mpr ⟨hm, ((memoriesWf_iff _).mp h.memories).2⟩, h.fault_code, h.finfo,
    headerInv_congr h.header rfl rfl rfl rfl, fun ht => treeInv_congr (h.tree ht) rfl rfl rfl,
    fun ht => noTree_congr (h.noTree ht) rfl rfl rfl rfl rfl rfl rfl rfl, h.codebook, h.noCodebook,
    walkInv_congr h.walk rfl rfl rfl rfl rfl rfl⟩

theorem inv_installTree (h : Inv s) {n r : Nat} (hw : Memory.wf Config.nodeMax (fun _ => false) nodes = true)
    (ht : TreeInv (s.installTree nodes n r)) : Inv (s.installTree nodes n r) := by
  obtain ⟨h1, -, -, h4⟩ := (memoriesWf_iff _).mp h.memories
  refine ⟨(memoriesWf_iff _).mpr ⟨h1, hw, rfl, h4⟩, h.fault_code, h.finfo, headerInv_congr h.header rfl rfl rfl rfl,
    fun _ => ht, (fun hf => by cases hf), (fun hf => by cases hf), fun _ => rfl, ⟨fun _ => rfl, ?_, ?_, ?_, ?_⟩⟩
  · intro hf; cases hf
  · intro hf; cases hf
  · intro hf; cases hf
  · intro hf; cases hf

theorem inv_build (h : Inv s) (c : Config := Config.huffcore) : Inv (s.installTree (buildTree c s.freq).1
    (buildTree c s.freq).2 ((buildTree c s.freq).2 - 1)) := by
  have hb := buildTree_spec c s.freq
  refine inv_installTree h ?_ (treeInv_of_builtResult hb s)
  obtain ⟨vs, hvs, hl⟩ := hb.entries
  rw [hvs]
  exact Memory.wf_memOfList (by rw [hl]; exact hb.le) fun _ _ => rfl

theorem inv_deserialize {c : Config} (h : Inv s) {q : Nat} (hd : deserialize c s.hdr s.hlen.toNat = .ok (q, nodes)) :
    Inv (s.installTree nodes q 0) := by
  have hl : s.hlen.toNat ≤ 255 := by have := s.hlen.isLt; omega
  refine inv_installTree h ?_ (treeInv_of_deserialize hl hd s)
  obtain ⟨-, -, -, hno, -, hr⟩ := deserialize_ok hl hd
  refine (Memory.wf_iff _ _ _).mpr ⟨hr, fun k v hk => ⟨?_, rfl⟩⟩
  by_contra hge
  rw [hno k (by simp only [Config.nodeMax] at hge; omega)] at hk
  cases hk

theorem inv_installCodebook (h : Inv s) (ht : s.treeValid = true) {c : Memory CbEntry}
    (hc : codebookOf s.node s.root.toNat = .ok c) : Inv (s.installCodebook c) := by
  obtain ⟨h1, h2, -, h4⟩ := (memoriesWf_iff _).mp h.memories
  obtain ⟨tr, p, -, hrep, hdep, -, -⟩ := rep_of_treeInv (h.tree ht)
  refine ⟨(memoriesWf_iff _).mpr ⟨h1, h2, hrep.codebookOf_wf hdep hc, h4⟩, h.fault_code, h.finfo,
    headerInv_congr h.header rfl rfl rfl rfl, fun ht => treeInv_congr (h.tree ht) rfl rfl rfl,
    fun hf => ?_, fun _ => hc, (fun hf => by cases hf), walkInv_congr h.walk rfl rfl rfl rfl rfl rfl⟩
  exact absurd ht (by simp [show s.treeValid = false from hf])

theorem inv_setHeader (h : Inv s) {m : Memory Byte} {n f : BitVec 8} {v : Bool}
    (hm : Memory.wf Config.hdrCap (fun _ => false) m = true) (hh : HeaderInv (s.setHeader m n f v)) :
    Inv (s.setHeader m n f v) := by
  obtain ⟨h1, h2, h3, -⟩ := (memoriesWf_iff _).mp h.memories
  exact ⟨(memoriesWf_iff _).mpr ⟨h1, h2, h3, hm⟩, h.fault_code, h.finfo, hh,
    fun ht => treeInv_congr (h.tree ht) rfl rfl rfl, fun ht => noTree_congr (h.noTree ht) rfl rfl rfl rfl rfl rfl rfl rfl,
    h.codebook, h.noCodebook, walkInv_congr h.walk rfl rfl rfl rfl rfl rfl⟩

theorem inv_setWalk (h : Inv s) (ht : s.treeValid = true) {c : NodeIndex} {a hl p : Bool}
    (hw : WalkInv (s.setWalk c a hl p)) : Inv (s.setWalk c a hl p) :=
  ⟨h.memories, h.fault_code, h.finfo, headerInv_congr h.header rfl rfl rfl rfl,
    fun ht => treeInv_congr (h.tree ht) rfl rfl rfl,
    fun hf => absurd ht (by simp [show s.treeValid = false from hf]), h.codebook, h.noCodebook, hw⟩

theorem inv_resetBlock (s : State) : Inv (resetBlock s) := by
  refine ⟨State.reset_memoriesWf, .inl rfl, fun _ => rfl, ⟨Nat.le_refl _, fun k => ?_, (fun hf => by cases hf), fun _ _ => rfl⟩,
    (fun hf => by cases hf), fun _ => ⟨rfl, rfl, rfl, rfl, rfl, rfl, rfl, rfl⟩, (fun hf => by cases hf), fun _ => rfl,
    ⟨fun _ => rfl, ?_, ?_, ?_, ?_⟩⟩
  · exact ⟨(fun h => by cases h), fun h => absurd h (Nat.not_lt_zero k)⟩
  all_goals intro hf; cases hf

/-! ### What the invariant gives a command -/

/-- With a walk in progress there is a tree. -/
theorem treeValid_of_decActive (h : Inv s) (ha : s.decActive = true) : s.treeValid = true := by
  by_contra hf
  have := (h.noTree (by simpa using hf)).decActive
  rw [ha] at this; cases this

/-- With a codebook there is a tree. -/
theorem treeValid_of_cbValid (h : Inv s) (hc : s.cbValid = true) : s.treeValid = true := by
  by_contra hf
  have := (h.noTree (by simpa using hf)).cbValid
  rw [hc] at this; cases this

/-- The entries of a codebook (R160): a leaf's symbol has its code, every other symbol none. -/
theorem codebook_entries (h : Inv s) (hc : s.cbValid = true) : ∃ tr p, heldTree s = some tr ∧
    Rep s.node s.root.toNat tr p ∧ tr.depth ≤ 255 ∧ tr.symbols.Nodup ∧
    (∀ e ∈ tr.codes, memRead s.cb e.1.toNat = some (codeEntry e.2)) ∧
    ∀ a : Byte, a ∉ tr.symbols → memRead s.cb a.toNat = some blankEntry := by
  obtain ⟨tr, p, hh, hrep, hd, -, -⟩ := rep_of_treeInv (h.tree (treeValid_of_cbValid h hc))
  obtain ⟨hn, hw, ho⟩ := hrep.codebookOf_ok hd (h.codebook hc)
  exact ⟨tr, p, hh, hrep, by simp only [Config.levels] at hd; omega, hn, hw, ho⟩

/-- The bytes of the header buffer. -/
theorem header_bytes (h : Inv s) : ∃ bs : List Byte, bs.length = s.hfill.toNat ∧ ∀ k, memRead s.hdr k = bs[k]? := by
  obtain ⟨bs, hbs⟩ := readAll_ok_of_isSome (sp := .hdr) (m := s.hdr) (ks := List.range s.hfill.toNat)
    fun k hk => (h.header.written k).mpr (List.mem_range.mp hk)
  have hlen := readAll_length hbs
  have hmap := readAll_ok_iff.mp hbs
  simp only [List.length_range] at hlen
  refine ⟨bs, hlen, fun k => ?_⟩
  by_cases hk : k < s.hfill.toNat
  · have := congrArg (fun l => l[k]?) hmap
    simp only [List.getElem?_map, List.getElem?_range hk, Option.map_some] at this
    rw [List.getElem?_eq_getElem (by omega)] at this ⊢
    simpa using this
  · rw [List.getElem?_eq_none (by omega)]
    have := (h.header.written k).not.mpr hk
    simpa using this

end Sys2Proof.Machine
end

