-- ==== Sys2Proof/Laws/Merge.lean ====
section
/-! SUPPORT. The merge loop of BUILD node by node: which nodes wait before each merge, and that the two removed are the
first two of them in the merge order (R142, R143). -/

namespace Sys2Proof.Machine

open Sys2Proof.Safety

variable {nodes : Memory Node} {n : Nat}

/-- Which nodes wait depends on the earlier entries alone. -/
theorem waiting_congr {nodes' : Memory Node} (h : ∀ m, m < n → memRead nodes' m = memRead nodes m) (j : Nat) :
    Waiting nodes' n j ↔ Waiting nodes n j := by
  unfold Waiting
  refine and_congr_right fun _ => forall_congr' fun m => forall_congr' fun e => ?_
  refine imp_congr_right fun hm => ?_
  rw [h m hm]

/-- What the merge order says of two elements of ACTIVE with different indices, when the second is not before. -/
theorem mergesBefore_of_not_before {x y : ActiveNode} (h : ¬ y.before x = true) (hne : y.index ≠ x.index) :
    MergesBefore x.weight x.index y.weight y.index := by
  rw [before_iff] at h
  simp only [not_or, not_and, not_lt] at h
  unfold MergesBefore
  rcases Nat.lt_or_ge x.weight.toNat y.weight.toNat with hl | hg
  · exact .inl hl
  · have heq : y.weight = x.weight := BitVec.eq_of_toNat_eq (by omega)
    have := h.2 heq
    exact .inr ⟨heq.symm, by omega⟩

/-- What takeFirst removes is first among the elements (R142). -/
theorem takeFirst_first {active rest : List ActiveNode} {x : ActiveNode} (h : takeFirst active = some (x, rest)) :
    ∀ y ∈ active, ¬ y.before x = true := by
  cases active with
  | nil => cases h
  | cons z l =>
    simp only [takeFirst, Option.some.injEq, Prod.mk.injEq] at h
    obtain ⟨rfl, -⟩ := h
    exact firstOf_first z l

/-- What the merge loop keeps, node by node: ACTIVE is the set of waiting nodes with their weights, the leaves stay, and
every node made so far is as R143 says. -/
structure Merging (leaves nodes : Memory Node) (active : List ActiveNode) (first n : Nat) : Prop where
  keys : ∀ j, Waiting nodes n j ↔ ∃ a ∈ active, a.index = j
  weights : ∀ a ∈ active, ∃ e, memRead nodes a.index = some e ∧ e.weight = a.weight
  distinct : (active.map (·.index)).Nodup
  leaves : ∀ k, k < first → memRead nodes k = memRead leaves k
  leaf_kind : ∀ k e, k < first → memRead nodes k = some e → e.kind = .leaf
  merged : ∀ m, first ≤ m → m < n → ∃ e, memRead nodes m = some e ∧ MergedNode nodes m e
  first_le : first ≤ n

theorem mergedNode_congr {nodes' : Memory Node} {e : Node} (h : ∀ m, m < n → memRead nodes' m = memRead nodes m)
    (he : MergedNode nodes n e) : MergedNode nodes' n e := by
  have hw := fun j => waiting_congr h j
  obtain ⟨l, r, hl, hr, hs, h1, h2⟩ := he.children
  refine ⟨he.kind, he.sym, he.different, (hw _).mpr he.left_waits, (hw _).mpr he.right_waits, l, r, ?_, ?_, hs, ?_, ?_⟩
  · rw [h _ he.left_waits.1, hl]
  · rw [h _ he.right_waits.1, hr]
  · intro j f hj hf; rw [h j hj.1] at hf; exact h1 j f ((hw j).mp hj) hf
  · intro j f hj hf; rw [h j hj.1] at hf; exact h2 j f ((hw j).mp hj) hf

/-- One merge (R143). -/
theorem Merging.merge {leaves : Memory Node} {active rest others : List ActiveNode} {x y : ActiveNode} {first : Nat}
    (h : Merging leaves nodes active first n) (hx : takeFirst active = some (x, rest))
    (hy : takeFirst rest = some (y, others)) (hn : n < 511) :
    Merging leaves (memWrite nodes n (internalNode x.index y.index (x.weight + y.weight)))
      (⟨x.weight + y.weight, n⟩ :: others) first (n + 1) := by
  have px := takeFirst_perm hx
  have py := takeFirst_perm hy
  have pxy : active.Perm (x :: y :: others) := px.trans (py.cons x)
  have mx : x ∈ active := pxy.mem_iff.mpr (by simp)
  have my : y ∈ active := pxy.mem_iff.mpr (by simp)
  have hd : ((x :: y :: others).map (·.index)).Nodup := (pxy.map _).nodup_iff.mp h.distinct
  simp only [List.map_cons, List.nodup_cons, List.mem_cons, not_or] at hd
  obtain ⟨⟨hxy, hxo⟩, hyo, hod⟩ := hd
  have lt : ∀ a ∈ active, a.index < n := fun a ha => ((h.keys a.index).mpr ⟨a, ha, rfl⟩).1
  have hix : (BitVec.ofNat 9 x.index).toNat = x.index := by have := lt x mx; simp; omega
  have hiy : (BitVec.ofNat 9 y.index).toNat = y.index := by have := lt y my; simp; omega
  generalize hnew : internalNode x.index y.index (x.weight + y.weight) = new
  have nk : new.kind = .internal := by rw [← hnew]; rfl
  have ns : new.sym = 0 := by rw [← hnew]; rfl
  have nl : new.left.toNat = x.index := by rw [← hnew]; exact hix
  have nr : new.right.toNat = y.index := by rw [← hnew]; exact hiy
  have nw : new.weight = x.weight + y.weight := by rw [← hnew]; rfl
  have old : ∀ m, m < n → memRead (memWrite nodes n new) m = memRead nodes m :=
    fun m hm => memRead_memWrite_other _ _ (by omega)
  have index_inj : ∀ a ∈ active, ∀ b ∈ active, a.index = b.index → a = b := by
    intro a ha b hb heq
    exact List.inj_on_of_nodup_map h.distinct ha hb heq
  refine ⟨?_, ?_, ?_, ?_, ?_, ?_, ?_⟩
  · intro j
    constructor
    · rintro ⟨hj, hc⟩
      have hne := hc n new (by omega) (memRead_memWrite_same _ _ _) nk
      rw [nl, nr] at hne
      by_cases hjn : j = n
      · exact ⟨_, List.mem_cons_self .., hjn.symm⟩
      · have hw : Waiting nodes n j := ⟨by omega, fun m e hm he => hc m e (by omega) (by rw [old m hm, he])⟩
        obtain ⟨a, ha, rfl⟩ := (h.keys j).mp hw
        refine ⟨a, ?_, rfl⟩
        have := pxy.mem_iff.mp ha
        simp only [List.mem_cons] at this
        rcases this with rfl | rfl | ha'
        · exact absurd rfl hne.1
        · exact absurd rfl hne.2
        · exact List.mem_cons_of_mem _ ha'
    · rintro ⟨a, ha, rfl⟩
      rcases List.mem_cons.mp ha with rfl | hao
      · refine ⟨Nat.lt_succ_self _, fun m e hm he hk => ?_⟩
        show e.left.toNat ≠ n ∧ e.right.toNat ≠ n
        by_cases hmn : m = n
        · subst hmn
          rw [memRead_memWrite_same] at he; cases he
          rw [nl, nr]
          have := lt x mx; have := lt y my
          exact ⟨by omega, by omega⟩
        · have hm' : m < n := by omega
          rw [old m hm'] at he
          rcases Nat.lt_or_ge m first with hf | hf
          · exact absurd hk (by rw [h.leaf_kind m e hf he]; decide)
          · obtain ⟨e', he', hme⟩ := h.merged m hf hm'
            rw [he] at he'; cases he'
            have h1 := hme.left_waits.1
            have h2 := hme.right_waits.1
            exact ⟨by omega, by omega⟩
      · have hact : a ∈ active := pxy.mem_iff.mpr (by simp [hao])
        obtain ⟨h1, h2⟩ := (h.keys a.index).mpr ⟨a, hact, rfl⟩
        refine ⟨by omega, fun m e hm he hk => ?_⟩
        by_cases hmn : m = n
        · subst hmn
          rw [memRead_memWrite_same] at he; cases he
          rw [nl, nr]
          exact ⟨fun heq => hxo (List.mem_map.mpr ⟨a, hao, heq.symm⟩), fun heq => hyo (List.mem_map.mpr ⟨a, hao, heq.symm⟩)⟩
        · rw [old m (by omega)] at he
          exact h2 m e (by omega) he hk
  · intro a ha
    rcases List.mem_cons.mp ha with rfl | ha
    · exact ⟨new, memRead_memWrite_same _ _ _, nw⟩
    · have hact : a ∈ active := pxy.mem_iff.mpr (by simp [ha])
      obtain ⟨e, he, hw⟩ := h.weights a hact
      exact ⟨e, by rw [old _ (lt a hact), he], hw⟩
  · simp only [List.map_cons, List.nodup_cons]
    refine ⟨fun hm => ?_, hod⟩
    obtain ⟨a, ha, heq⟩ := List.mem_map.mp hm
    have := lt a (pxy.mem_iff.mpr (by simp [ha]))
    omega
  · intro k hk
    have := h.first_le
    rw [old k (by omega), h.leaves k hk]
  · intro k e hk he
    have := h.first_le
    rw [old k (by omega)] at he
    exact h.leaf_kind k e hk he
  · intro m hm hm'
    by_cases hmn : m = n
    · subst hmn
      refine ⟨new, memRead_memWrite_same _ _ _, ?_⟩
      obtain ⟨ex, hex, wx⟩ := h.weights x mx
      obtain ⟨ey, hey, wy⟩ := h.weights y my
      refine mergedNode_congr old ⟨nk, ns, by rw [nl, nr]; exact hxy, by rw [nl]; exact (h.keys _).mpr ⟨x, mx, rfl⟩,
        by rw [nr]; exact (h.keys _).mpr ⟨y, my, rfl⟩, ex, ey, by rw [nl, hex], by rw [nr, hey], by rw [nw, wx, wy], ?_, ?_⟩
      · intro j f hj hf hne
        obtain ⟨a, ha, rfl⟩ := (h.keys j).mp hj
        obtain ⟨ea, hea, wa⟩ := h.weights a ha
        rw [hea] at hf; cases hf
        rw [nl] at hne ⊢
        rw [wx, wa]
        exact mergesBefore_of_not_before (takeFirst_first hx a ha) hne
      · intro j f hj hf hne hne'
        obtain ⟨a, ha, rfl⟩ := (h.keys j).mp hj
        obtain ⟨ea, hea, wa⟩ := h.weights a ha
        rw [hea] at hf; cases hf
        rw [nl] at hne
        rw [nr] at hne' ⊢
        rw [wy, wa]
        have har : a ∈ rest := by
          rcases List.mem_cons.mp (px.mem_iff.mp ha) with rfl | hr
          · exact absurd rfl hne
          · exact hr
        exact mergesBefore_of_not_before (takeFirst_first hy a har) hne'
    · obtain ⟨e, he, hme⟩ := h.merged m hm (by omega)
      exact ⟨e, by rw [old m (by omega), he], mergedNode_congr (fun k hk => old k (by omega)) hme⟩
  · have := h.first_le; omega

theorem mergeLoop_merging {leaves : Memory Node} {active : List ActiveNode} {first fuel : Nat}
    (h : Merging leaves nodes active first n) (hn : n + active.length ≤ 512) :
    ∃ active', Merging leaves (mergeLoop fuel nodes active n).1 active' first (mergeLoop fuel nodes active n).2 := by
  induction fuel generalizing nodes active n with
  | zero => exact ⟨active, h⟩
  | succ f ih =>
    cases hx : takeFirst active with
    | none => exact ⟨active, by simpa only [mergeLoop, hx] using h⟩
    | some r =>
      obtain ⟨x, rest⟩ := r
      cases hy : takeFirst rest with
      | none => exact ⟨active, by simpa only [mergeLoop, hx, hy] using h⟩
      | some r =>
        obtain ⟨y, others⟩ := r
        have lx := (takeFirst_perm hx).length_eq
        have ly := (takeFirst_perm hy).length_eq
        simp only [List.length_cons] at lx ly
        simp only [mergeLoop, hx, hy]
        exact ih (h.merge hx hy (by omega)) (by simp only [List.length_cons]; omega)

/-- The leaves before the first merge all wait. -/
theorem leaves_merging (vs : List Node) (hk : ∀ v ∈ vs, v.kind = .leaf) :
    Merging (memOfList 0 vs) (memOfList 0 vs) (activeLeaves (memOfList 0 vs)) vs.length vs.length := by
  have keys : ∀ (vs : List Node) k, activeLeaves (memOfList k vs) =
      (vs.zipIdx k).map fun e => (⟨e.1.weight, e.2⟩ : ActiveNode) := by
    intro vs
    induction vs with
    | nil => intro k; rfl
    | cons v vs ih =>
      intro k
      have := ih (k + 1)
      simp only [activeLeaves] at this
      simp [activeLeaves, memOfList, this]
  have leaf : ∀ k e, memRead (memOfList 0 vs) k = some e → e.kind = .leaf := by
    intro k e he
    rw [memRead_memOfList_zero] at he
    obtain ⟨hlt, rfl⟩ := List.getElem?_eq_some_iff.mp he
    exact hk _ (List.getElem_mem hlt)
  rw [keys]
  refine ⟨fun j => ⟨fun hj => ?_, ?_⟩, ?_, ?_, fun _ _ => rfl, fun k e _ he => leaf k e he, fun m h1 h2 => by omega,
    le_refl _⟩
  · have hlt := hj.1
    refine ⟨⟨vs[j].weight, j⟩, List.mem_map.mpr ⟨(vs[j], j), ?_, rfl⟩, rfl⟩
    rw [List.mem_zipIdx_iff_getElem?]; simp [hlt]
  · rintro ⟨a, ha, rfl⟩
    obtain ⟨e, he, rfl⟩ := List.mem_map.mp ha
    rw [List.mem_zipIdx_iff_getElem?] at he
    refine ⟨(List.getElem?_eq_some_iff.mp he).1, fun m f _ hf hi => ?_⟩
    rw [leaf m f hf] at hi; cases hi
  · intro a ha
    obtain ⟨e, he, rfl⟩ := List.mem_map.mp ha
    rw [List.mem_zipIdx_iff_getElem?] at he
    exact ⟨e.1, by rw [memRead_memOfList_zero]; exact he, rfl⟩
  · simp only [List.map_map, Function.comp_def]
    rw [show (fun e : Node × Nat => e.2) = Prod.snd from rfl, List.zipIdx_map_snd]
    exact List.nodup_range'

/-- The tree of two or more symbols, node by node (R141, R143). -/
theorem buildTree_merges (c : Config) (freq : Memory Word32) (h : 2 ≤ (presentSymbols freq).length) :
    (∀ k sym, (presentSymbols freq)[k]? = some sym → memRead (buildTree c freq).1 k = some (leafOf freq sym)) ∧
      ∀ m, (presentSymbols freq).length ≤ m → m < (buildTree c freq).2 →
        ∃ e, memRead (buildTree c freq).1 m = some e ∧ MergedNode (buildTree c freq).1 m e := by
  have hlen := presentSymbols_length_le freq
  unfold buildTree
  rw [placeLeaves_eq]
  generalize presentSymbols freq = l at *
  match l, h with
  | a :: b :: r, _ =>
    have hm := leaves_merging ((a :: b :: r).map (leafOf freq)) (by
      intro v hv
      obtain ⟨s, -, rfl⟩ := List.mem_map.mp hv
      rfl)
    have hal : (activeLeaves (memOfList 0 ((a :: b :: r).map (leafOf freq)))).length = (a :: b :: r).length := by
      have key : ∀ (vs : List Node) k, (memOfList k vs).length = vs.length := by
        intro vs
        induction vs with
        | nil => intro k; rfl
        | cons v vs ih => intro k; simp [memOfList, ih]
      simp [activeLeaves, key]
    rw [List.length_map] at hm
    obtain ⟨active', hres⟩ := mergeLoop_merging (fuel := (a :: b :: r).length) hm (by rw [hal]; omega)
    refine ⟨fun k sym hk => ?_, fun m h1 h2 => hres.merged m h1 h2⟩
    have hlt := (List.getElem?_eq_some_iff.mp hk).1
    refine (hres.leaves k hlt).trans ?_
    rw [memRead_memOfList_zero, List.getElem?_map, hk]
    rfl

end Sys2Proof.Machine
end

