-- ==== Sys2Proof/Laws/Optimal.lean ====
section
/-! SUPPORT. Why the greedy merge is optimal (42_tree_build.md rule R150): trees over bare weights, the exchange of two
leaves, the lower bound that one merge of the two lightest leaves gives, and the merge loop's cost. -/

namespace Sys2Proof.Machine

open Sys2Proof.Safety

/-! ### Trees over weights -/

/-- A binary tree whose leaves are weights. -/
inductive WeightTree where
  | leaf (w : Nat)
  | node (l r : WeightTree)

namespace WeightTree

/-- The weights of the leaves. -/
def weights : WeightTree → Multiset Nat
  | .leaf w => {w}
  | .node l r => l.weights + r.weights

/-- The leaves with their depths. -/
def depths : WeightTree → Multiset (Nat × Nat)
  | .leaf w => {(w, 0)}
  | .node l r => (l.depths + r.depths).map fun e => (e.1, e.2 + 1)

/-- The number of leaves. -/
def leaves : WeightTree → Nat
  | .leaf _ => 1
  | .node l r => l.leaves + r.leaves

/-- The length of the longest path. -/
def height : WeightTree → Nat
  | .leaf _ => 0
  | .node l r => max l.height r.height + 1

/-- The weighted external path length. -/
def cost : WeightTree → Nat
  | .leaf _ => 0
  | .node l r => l.cost + r.cost + (l.weights.sum + r.weights.sum)

theorem weights_of_depths (t : WeightTree) : t.depths.map Prod.fst = t.weights := by
  induction t with
  | leaf w => simp [depths, weights]
  | node l r ihl ihr =>
    simp only [depths, weights, Multiset.map_map, Function.comp_def, Multiset.map_add]
    rw [← ihl, ← ihr]

theorem depth_le {t : WeightTree} {e : Nat × Nat} (h : e ∈ t.depths) : e.2 ≤ t.height := by
  induction t generalizing e with
  | leaf w => simp only [depths, Multiset.mem_singleton] at h; subst h; simp
  | node l r ihl ihr =>
    simp only [depths, Multiset.mem_map, Multiset.mem_add] at h
    obtain ⟨f, hf | hf, rfl⟩ := h
    · have := ihl hf; simp only [height]; omega
    · have := ihr hf; simp only [height]; omega

/-- The deepest leaves come in pairs. -/
theorem deepest_pair (t : WeightTree) (h : 0 < t.height) :
    ∃ a b rest, t.depths = (a, t.height) ::ₘ (b, t.height) ::ₘ rest := by
  induction t with
  | leaf w => simp [height] at h
  | node l r ihl ihr =>
    have pair : ∀ {u v : WeightTree}, v.height ≤ u.height → (0 < u.height → ∃ a b rest,
        u.depths = (a, u.height) ::ₘ (b, u.height) ::ₘ rest) →
        ∃ a b rest, (u.depths + v.depths).map (fun e : Nat × Nat => (e.1, e.2 + 1)) =
          (a, u.height + 1) ::ₘ (b, u.height + 1) ::ₘ rest := by
      intro u v hv ih
      by_cases hu : 0 < u.height
      · obtain ⟨a, b, rest, he⟩ := ih hu
        exact ⟨a, b, (rest + v.depths).map fun e => (e.1, e.2 + 1), by rw [he]; simp⟩
      · cases u with
        | node => simp [height] at hu
        | leaf a =>
          cases v with
          | node => simp [height] at hv
          | leaf b => exact ⟨a, b, 0, by simp [depths, height]⟩
    rcases Nat.le_total r.height l.height with hle | hle
    · obtain ⟨a, b, rest, he⟩ := pair hle ihl
      exact ⟨a, b, rest, by simp only [depths, height, Nat.max_eq_left hle]; exact he⟩
    · obtain ⟨a, b, rest, he⟩ := pair hle ihr
      exact ⟨a, b, rest, by simp only [depths, height, Nat.max_eq_right hle]; rw [add_comm]; exact he⟩

/-- Give one leaf another weight: the cost changes by the difference times its depth. -/
theorem replace (t : WeightTree) {z d : Nat} (h : (z, d) ∈ t.depths) (y : Nat) : ∃ t' : WeightTree,
    z ::ₘ t'.weights = y ::ₘ t.weights ∧ t'.cost + z * d = t.cost + y * d ∧ t'.leaves = t.leaves ∧
    t'.height = t.height := by
  have sums : ∀ {u u' : WeightTree}, z ::ₘ u'.weights = y ::ₘ u.weights → z + u'.weights.sum = y + u.weights.sum := by
    intro u u' h
    have := congrArg Multiset.sum h
    simpa using this
  induction t generalizing d with
  | leaf w =>
    simp only [depths, Multiset.mem_singleton, Prod.mk.injEq] at h
    obtain ⟨rfl, rfl⟩ := h
    exact ⟨.leaf y, by simp only [weights]; exact Multiset.cons_swap _ _ _, by simp [cost], rfl, rfl⟩
  | node l r ihl ihr =>
    simp only [depths, Multiset.mem_map, Multiset.mem_add, Prod.mk.injEq] at h
    obtain ⟨⟨z', d'⟩, hf | hf, rfl, rfl⟩ := h
    · obtain ⟨l', hw, hc, hn, hh⟩ := ihl hf
      refine ⟨.node l' r, ?_, ?_, by simp [leaves, hn], by simp [height, hh]⟩
      · simp only [weights, ← Multiset.cons_add, hw]
      · have := sums hw
        simp only [cost, Nat.mul_add, Nat.mul_one] at hc ⊢
        omega
    · obtain ⟨r', hw, hc, hn, hh⟩ := ihr hf
      refine ⟨.node l r', ?_, ?_, by simp [leaves, hn], by simp [height, hh]⟩
      · simp only [weights, ← Multiset.add_cons, hw]
      · have := sums hw
        simp only [cost, Nat.mul_add, Nat.mul_one] at hc ⊢
        omega

theorem leaves_pos (t : WeightTree) : 1 ≤ t.leaves := by
  induction t with
  | leaf => exact Nat.le_refl _
  | node l r ihl _ => simp only [leaves]; omega

theorem card_weights (t : WeightTree) : t.weights.card = t.leaves := by
  induction t with
  | leaf => rfl
  | node l r ihl ihr => simp [weights, leaves, ihl, ihr]

/-- The two lightest leaves in one subtree: the bound for that subtree gives the bound for the tree. -/
theorem merge_inside {u v : WeightTree} {x y : Nat} {U R : Multiset Nat} (hu : u.weights = x ::ₘ y ::ₘ U)
    (h : u.weights + v.weights = x ::ₘ y ::ₘ R)
    (hm : ∃ u' : WeightTree, u'.weights = (x + y) ::ₘ U ∧ u'.cost + (x + y) ≤ u.cost) :
    ∃ t : WeightTree, t.weights = (x + y) ::ₘ R ∧ t.cost + (x + y) ≤ u.cost + v.cost + (u.weights.sum + v.weights.sum) := by
  obtain ⟨u', hw, hc⟩ := hm
  rw [hu, Multiset.cons_add, Multiset.cons_add, Multiset.cons_inj_right, Multiset.cons_inj_right] at h
  refine ⟨.node u' v, by rw [weights, hw, Multiset.cons_add, h], ?_⟩
  have h1 : u'.weights.sum = u.weights.sum := by
    rw [hw, hu]; simp only [Multiset.sum_cons]; omega
  simp only [cost, h1]
  omega

/-- A leaf of weight `a`, and another of the deepest level. -/
theorem deepest_other {u : WeightTree} {a : Nat} (h : 0 < u.height) (ha : a ∈ u.weights) :
    ∃ z U, (z, u.height) ∈ u.depths ∧ u.weights = a ::ₘ z ::ₘ U := by
  obtain ⟨p, q, rest, hd⟩ := u.deepest_pair h
  have hw := u.weights_of_depths
  rw [hd] at hw
  simp only [Multiset.map_cons] at hw
  by_cases hp : p = a
  · exact ⟨q, rest.map Prod.fst, by rw [hd]; simp, by rw [← hw, hp]⟩
  · rw [← hw, Multiset.mem_cons] at ha
    obtain ⟨U, hU⟩ := Multiset.exists_cons_of_mem (ha.resolve_left fun h => hp h.symm)
    exact ⟨p, U, by rw [hd]; simp, by rw [← hw, hU, Multiset.cons_swap]⟩

/-- A tree bounds the tree with its two lightest leaves merged: that costs at least their sum less. -/
theorem merge_lower (t : WeightTree) {x y : Nat} {R : Multiset Nat} (h : t.weights = x ::ₘ y ::ₘ R) (hxy : x ≤ y)
    (hy : ∀ z ∈ R, y ≤ z) : ∃ t' : WeightTree, t'.weights = (x + y) ::ₘ R ∧ t'.cost + (x + y) ≤ t.cost := by
  induction hn : t.leaves using Nat.strong_induction_on generalizing t R with
  | _ n ih =>
    -- both lightest leaves in `u`
    have inside : ∀ {u v : WeightTree}, u.leaves < n → u.weights + v.weights = x ::ₘ y ::ₘ R →
        (∃ U, u.weights = x ::ₘ y ::ₘ U) → ∃ t' : WeightTree, t'.weights = (x + y) ::ₘ R ∧
          t'.cost + (x + y) ≤ u.cost + v.cost + (u.weights.sum + v.weights.sum) := by
      rintro u v hlt hw ⟨U, hU⟩
      refine merge_inside hU hw (ih _ hlt u hU (fun z hz => hy z ?_) rfl)
      have hw' := hw
      rw [hU, Multiset.cons_add, Multiset.cons_add, Multiset.cons_inj_right, Multiset.cons_inj_right] at hw'
      rw [← hw', Multiset.mem_add]; exact .inl hz
    -- one of them in each subtree, `u` the higher one
    have across : ∀ {u v : WeightTree} {a b : Nat}, u.leaves < n → v.height ≤ u.height →
        u.weights + v.weights = x ::ₘ y ::ₘ R → (a = x ∧ b = y) ∨ (a = y ∧ b = x) → a ∈ u.weights → b ∈ v.weights →
        ∃ t' : WeightTree, t'.weights = (x + y) ::ₘ R ∧
          t'.cost + (x + y) ≤ u.cost + v.cost + (u.weights.sum + v.weights.sum) := by
      intro u v a b hlt hh hw hab ha hb
      have hxyab : x ::ₘ y ::ₘ R = a ::ₘ b ::ₘ R := by
        rcases hab with ⟨rfl, rfl⟩ | ⟨rfl, rfl⟩
        · rfl
        · exact Multiset.cons_swap _ _ _
      have hsum : a + b = x + y := by omega
      have hby : b ≤ y := by omega
      by_cases hu : 0 < u.height
      · obtain ⟨z, U, hz, hU⟩ := deepest_other hu ha
        obtain ⟨V, hV⟩ := Multiset.exists_cons_of_mem hb
        have hR : z ::ₘ U + V = R := by
          have := hw
          rw [hU, hV, hxyab, Multiset.cons_add, Multiset.cons_inj_right, Multiset.add_cons,
            Multiset.cons_inj_right] at this
          exact this
        have hbz : b ≤ z := by
          have := hy z (by rw [← hR, Multiset.cons_add]; exact Multiset.mem_cons_self _ _)
          omega
        obtain ⟨d, hd⟩ : ∃ d, (b, d) ∈ v.depths := by
          rw [← v.weights_of_depths, Multiset.mem_map] at hb
          obtain ⟨⟨b', d⟩, hm, rfl⟩ := hb
          exact ⟨d, hm⟩
        have hdv := depth_le hd
        obtain ⟨u', hu1, hu2, hu3, -⟩ := u.replace hz b
        obtain ⟨v', hv1, hv2, -, -⟩ := v.replace hd z
        have hu4 : u'.weights = x ::ₘ y ::ₘ U := by
          rw [hU, Multiset.cons_swap a z, Multiset.cons_swap b z, Multiset.cons_inj_right] at hu1
          rw [hu1]
          rcases hab with ⟨rfl, rfl⟩ | ⟨rfl, rfl⟩
          · exact Multiset.cons_swap _ _ _
          · rfl
        have hv4 : v'.weights = z ::ₘ V := by
          rw [hV, Multiset.cons_swap z b, Multiset.cons_inj_right] at hv1
          exact hv1
        have hw' : u'.weights + v'.weights = x ::ₘ y ::ₘ R := by
          rw [hu4, hv4, ← hR]
          simp only [Multiset.cons_add, Multiset.add_cons]
          rw [Multiset.cons_swap z x, Multiset.cons_swap z y]
        obtain ⟨t', ht1, ht2⟩ := inside (by omega) hw' ⟨U, hu4⟩
        refine ⟨t', ht1, ?_⟩
        have hs : u'.weights.sum + v'.weights.sum = u.weights.sum + v.weights.sum := by
          rw [← Multiset.sum_add, ← Multiset.sum_add, hw', hw]
        have hex : b * u.height + z * d ≤ z * u.height + b * d := by
          obtain ⟨k, rfl⟩ := Nat.exists_eq_add_of_le hbz
          obtain ⟨m, hm⟩ := Nat.exists_eq_add_of_le (show d ≤ u.height by omega)
          rw [hm]
          nlinarith [Nat.zero_le (k * m)]
        omega
      · cases u with
        | node => simp [height] at hu
        | leaf p =>
          cases v with
          | node => simp [height] at hh
          | leaf q =>
            simp only [weights, Multiset.mem_singleton] at ha hb
            subst ha; subst hb
            have hR : R = 0 := by
              have := congrArg Multiset.card hw
              simp only [weights, Multiset.card_add, Multiset.card_singleton, Multiset.card_cons] at this
              exact Multiset.card_eq_zero.mp (by omega)
            refine ⟨.leaf (x + y), by rw [hR]; rfl, ?_⟩
            simp only [cost, weights, Multiset.sum_singleton]
            omega
    cases t with
    | leaf w =>
      have := congrArg Multiset.card h
      simp [weights] at this
    | node l r =>
      have hl := l.leaves_pos
      have hr := r.leaves_pos
      simp only [leaves] at hn
      simp only [weights] at h
      have h' : r.weights + l.weights = x ::ₘ y ::ₘ R := by rw [add_comm]; exact h
      have hswap : ∀ t' : WeightTree, t'.cost + (x + y) ≤ r.cost + l.cost + (r.weights.sum + l.weights.sum) →
          t'.cost + (x + y) ≤ (WeightTree.node l r).cost := fun t' ht => by simp only [cost]; omega
      have hxm : x ∈ l.weights + r.weights := by rw [h]; simp
      have swapped : (∃ t' : WeightTree, t'.weights = (x + y) ::ₘ R ∧
          t'.cost + (x + y) ≤ r.cost + l.cost + (r.weights.sum + l.weights.sum)) →
          ∃ t' : WeightTree, t'.weights = (x + y) ::ₘ R ∧ t'.cost + (x + y) ≤ (WeightTree.node l r).cost :=
        fun ⟨t', h1, h2⟩ => ⟨t', h1, hswap t' h2⟩
      have split : ∀ {u v : WeightTree}, u.weights + v.weights = x ::ₘ y ::ₘ R → x ∈ u.weights →
          (∃ U, u.weights = x ::ₘ y ::ₘ U) ∨ y ∈ v.weights := by
        intro u v hw hx
        obtain ⟨U, hU⟩ := Multiset.exists_cons_of_mem hx
        rw [hU, Multiset.cons_add, Multiset.cons_inj_right] at hw
        have : y ∈ U + v.weights := by rw [hw]; simp
        rcases Multiset.mem_add.mp this with h1 | h1
        · obtain ⟨U', hU'⟩ := Multiset.exists_cons_of_mem h1
          exact .inl ⟨U', by rw [hU, hU']⟩
        · exact .inr h1
      rcases Multiset.mem_add.mp hxm with hx | hx
      · rcases split h hx with hU | hyr
        · exact inside (by omega) h hU
        · rcases Nat.le_total r.height l.height with hle | hle
          · exact across (by omega) hle h (.inl ⟨rfl, rfl⟩) hx hyr
          · exact swapped (across (by omega) hle h' (.inr ⟨rfl, rfl⟩) hyr hx)
      · rcases split h' hx with hU | hyl
        · exact swapped (inside (by omega) h' hU)
        · rcases Nat.le_total r.height l.height with hle | hle
          · exact across (by omega) hle h (.inr ⟨rfl, rfl⟩) hyl hx
          · exact swapped (across (by omega) hle h' (.inl ⟨rfl, rfl⟩) hx hyl)

end WeightTree

/-! ### The tree of a node memory, with weights -/

/-- The tree with the weight of each symbol in the place of the symbol. -/
def weightTree (w : Byte → Nat) : CodeTree → WeightTree
  | .leaf v => .leaf (w v)
  | .node l r => .node (weightTree w l) (weightTree w r)

variable {w : Byte → Nat}

theorem weightTree_weights (t : CodeTree) : (weightTree w t).weights = (t.symbols.map w : Multiset Nat) := by
  induction t with
  | leaf v => rfl
  | node l r ihl ihr =>
    simp only [weightTree, WeightTree.weights, ihl, ihr, CodeTree.symbols, List.map_append]
    rfl

theorem weightTree_cost (t : CodeTree) : (weightTree w t).cost = (t.codes.map fun e => w e.1 * e.2.length).sum := by
  have sums : ∀ t : CodeTree, (weightTree w t).weights.sum = (t.codes.map fun e => w e.1).sum := by
    intro t
    rw [weightTree_weights, ← CodeTree.codes_symbols, List.map_map]
    simp [Function.comp_def]
  have longer : ∀ l : List (Byte × List Bool), (l.map fun e => w e.1 * (e.2.length + 1)).sum =
      (l.map fun e => w e.1 * e.2.length).sum + (l.map fun e => w e.1).sum := by
    intro l
    induction l with
    | nil => rfl
    | cons e l ih =>
      simp only [List.map_cons, List.sum_cons, Nat.mul_add, Nat.mul_one] at ih ⊢
      omega
  induction t with
  | leaf v => simp [weightTree, WeightTree.cost, CodeTree.codes]
  | node l r ihl ihr =>
    simp only [weightTree, WeightTree.cost, ihl, ihr, sums, CodeTree.codes, List.map_append, List.map_map,
      Function.comp_def, List.length_cons, List.sum_append, longer]
    omega

/-- In a forest whose leaves weigh what `w` says, a root weighs what its leaves weigh together. -/
theorem Rep.weight_eq {nodes : Memory Node} (sound : ∀ i e, memRead nodes i = some e → BuiltNode nodes i e)
    (leafs : ∀ i e, memRead nodes i = some e → e.kind = .leaf → e.weight.toNat = w e.sym) {i : Nat} {t : CodeTree}
    {p : List Nat} (h : Rep nodes i t p) :
    ∀ e, memRead nodes i = some e → e.weight.toNat = (weightTree w t).weights.sum := by
  induction h with
  | leaf hr hk => intro e he; rw [hr] at he; cases he; simp [weightTree, WeightTree.weights, leafs _ _ hr hk]
  | node hr hk _ _ ihl ihr =>
    intro e he
    rw [hr] at he; cases he
    obtain ⟨-, -, -, -, l, r, hl, hrr, hs⟩ := (sound _ _ hr).2 hk
    simp only [weightTree, WeightTree.weights, Multiset.sum_add, ← ihl _ hl, ← ihr _ hrr, hs]

/-- A root of a forest and its tree, within the entries written so far. -/
theorem Forest.rep {nodes : Memory Node} {active : List ActiveNode} {n total : Nat} {syms : List Byte}
    (h : Forest nodes active n total syms) {a : ActiveNode} (ha : a ∈ active) :
    ∃ t p e, Rep nodes a.index t p ∧ (∀ k ∈ p, k < n) ∧ memRead nodes a.index = some e ∧ e.weight = a.weight := by
  obtain ⟨G, hG, hrep, hperm, -⟩ := h.trees
  obtain ⟨g, hg, rfl⟩ := List.mem_map.mp (hG.mem_iff.mpr ha)
  obtain ⟨hr, e, he, hw⟩ := hrep g hg
  exact ⟨g.2.1, g.2.2, e, hr,
    fun k hk => List.mem_range.mp (hperm.mem_iff.mp (List.mem_flatMap.mpr ⟨g, hg, hk⟩)), he, hw⟩

/-! ### The merge loop -/

/-- What is taken first weighs least (R142). -/
theorem takeFirst_min {active rest : List ActiveNode} {x : ActiveNode} (h : takeFirst active = some (x, rest)) :
    ∀ z ∈ active, x.weight.toNat ≤ z.weight.toNat := by
  intro z hz
  cases active with
  | nil => cases h
  | cons a l =>
    simp only [takeFirst, Option.some.injEq, Prod.mk.injEq] at h
    have := firstOf_first a l z hz
    rw [h.1, before_iff, not_or] at this
    omega

/-- The merge loop adds to the cost of the trees in ACTIVE no more than any tree over their weights costs (R143, R150). -/
theorem mergeLoop_optimal {fuel : Nat} {nodes : Memory Node} {active : List ActiveNode} {n total : Nat}
    {syms : List Byte} (h : Forest nodes active n total syms)
    (leafs : ∀ i e, memRead nodes i = some e → e.kind = .leaf → e.weight.toNat = w e.sym)
    (ht : total < 2 ^ 40) (hn : n + active.length ≤ 512) (hne : active ≠ []) (hf : active.length ≤ fuel + 1)
    (hlast : ∃ a ∈ active, a.index + 1 = n) {G : List (ActiveNode × CodeTree)} (hG : (G.map (·.1)).Perm active)
    (hrep : ∀ g ∈ G, ∃ p, Rep nodes g.1.index g.2 p) :
    ∃ t p, Rep (mergeLoop fuel nodes active n).1 ((mergeLoop fuel nodes active n).2 - 1) t p ∧
      ∀ u : WeightTree, u.weights = (active.map (·.weight.toNat) : Multiset Nat) →
        (weightTree w t).cost ≤ (G.map fun g => (weightTree w g.2).cost).sum + u.cost := by
  have single : ∀ a, active = [a] → ∃ t p, Rep nodes (n - 1) t p ∧
      ∀ u : WeightTree, u.weights = (active.map (·.weight.toNat) : Multiset Nat) →
        (weightTree w t).cost ≤ (G.map fun g => (weightTree w g.2).cost).sum + u.cost := by
    rintro a rfl
    obtain ⟨b, hb, hbi⟩ := hlast
    simp only [List.mem_singleton] at hb
    subst hb
    have hl := hG.length_eq
    simp only [List.length_map, List.length_cons, List.length_nil] at hl
    match G, hl, hG, hrep with
    | [g], _, hG, hrep =>
      have hg : g.1 = b := by simpa using hG
      obtain ⟨p, hp⟩ := hrep g (by simp)
      rw [hg, show b.index = n - 1 by omega] at hp
      exact ⟨g.2, p, hp, fun u _ => by simp⟩
  induction fuel generalizing nodes active n G with
  | zero =>
    obtain ⟨a, rfl⟩ : ∃ a, active = [a] := by
      match active, hne, hf with
      | [a], _, _ => exact ⟨a, rfl⟩
      | _ :: _ :: _, _, hf => simp at hf
    exact single a rfl
  | succ f ih =>
    obtain ⟨x, rest, hx⟩ := takeFirst_isSome hne
    have px := takeFirst_perm hx
    have lx := px.length_eq
    simp only [List.length_cons] at lx
    simp only [mergeLoop, hx]
    cases hy : takeFirst rest with
    | none =>
      have : rest = [] := by
        by_contra hr
        obtain ⟨_, _, h'⟩ := takeFirst_isSome hr
        rw [hy] at h'; cases h'
      subst this
      exact single x (List.perm_singleton.mp px)
    | some r =>
      obtain ⟨y, others⟩ := r
      have py := takeFirst_perm hy
      have ly := py.length_eq
      simp only [List.length_cons] at ly
      have hm := h.merge px py (by omega) ht
      have hpxy : active.Perm (x :: y :: others) := px.trans (py.cons x)
      obtain ⟨gx, G1, hG1, hgx, hr1⟩ := exists_of_map_perm_cons (hG.trans px)
      obtain ⟨gy, G2, hG2, hgy, hr2⟩ := exists_of_map_perm_cons (hr1.trans py)
      have hGG : G.Perm (gx :: gy :: G2) := hG1.trans (hG2.cons gx)
      -- the trees are the forest's own, below entry `n`
      have own : ∀ g ∈ G, ∃ p e, Rep nodes g.1.index g.2 p ∧ (∀ k ∈ p, k < n) ∧
          memRead nodes g.1.index = some e ∧ e.weight = g.1.weight := by
        intro g hg
        obtain ⟨p, hp⟩ := hrep g hg
        obtain ⟨t', p', e, hr', hk, he, hw⟩ := h.rep (a := g.1) (hG.mem_iff.mp (List.mem_map.mpr ⟨g, hg, rfl⟩))
        obtain ⟨rfl, rfl⟩ := hp.unique hr'
        exact ⟨p, e, hp, hk, he, hw⟩
      obtain ⟨p1, ex, rx, kx, hex, wx⟩ := own gx (hGG.mem_iff.mpr (by simp))
      obtain ⟨p2, ey, ry, ky, hey, wy⟩ := own gy (hGG.mem_iff.mpr (by simp))
      have wx' := rx.weight_eq h.sound leafs _ hex
      have wy' := ry.weight_eq h.sound leafs _ hey
      rw [wx, hgx] at wx'
      rw [wy, hgy] at wy'
      rw [hgx] at rx
      rw [hgy] at ry
      have hix : (BitVec.ofNat 9 x.index).toNat = x.index := by
        have := kx _ rx.root_mem; rw [BitVec.toNat_ofNat]; omega
      have hiy : (BitVec.ofNat 9 y.index).toNat = y.index := by
        have := ky _ ry.root_mem; rw [BitVec.toNat_ofNat]; omega
      have hold : ∀ k, k < n → ∀ v, memRead (memWrite nodes n v) k = memRead nodes k :=
        fun k hk v => memRead_memWrite_other _ _ (by omega)
      have newRep : Rep (memWrite nodes n (internalNode x.index y.index (x.weight + y.weight))) n (.node gx.2 gy.2)
          (n :: (p1 ++ p2)) := by
        refine Rep.node (memRead_memWrite_same _ _ _) rfl ?_ ?_
        · simp only [internalNode, hix]; exact rx.congr fun k hk => hold k (kx k hk) _
        · simp only [internalNode, hiy]; exact ry.congr fun k hk => hold k (ky k hk) _
      have hsum : x.weight.toNat + y.weight.toNat + (others.map (·.weight.toNat)).sum = total := by
        have e := (hpxy.map (·.weight.toNat)).sum_eq
        rw [h.sum] at e
        simp only [List.map_cons, List.sum_cons] at e
        omega
      have hw : (x.weight + y.weight).toNat = x.weight.toNat + y.weight.toNat := by
        rw [BitVec.toNat_add, Nat.mod_eq_of_lt (by omega)]
      have hres := ih (active := ⟨x.weight + y.weight, n⟩ :: others) (n := n + 1)
        (G := (⟨x.weight + y.weight, n⟩, .node gx.2 gy.2) :: G2) hm
        (fun i e he hk => by
          rw [memRead_memWrite] at he
          split at he
          · cases he; cases hk
          · exact leafs i e he hk)
        (by simp only [List.length_cons]; omega) (by simp) (by simp only [List.length_cons]; omega)
        ⟨_, List.mem_cons_self .., rfl⟩ (hr2.cons _)
        (fun g hg => by
          rcases List.mem_cons.mp hg with rfl | hg
          · exact ⟨_, newRep⟩
          · obtain ⟨p, e, hr, hk, -, -⟩ := own g (hGG.mem_iff.mpr (by simp [hg]))
            exact ⟨p, hr.congr fun k hk' => hold k (hk k hk') _⟩)
        (by
          rintro a ha
          simp only [List.cons.injEq] at ha
          obtain ⟨rfl, rfl⟩ := ha
          refine ⟨.node gx.2 gy.2, _, newRep, fun u hu => ?_⟩
          simp only [List.map_cons, List.sum_cons]; omega)
      obtain ⟨t, p, hr, hc⟩ := hres
      refine ⟨t, p, hr, fun u hu => ?_⟩
      -- what one merge saves
      have hfirst : ∀ z ∈ rest, x.weight.toNat ≤ z.weight.toNat := by
        intro z hz
        have := (takeFirst_min hx) z (px.mem_iff.mpr (by simp [hz]))
        exact this
      have hu' : u.weights = x.weight.toNat ::ₘ y.weight.toNat ::ₘ (others.map (·.weight.toNat) : Multiset Nat) := by
        rw [hu, Multiset.coe_eq_coe.mpr (hpxy.map (·.weight.toNat))]
        rfl
      obtain ⟨u', hu1, hu2⟩ := u.merge_lower hu' (hfirst y (py.mem_iff.mpr (by simp))) (by
        intro z hz
        obtain ⟨b, hb, rfl⟩ := List.mem_map.mp (Multiset.mem_coe.mp hz)
        exact takeFirst_min hy b (py.mem_iff.mpr (by simp [hb])))
      have hcu := hc u' (by rw [hu1, List.map_cons, hw]; rfl)
      have hsG := (hGG.map fun g => (weightTree w g.2).cost).sum_eq
      simp only [List.map_cons, List.sum_cons, weightTree, WeightTree.cost] at hcu hsG
      omega

end Sys2Proof.Machine
end

