-- ==== Sys2Proof/Laws/PerInstr.lean ====
section
/-! SUPPORT. The family `EncodedFields`: the word of each command carries that command's fields, and they pass the
checks of 30_encoding.md rules R94 and R95. One lemma per constructor of `Instr`. -/

namespace Sys2Proof.Laws.EncodedFields

/-- The encoding of `i` is well-formed and its fields are those of R92. -/
def Statement (i : Instr) : Prop := fieldsOf (encode i) = i.fields ∧ (fieldsOf (encode i)).wellFormed = true

theorem of_fields {i : Instr} (h : i.fields.wellFormed = true) : Statement i :=
  ⟨fieldsOf_encode i, by rw [fieldsOf_encode]; exact h⟩

theorem nop : Statement .nop := of_fields rfl
theorem reset : Statement .reset := of_fields rfl
theorem rdreg (a : Byte) : Statement (.rdreg a) := of_fields rfl
theorem abort : Statement .abort := of_fields rfl
theorem fclr : Statement .fclr := of_fields rfl
theorem finc (a : Byte) : Statement (.finc a) := of_fields rfl
theorem fset (a : Byte) (v : Word32) : Statement (.fset a v) := of_fields rfl
theorem fget (a : Byte) : Statement (.fget a) := of_fields rfl
theorem build : Statement .build := of_fields rfl
theorem nget (n : Word32) : Statement (.nget n) := of_fields rfl
theorem nwgt (n : Word32) : Statement (.nwgt n) := of_fields rfl
theorem cbgen : Statement .cbgen := of_fields rfl
theorem clen (a : Byte) : Statement (.clen a) := of_fields rfl
theorem cbit (a : Byte) (n : Word32) : Statement (.cbit a n) := of_fields rfl
theorem ser : Statement .ser := of_fields rfl
theorem deser : Statement .deser := of_fields rfl
theorem hload (n : Byte) : Statement (.hload n) := of_fields rfl
theorem hput (b : Byte) : Statement (.hput b) := of_fields rfl
theorem hget (k : Byte) : Statement (.hget k) := of_fields rfl
theorem ehdr : Statement .ehdr := of_fields rfl
theorem eput (a : Byte) : Statement (.eput a) := of_fields rfl
theorem dstart : Statement .dstart := of_fields rfl
theorem dbit (b : Byte) : Statement (.dbit b) := of_fields rfl
theorem dend : Statement .dend := of_fields rfl

end Sys2Proof.Laws.EncodedFields
end

