-- ==== Sys2Proof/Laws/Runs.lean ====
section
/-! SUPPORT. Runs of one command over a list: FINC over an input, EPUT over symbols, DBIT over the bits of codes, HPUT
over header bytes, and what a faulted block does with any run; and DBIT over any bits, which need not end with a code. -/

namespace Sys2Proof.Machine

open Sys2Proof.Safety

variable {s t : State}

theorem runAll_append {is js : List Instr} (h : runAll is s = .next t) : runAll (is ++ js) s = runAll js t := by
  induction is generalizing s with
  | nil => cases h; rfl
  | cons i is ih =>
    simp only [List.cons_append, runAll] at h ⊢
    cases hx : exec i s with
    | next u => rw [hx] at h; exact ih h
    | fault f => rw [hx] at h; cases h
    | refused r => rw [hx] at h; cases h

theorem runAll_cons {i : Instr} {is : List Instr} (h : exec i s = .next t) : runAll (i :: is) s = runAll is t := by
  simp [runAll, h]

/-- The faulted block refuses every command but RESET and RDREG (R229). -/
theorem exec_faulted {i : Instr} (h : s.fault ≠ 0) (hr : i ≠ .reset) (hd : ∀ a, i ≠ .rdreg a) : exec i s = .next s := by
  cases i <;> first | exact running_of_faulted h | exact absurd rfl hr | exact absurd rfl (hd _)

theorem runAll_faulted {is : List Instr} (h : s.fault ≠ 0) (hr : ∀ i ∈ is, i ≠ .reset ∧ ∀ a, i ≠ .rdreg a) :
    runAll is s = .next s := by
  induction is with
  | nil => rfl
  | cons i is ih =>
    rw [runAll_cons (exec_faulted h (hr i (by simp)).1 (hr i (by simp)).2)]
    exact ih fun j hj => hr j (List.mem_cons_of_mem _ hj)

/-! ### FINC over an input -/

theorem exec_finc (h : s.fault = 0) (a : Byte) (hn : freqRead s.freq a.toNat ≠ 0xFFFFFFFF) :
    exec (.finc a) s = .next (s.setFreq (freqWrite s.freq a.toNat (freqRead s.freq a.toNat + 1))) :=
  (running_of_ok h).trans (check_pass hn)

/-- The first pass counts the input (R131), while no counter overflows. -/
theorem runAll_finc {input : List Byte} (h : s.fault = 0)
    (hc : ∀ a, (freqRead s.freq a.toNat).toNat + input.count a < 2 ^ 32) :
    ∃ m, runAll (input.map .finc) s = .next (s.setFreq m) ∧
      ∀ a : Byte, (freqRead m a.toNat).toNat = (freqRead s.freq a.toNat).toNat + input.count a := by
  induction input generalizing s with
  | nil => exact ⟨s.freq, rfl, fun a => by simp⟩
  | cons b input ih =>
    have hb := hc b
    simp only [List.count_cons_self] at hb
    have hne : freqRead s.freq b.toNat ≠ 0xFFFFFFFF := fun he => by
      rw [he] at hb; simp at hb; omega
    have hcount : ∀ a : Byte, (freqRead (freqWrite s.freq b.toNat (freqRead s.freq b.toNat + 1)) a.toNat).toNat +
        input.count a = (freqRead s.freq a.toNat).toNat + (b :: input).count a := by
      intro a
      rw [freqRead_freqWrite, List.count_cons]
      by_cases hab : a = b
      · subst hab
        rw [if_pos rfl, BitVec.toNat_add]
        simp only [beq_self_eq_true, if_true]
        rw [Nat.mod_eq_of_lt (by simp; omega)]
        simp; omega
      · have hba : ¬ b = a := fun h => hab h.symm
        rw [if_neg (fun heq => hab (BitVec.eq_of_toNat_eq heq))]
        simp [hba]
    obtain ⟨m, hm, hr⟩ := ih (s := s.setFreq (freqWrite s.freq b.toNat (freqRead s.freq b.toNat + 1))) h
      (fun a => by rw [State.setFreq_freq, hcount a]; exact hc a)
    refine ⟨m, ?_, fun a => by rw [hr a, State.setFreq_freq, hcount a]⟩
    rw [List.map_cons, runAll_cons (exec_finc h b hne), hm]
    rfl

/-- The first pass stops at a counter that would overflow (R131). -/
theorem runAll_finc_overflow {input : List Byte} (h : s.fault = 0)
    (hc : ∃ a, 2 ^ 32 ≤ (freqRead s.freq a.toNat).toNat + input.count a) :
    ∃ t, runAll (input.map .finc) s = .next t ∧ t.fault = 0x10 := by
  induction input generalizing s with
  | nil => obtain ⟨a, ha⟩ := hc; have := (freqRead s.freq a.toNat).isLt; simp at ha; omega
  | cons b input ih =>
    by_cases hne : freqRead s.freq b.toNat = 0xFFFFFFFF
    · have hx : exec (.finc b) s = .next (raise .freqOvf (encode (.finc b)) s) :=
        (running_of_ok h).trans (check_fail (not_not.mpr hne))
      refine ⟨_, ?_, (rfl : (raise .freqOvf (encode (.finc b)) s).fault = 0x10)⟩
      rw [List.map_cons, runAll_cons hx]
      exact runAll_faulted (by decide : ErrorCode.freqOvf.code ≠ 0) fun i hi => by
        obtain ⟨a, -, rfl⟩ := List.mem_map.mp hi
        exact ⟨by simp, by simp⟩
    · rw [List.map_cons, runAll_cons (exec_finc h b hne)]
      refine ih h ?_
      obtain ⟨a, ha⟩ := hc
      refine ⟨a, ?_⟩
      rw [State.setFreq_freq, freqRead_freqWrite]
      rw [List.count_cons] at ha
      by_cases hab : a = b
      · subst hab
        have := (freqRead s.freq a.toNat).isLt
        have hlt : (freqRead s.freq a.toNat).toNat ≠ 4294967295 := fun he => hne (BitVec.eq_of_toNat_eq he)
        rw [if_pos rfl, BitVec.toNat_add]
        simp only [beq_self_eq_true, if_true] at ha
        rw [Nat.mod_eq_of_lt (by simp; omega)]
        simp; omega
      · have hba : ¬ b = a := fun h => hab h.symm
        rw [if_neg (fun heq => hab (BitVec.eq_of_toNat_eq heq))]
        simpa [hba] using ha

/-! ### EPUT over symbols -/

/-- The second pass emits the codes of its symbols, one after the other (R103, R191). -/
theorem runAll_eput {input : List Byte} {codes : List (List Bool)} {cb : Memory CbEntry} (h : s.fault = 0)
    (hv : s.cbValid = true) (hcb : s.cb = cb)
    (hc : List.Forall₂ (fun a c => ∃ e, memRead cb a.toNat = some e ∧ e.valid = true ∧ e.len ≠ 0 ∧ e.bits = c)
      input codes) : runAll (input.map .eput) s = .next (s.emitBits codes.flatten) := by
  induction hc generalizing s with
  | nil => simp [runAll, State.emitBits]
  | @cons a c input codes hac _ ih =>
    obtain ⟨e, he, hev, hel, rfl⟩ := hac
    have hx : exec (.eput a) s = .next (s.emitBits e.bits) := by
      have hb : codeBits s.cb a = .ok e.bits := by
        rw [hcb]
        simp only [codeBits, readEntry_of_some he]
        rw [if_neg (by rintro (h | h); exacts [absurd hev (by simp [h]), hel h])]
      exact ((running_of_ok h).trans (check_pass hv)).trans (by rw [hb]; rfl)
    rw [List.map_cons, runAll_cons hx, ih (s := s.emitBits e.bits) h hv hcb]
    simp [State.emitBits]

/-! ### DBIT over codes -/

theorem exec_dbit_bit {bit : Bool} {e d : Node} (h : s.fault = 0) (ha : s.decActive = true) (hh : s.decHalt = false)
    (he : memRead s.node s.cur.toNat = some e)
    (hd : memRead s.node (if bit then e.right else e.left).toNat = some d) :
    exec (.dbit (bitByte bit)) s = .next (match d.kind with
      | .leaf => { s with cur := s.root, obytes := s.obytes ++ [d.sym] }
      | .internal => { s with cur := if bit then e.right else e.left }) := by
  have hc : e.child (bitByte bit) = if bit then e.right else e.left := by cases bit <;> rfl
  have hr : bitOperand (bitByte bit) := by cases bit <;> decide
  refine ((running_of_ok h).trans ((check_pass ha).trans (check_pass hr))).trans ?_
  rw [if_neg (by simp [hh])]
  simp only [walkBit, readEntry_of_some he, hc, readEntry_of_some hd]
  cases d.kind <;> simp [State.setCur, State.emitBytes]

/-- The bits of a code lead from the node to its leaf and back to the root, and emit its symbol (R201, R104). -/
theorem Rep.walk {nodes : Memory Node} {i : Nat} {tr : CodeTree} {p : List Nat} (hr : Rep nodes i tr p) :
    ∀ e ∈ tr.codes, e.2 ≠ [] → ∀ s : State, s.node = nodes → s.fault = 0 → s.decActive = true → s.decHalt = false →
      s.cur.toNat = i → runAll (e.2.map fun b => .dbit (bitByte b)) s =
        .next { s with cur := s.root, obytes := s.obytes ++ [e.1] } := by
  induction hr with
  | leaf => intro e he hne; simp only [CodeTree.codes, List.mem_singleton] at he; subst he; exact absurd rfl hne
  | @node i n l r p q hn hk hl hr ihl ihr =>
    intro e he _ s hs hf ha hh hc
    have step : ∀ (bit : Bool) (sub : CodeTree) (ps : List Nat) (rest : List Bool) (x : Byte),
        Rep nodes (if bit then n.right else n.left).toNat sub ps → (x, rest) ∈ sub.codes →
        (∀ e ∈ sub.codes, e.2 ≠ [] → ∀ s : State, s.node = nodes → s.fault = 0 → s.decActive = true →
          s.decHalt = false → s.cur.toNat = (if bit then n.right else n.left).toNat →
          runAll (e.2.map fun b => .dbit (bitByte b)) s =
            .next { s with cur := s.root, obytes := s.obytes ++ [e.1] }) →
        runAll ((bit :: rest).map fun b => .dbit (bitByte b)) s =
          .next { s with cur := s.root, obytes := s.obytes ++ [x] } := by
      intro bit sub ps rest x hsub hx ih
      rw [List.map_cons]
      cases hsub with
      | @leaf _ d hd hdk =>
        simp only [CodeTree.codes, List.mem_singleton, Prod.mk.injEq] at hx
        obtain ⟨rfl, rfl⟩ := hx
        rw [runAll_cons (exec_dbit_bit hf ha hh (by rw [hs, hc]; exact hn) (by rw [hs]; exact hd))]
        simp [hdk, runAll]
      | @node _ d _ _ _ _ hd hdk hl' hr' =>
        rw [runAll_cons (exec_dbit_bit hf ha hh (by rw [hs, hc]; exact hn) (by rw [hs]; exact hd))]
        simp only [hdk]
        exact ih (x, rest) hx (CodeTree.codes_ne_nil _ _ _ hx) _ hs hf ha hh rfl
    simp only [CodeTree.codes, List.mem_append, List.mem_map] at he
    rcases he with ⟨⟨x, rest⟩, hm, rfl⟩ | ⟨⟨x, rest⟩, hm, rfl⟩
    · exact step false l p rest x (by simpa using hl) hm (by simpa using ihl)
    · exact step true r q rest x (by simpa using hr) hm (by simpa using ihr)

/-- A walk at an internal root takes codes to their symbols, one after the other (R104, R201). -/
theorem runAll_dbit {tr l r : CodeTree} {p : List Nat} {input : List Byte} {codes : List (List Bool)}
    {nodes : Memory Node} {root : NodeIndex} (hr : Rep nodes root.toNat tr p) (hnode : s.node = nodes)
    (hroot : s.root = root) (hi : tr = .node l r) (h : s.fault = 0) (ha : s.decActive = true)
    (hh : s.decHalt = false) (hcur : s.cur = s.root) (hc : List.Forall₂ (fun a c => (a, c) ∈ tr.codes) input codes) :
    runAll (codes.flatten.map fun b => .dbit (bitByte b)) s = .next { s with obytes := s.obytes ++ input } := by
  induction hc generalizing s with
  | nil => simp [runAll]
  | @cons a c input codes hac _ ih =>
    have hne : c ≠ [] := by subst hi; exact CodeTree.codes_ne_nil _ _ _ hac
    have hw := hr.walk (a, c) hac hne s hnode h ha hh (by rw [hcur, hroot])
    rw [List.flatten_cons, List.map_append, runAll_append hw, ih (s := { s with cur := s.root, obytes := s.obytes ++ [a] })
      hnode hroot h ha hh rfl]
    simp [hcur]

/-! ### Data bits that need not end with a code -/

/-- Bits that are not all on one path to a leaf begin with a code; else they are the first part of a code. -/
theorem CodeTree.code_or_part (t : CodeTree) (bs : List Bool) :
    (∃ x ∈ t.codes, ∃ rest, bs = x.2 ++ rest) ∨ ∃ x ∈ t.codes, bs <+: x.2 ∧ bs ≠ x.2 := by
  induction t generalizing bs with
  | leaf v => exact .inl ⟨_, List.mem_singleton.mpr rfl, bs, rfl⟩
  | node l r ihl ihr =>
    have mem : ∀ (b : Bool) x, x ∈ (if b then r else l).codes → (x.1, b :: x.2) ∈ (CodeTree.node l r).codes := by
      intro b x hx
      simp only [CodeTree.codes, List.mem_append, List.mem_map]
      cases b
      · exact .inl ⟨x, by simpa using hx, rfl⟩
      · exact .inr ⟨x, by simpa using hx, rfl⟩
    cases bs with
    | nil =>
      right
      obtain ⟨x, hx⟩ : ∃ x, x ∈ l.codes := by
        rcases ihl [] with ⟨x, hx, -⟩ | ⟨x, hx, -⟩ <;> exact ⟨x, hx⟩
      exact ⟨_, mem false x (by simpa using hx), List.nil_prefix, by simp⟩
    | cons b bs =>
      have ih : (∃ x ∈ (if b then r else l).codes, ∃ rest, bs = x.2 ++ rest) ∨
          ∃ x ∈ (if b then r else l).codes, bs <+: x.2 ∧ bs ≠ x.2 := by
        cases b
        · exact ihl bs
        · exact ihr bs
      rcases ih with ⟨x, hx, rest, rfl⟩ | ⟨x, hx, hp, hne⟩
      · exact .inl ⟨_, mem b x hx, rest, rfl⟩
      · exact .inr ⟨_, mem b x hx, by simpa [List.cons_prefix_cons] using hp, by simpa using hne⟩

/-- With an internal root, any bits are codes one after the other and a last part of a code, which may be empty. -/
theorem CodeTree.codes_and_part (l r : CodeTree) (bs : List Bool) : ∃ (input : List Byte) (codes : List (List Bool))
    (part : List Bool), bs = codes.flatten ++ part ∧
      List.Forall₂ (fun a code => (a, code) ∈ (CodeTree.node l r).codes) input codes ∧
      ∃ x ∈ (CodeTree.node l r).codes, part <+: x.2 ∧ part ≠ x.2 := by
  induction hn : bs.length using Nat.strongRecOn generalizing bs with
  | ind n ih =>
    rcases CodeTree.code_or_part (.node l r) bs with ⟨x, hx, rest, rfl⟩ | h
    · have hpos := List.length_pos_of_ne_nil (CodeTree.codes_ne_nil l r x hx)
      obtain ⟨input, codes, part, rfl, hc, hp⟩ := ih rest.length (by rw [List.length_append] at hn; omega) rest rfl
      exact ⟨x.1 :: input, x.2 :: codes, part, by simp, .cons hx hc, hp⟩
    · exact ⟨[], [], bs, rfl, .nil, h⟩

/-- A first part of a code leads to an internal node on its path and emits nothing (R201). -/
theorem Rep.walk_part {nodes : Memory Node} {i : Nat} {tr : CodeTree} {p : List Nat} (hr : Rep nodes i tr p) :
    ∀ x ∈ tr.codes, ∀ part, part <+: x.2 → part ≠ x.2 → ∀ s : State, s.node = nodes → s.fault = 0 →
      s.decActive = true → s.decHalt = false → s.cur.toNat = i →
      ∃ c : NodeIndex, runAll (part.map fun b => .dbit (bitByte b)) s = .next { s with cur := c } ∧ c.toNat ∈ p ∧
        (part = [] → c = s.cur) ∧ (part ≠ [] → c.toNat ∈ p.tail) := by
  induction hr with
  | leaf =>
    intro x hx part hp hne
    simp only [CodeTree.codes, List.mem_singleton] at hx
    subst hx
    exact absurd (List.prefix_nil.mp hp) hne
  | @node i n l r p q hn hk hl hr ihl ihr =>
    intro x hx part hp hne s hs hf ha hh hc
    cases part with
    | nil => exact ⟨s.cur, rfl, by simp [hc], fun _ => rfl, fun h => absurd rfl h⟩
    | cons b bs =>
      have step : ∀ (sub : CodeTree) (ps : List Nat) (path : List Bool) (a : Byte),
          Rep nodes (if b then n.right else n.left).toNat sub ps → (a, path) ∈ sub.codes → bs <+: path → bs ≠ path →
          (∀ x ∈ sub.codes, ∀ part, part <+: x.2 → part ≠ x.2 → ∀ s : State, s.node = nodes → s.fault = 0 →
            s.decActive = true → s.decHalt = false → s.cur.toNat = (if b then n.right else n.left).toNat →
            ∃ c : NodeIndex, runAll (part.map fun b => .dbit (bitByte b)) s = .next { s with cur := c } ∧ c.toNat ∈ ps ∧
              (part = [] → c = s.cur) ∧ (part ≠ [] → c.toNat ∈ ps.tail)) →
          ∃ c : NodeIndex, runAll ((b :: bs).map fun b => .dbit (bitByte b)) s = .next { s with cur := c } ∧
            c.toNat ∈ ps := by
        intro sub ps path a hsub hmem hpre hne' ih
        rw [List.map_cons]
        cases hsub with
        | @leaf _ d hd hdk =>
          simp only [CodeTree.codes, List.mem_singleton, Prod.mk.injEq] at hmem
          obtain ⟨-, rfl⟩ := hmem
          exact absurd (List.prefix_nil.mp hpre) hne'
        | @node _ d _ _ _ _ hd hdk hl' hr' =>
          rw [runAll_cons (exec_dbit_bit hf ha hh (by rw [hs, hc]; exact hn) (by rw [hs]; exact hd))]
          simp only [hdk]
          obtain ⟨c, h1, h2, -⟩ := ih (a, path) hmem bs hpre hne' { s with cur := if b then n.right else n.left } hs hf ha hh rfl
          exact ⟨c, h1, h2⟩
      simp only [CodeTree.codes, List.mem_append, List.mem_map] at hx
      rcases hx with ⟨⟨a, path⟩, hm, rfl⟩ | ⟨⟨a, path⟩, hm, rfl⟩ <;>
        (obtain ⟨rfl, hp'⟩ := List.cons_prefix_cons.mp hp; have hne' : bs ≠ path := fun h => hne (by rw [h]))
      · obtain ⟨c, h1, h2⟩ := step l p path a (by simpa using hl) hm hp' hne' (by simpa using ihl)
        exact ⟨c, h1, by simp [h2], fun h => by simp at h, fun _ => by simp [h2]⟩
      · obtain ⟨c, h1, h2⟩ := step r q path a (by simpa using hr) hm hp' hne' (by simpa using ihr)
        exact ⟨c, h1, by simp [h2], fun h => by simp at h, fun _ => by simp [h2]⟩

/-- A halted walk discards every bit (R203). -/
theorem runAll_dbit_halted {bits : List Bool} (h : s.fault = 0) (ha : s.decActive = true) (hh : s.decHalt = true) :
    runAll (bits.map fun b => .dbit (bitByte b)) s = .next s := by
  induction bits with
  | nil => rfl
  | cons b bits ih =>
    have hx : exec (.dbit (bitByte b)) s = .next s :=
      (running_of_ok h).trans ((check_pass ha).trans ((check_pass (by cases b <;> decide)).trans (if_pos hh)))
    rw [List.map_cons, runAll_cons hx, ih]

/-! ### HPUT over header bytes -/

/-- A declared header is loaded byte by byte (R174, R175). -/
theorem runAll_hput {bs : List Byte} (h : s.fault = 0) (hl : s.hfill.toNat + bs.length ≤ s.hlen.toNat) :
    ∃ m, runAll (bs.map .hput) s = .next (s.setHeader m s.hlen (s.hfill + BitVec.ofNat 8 bs.length)
        (if bs = [] then s.hdrValid else decide (s.hfill.toNat + bs.length = s.hlen.toNat))) ∧
      ∀ k, memRead m k = if k < s.hfill.toNat then memRead s.hdr k
        else if k < s.hfill.toNat + bs.length then bs[k - s.hfill.toNat]? else memRead s.hdr k := by
  induction bs generalizing s with
  | nil =>
    refine ⟨s.hdr, by simp [runAll, State.setHeader], fun k => ?_⟩
    simp only [List.length_nil, Nat.add_zero]
    split <;> rfl
  | cons b bs ih =>
    have hlt := s.hlen.isLt
    simp only [List.length_cons] at hl
    have hx : exec (.hput b) s = .next (s.setHeader (memWrite s.hdr s.hfill.toNat b) s.hlen (s.hfill + 1)
        (headerComplete (s.hfill + 1) s.hlen)) := by
      have hne : s.hfill ≠ s.hlen := fun he => by rw [he] at hl; omega
      refine ((running_of_ok h).trans (check_pass hne)).trans ?_
      rw [if_pos (by simp only [Config.hdrCap]; omega)]; rfl
    have hf1 : (s.hfill + 1).toNat = s.hfill.toNat + 1 := by
      rw [BitVec.toNat_add]; simp; omega
    obtain ⟨m, hm, hr⟩ := ih (s := s.setHeader (memWrite s.hdr s.hfill.toNat b) s.hlen (s.hfill + 1)
      (headerComplete (s.hfill + 1) s.hlen)) h (by simp only [State.setHeader]; rw [hf1]; omega)
    refine ⟨m, ?_, fun k => ?_⟩
    · rw [List.map_cons, runAll_cons hx, hm]
      simp only [State.setHeader, Host.Outcome.next.injEq, State.mk.injEq, true_and, hf1]
      refine ⟨?_, ?_⟩
      · cases bs with
        | nil =>
          simp only [if_true, List.length_nil, headerComplete]
          rw [Bool.eq_iff_iff]
          simp only [beq_iff_eq, if_neg (List.cons_ne_nil b []), decide_eq_true_eq, List.length_cons, List.length_nil]
          rw [← BitVec.toNat_inj, hf1]
        | cons b' bs => simp only [if_neg (List.cons_ne_nil _ _)]; congr 1; simp; omega
      · refine ⟨BitVec.eq_of_toNat_eq ?_, trivial⟩
        simp only [BitVec.toNat_add, BitVec.toNat_ofNat, List.length_cons]
        simp
        omega
    · rw [hr k]
      simp only [State.setHeader, hf1, List.length_cons, memRead_memWrite]
      by_cases h1 : k < s.hfill.toNat
      · rw [if_pos (by omega), if_neg (by omega), if_pos h1]
      · by_cases h2 : k = s.hfill.toNat
        · subst h2; simp
        · rw [if_neg (by omega), if_neg h1]
          by_cases h3 : k < s.hfill.toNat + 1 + bs.length
          · rw [if_pos h3, if_pos (by omega)]
            rw [show k - s.hfill.toNat = (k - (s.hfill.toNat + 1)) + 1 by omega, List.getElem?_cons_succ]
          · rw [if_neg h3, if_neg h2, if_neg (by omega)]

end Sys2Proof.Machine
end

