-- ==== Sys2Proof/Tests/Slice0.lean ====
section
/-! SUPPORT. The model's own tests: ill-formed words the checks refuse, a written-out word for every constructor, one-step
tests with the expected values of spec/95_test_vectors.md and of the rules' examples, and a witness for the hypotheses of
every obligation that has some. -/

namespace Sys2Proof.Tests

open Sys2Proof.Machine Sys2Proof.Safety

/-- The next state of an outcome, if there is one. -/
def nextOf : Host.Outcome State Fault Refusal → Option State
  | .next t => some t
  | .fault _ => none
  | .refused _ => none

/-- The next state of a command, if there is one. -/
def next (i : Instr) (s : State) : Option State := nextOf (exec i s)

/-! ### Well-formedness: each check refuses an ill-formed word -/

theorem test_wf_unknown_opcode : Fields.opcodeKnown ⟨0x04, 0, 0⟩ = false ∧ Fields.wellFormed ⟨0x04, 0, 0⟩ = false := by decide
theorem test_wf_nonzero_a : Fields.aAllowed ⟨0x20, 1, 0⟩ = false ∧ Fields.wellFormed ⟨0x20, 1, 0⟩ = false := by decide
theorem test_wf_nonzero_imm : Fields.immAllowed ⟨0x00, 0, 1⟩ = false ∧ Fields.wellFormed ⟨0x00, 0, 1⟩ = false := by decide
theorem test_wf_accepts : Fields.wellFormed ⟨0x12, 0x41, 1000⟩ = true ∧ Fields.wellFormed ⟨0x21, 0, 8⟩ = true := by decide

/-! ### Decoding: a word of every command, written from R90 and R92 -/

theorem test_decode_control : decode 0x000000000000 = .ok .nop ∧ decode 0x010000000000 = .ok .reset ∧
    decode 0x020A00000000 = .ok (.rdreg 10) ∧ decode 0x030000000000 = .ok .abort := by decide
theorem test_decode_frequency : decode 0x100000000000 = .ok .fclr ∧ decode 0x114100000000 = .ok (.finc 0x41) ∧
    decode 0x1241000003E8 = .ok (.fset 0x41 0x3E8) ∧ decode 0x134100000000 = .ok (.fget 0x41) := by decide
theorem test_decode_tree : decode 0x200000000000 = .ok .build ∧ decode 0x210000000008 = .ok (.nget 8) ∧
    decode 0x220000000005 = .ok (.nwgt 5) := by decide
theorem test_decode_codebook : decode 0x280000000000 = .ok .cbgen ∧ decode 0x294200000000 = .ok (.clen 0x42) ∧
    decode 0x2A4200000001 = .ok (.cbit 0x42 1) := by decide
theorem test_decode_header : decode 0x300000000000 = .ok .ser ∧ decode 0x310000000000 = .ok .deser ∧
    decode 0x320900000000 = .ok (.hload 9) ∧ decode 0x33FF00000000 = .ok (.hput 0xFF) ∧
    decode 0x340800000000 = .ok (.hget 8) := by decide
theorem test_decode_streams : decode 0x400000000000 = .ok .ehdr ∧ decode 0x415A00000000 = .ok (.eput 0x5A) ∧
    decode 0x500000000000 = .ok .dstart ∧ decode 0x510100000000 = .ok (.dbit 1) ∧
    decode 0x520000000000 = .ok .dend := by decide
/-- T2 to T5, T9b, T72. -/
theorem test_decode_illegal : decode 0x000000000001 = .error .nonzeroImm ∧ decode 0x040000000000 = .error .unknownOpcode ∧
    decode 0xFFFFFFFFFFFF = .error .unknownOpcode ∧ decode 0x200100000000 = .error .nonzeroA ∧
    decode 0x2101000000FF = .error .nonzeroA ∧ decode 0x020200000001 = .error .nonzeroImm := by decide
/-- The whole operand fields reach the command: every bit of `imm` and of `a`. -/
theorem test_decode_full_operands : decode 0x12FFFFFFFFFF = .ok (.fset 0xFF 0xFFFFFFFF) ∧
    decode 0x2100FFFFFFFF = .ok (.nget 0xFFFFFFFF) ∧ decode 0x2A8080000001 = .ok (.cbit 0x80 0x80000001) := by decide
/-- R64: most significant byte first. -/
theorem test_decode_stored : decodeBytes [0x12, 0x41, 0x00, 0x00, 0x03, 0xE8, 0x77] = .ok (.fset 0x41 1000, [0x77]) := by decide
theorem test_decode_table_word : decodeTableWord 48 0x1241000003E8 = some (.fset 0x41 1000) ∧
    decodeTableWord 48 0x040000000000 = none := by decide
theorem test_fetch_word : nextOf (step (State.reset.withFetchWord 48 0x020000000000)) =
    some { State.reset with result := 0x48430107 } := by decide

/-! ### The states of the tests -/

/-- FREQ of R146 and T10. -/
def counts : Memory Word32 := [(0x41, 5), (0x42, 2), (0x43, 1), (0x44, 1), (0x52, 2)]

/-- NODE of T10. -/
def treeNodes : List Node :=
  [ ⟨.leaf, 0x41, 0, 0, 5⟩, ⟨.leaf, 0x42, 0, 0, 2⟩, ⟨.leaf, 0x43, 0, 0, 1⟩, ⟨.leaf, 0x44, 0, 0, 1⟩, ⟨.leaf, 0x52, 0, 0, 2⟩,
    ⟨.internal, 0, 2, 3, 2⟩, ⟨.internal, 0, 1, 4, 4⟩, ⟨.internal, 0, 5, 6, 6⟩, ⟨.internal, 0, 0, 7, 11⟩ ]

/-- HDR of T10. -/
def headerList : List Byte := [0xFF, 0x41, 0xFF, 0xFF, 0x43, 0x44, 0xFF, 0x42, 0x52]

/-- NODE of T40. -/
def parsedNodes : List Node :=
  [ ⟨.internal, 0, 1, 2, 0⟩, ⟨.leaf, 0x41, 0, 0, 0⟩, ⟨.internal, 0, 3, 6, 0⟩, ⟨.internal, 0, 4, 5, 0⟩,
    ⟨.leaf, 0x43, 0, 0, 0⟩, ⟨.leaf, 0x44, 0, 0, 0⟩, ⟨.internal, 0, 7, 8, 0⟩, ⟨.leaf, 0x42, 0, 0, 0⟩, ⟨.leaf, 0x52, 0, 0, 0⟩ ]

/-- The abstract tree of T10 and T40. -/
def abracadabra : CodeTree :=
  .node (.leaf 0x41) (.node (.node (.leaf 0x43) (.leaf 0x44)) (.node (.leaf 0x42) (.leaf 0x52)))

/-- CB of P1: the codes of R160's example, in rising order of the symbols. -/
def codebook : Memory CbEntry :=
  (List.range 256).map fun a => (a,
    if a = 0x41 then codeEntry [false] else if a = 0x42 then codeEntry [true, true, false]
    else if a = 0x43 then codeEntry [true, false, false] else if a = 0x44 then codeEntry [true, false, true]
    else if a = 0x52 then codeEntry [true, true, true] else { valid := false, len := 0, bits := [] })

/-- The block with the counters of T10. -/
def counted : State := State.reset.setFreq counts
/-- T10 after BUILD. -/
def built : State := counted.installTree (memOfList 0 treeNodes) 9 8
/-- T10 after BUILD and CBGEN. -/
def coded : State := built.installCodebook codebook
/-- T10 after BUILD, CBGEN and SER. -/
def headed : State := coded.setHeader (memOfList 0 headerList) 9 9 true
/-- A block with a header of `n` declared bytes, of which `bs` are loaded. -/
def loading (n : Byte) (bs : List Byte) : State :=
  State.reset.setHeader (memOfList 0 bs) n (BitVec.ofNat 8 bs.length) (decide (n = BitVec.ofNat 8 bs.length))
/-- P2 after DESER. -/
def parsed : State := (loading 9 headerList).installTree (memOfList 0 parsedNodes) 9 0
/-- P2 in a walk, at the root. -/
def walking : State := parsed.setWalk 0 true false false
/-- P2 in a walk, part-way in a code. -/
def partway : State := parsed.setWalk 2 true false false
/-- T59a after DESER: a tree with a leaf for its root. -/
def leafTree : State := (loading 1 [0x41]).installTree [(0, ⟨.leaf, 0x41, 0, 0, 0⟩)] 1 0
/-- T59a after DSTART. -/
def halted : State := leafTree.setWalk 0 true true false
/-- T69b after DESER: a repeated symbol. -/
def repeated : State :=
  (loading 3 [0xFF, 0x41, 0x41]).installTree
    [(0, ⟨.internal, 0, 1, 2, 0⟩), (1, ⟨.leaf, 0x41, 0, 0, 0⟩), (2, ⟨.leaf, 0x41, 0, 0, 0⟩)] 3 0
/-- T34 after BUILD: a leaf with the symbol `SENTINEL`. -/
def sentinelTree : State :=
  (State.reset.setFreq [(0x41, 1), (0xFF, 1)]).installTree
    [(0, ⟨.leaf, 0x41, 0, 0, 1⟩), (1, ⟨.leaf, 0xFF, 0, 0, 1⟩), (2, ⟨.internal, 0, 0, 1, 2⟩)] 3 2
/-- T32's counters: 129 symbols. -/
def manyCounts : Memory Word32 := (List.range 129).map fun a => (a, 1)
/-- The block with the counters of T32. -/
def manyCounted : State := State.reset.setFreq manyCounts
/-- T32 after BUILD: a tree too large for a header. -/
def largeTree : State :=
  manyCounted.installTree (buildTree Config.huffcore manyCounted.freq).1
    (buildTree Config.huffcore manyCounted.freq).2 ((buildTree Config.huffcore manyCounted.freq).2 - 1)
/-- A faulted block (T9). -/
def faulted : State := raise .ioAbort 0x030000000000 State.reset

/-! ### One step each -/

/-- T1. -/
theorem test_nop : nextOf (step (present State.reset 0x000000000000)) = some State.reset := by decide
/-- T4. -/
theorem test_illegal : nextOf (execWord 0xFFFFFFFFFFFF State.reset) =
    some { State.reset with fault := 0x01, finfo := 0xFFFFFFFFFFFF } := by decide
/-- T74, R232. -/
theorem test_reset : next .reset { faulted with freq := counts, obits := [true], nnodes := 9 } = some State.reset := by decide
/-- T49a and P1: STATUS = 0x07, CUR = 8. -/
theorem test_rdreg : (next (.rdreg 1) headed).map (·.result) = some 0x07 ∧
    (next (.rdreg 8) headed).map (·.result) = some 8 := by decide
/-- T8, T9: RDREG 10 faults in the running block and is refused in the faulted one. -/
theorem test_rdreg_range : next (.rdreg 10) State.reset = some { State.reset with fault := 0x03, finfo := 0x020A00000000 } ∧
    next (.rdreg 10) faulted = some faulted ∧ (next (.rdreg 1) faulted).map (·.result) = some 0x40 := by decide
/-- T9. -/
theorem test_abort : next .abort State.reset = some { State.reset with fault := 0x50, finfo := 0x030000000000 } := by decide
/-- T70: the first fault is kept. -/
theorem test_abort_refused : next .abort (raise .hdrShort 0x310000000000 State.reset) =
    some (raise .hdrShort 0x310000000000 State.reset) := by decide
theorem test_fclr : (next .fclr counted).map (·.freq) = some [] := by decide
/-- T24, and R131's example. -/
theorem test_finc : (next (.finc 0xFF) State.reset).map (·.freq) = some [(0xFF, 1)] ∧
    (next (.finc 0x41) (State.reset.setFreq [(0x41, 1)])).map (·.freq) = some [(0x41, 2)] := by decide
/-- T22. -/
theorem test_finc_overflow : next (.finc 0x41) (State.reset.setFreq [(0x41, 0xFFFFFFFF)]) =
    some { State.reset.setFreq [(0x41, 0xFFFFFFFF)] with fault := 0x10, finfo := 0x114100000000 } := by decide
/-- T21; a zero removes the listed counter (T25). -/
theorem test_fset : (next (.fset 0x41 1000) State.reset).map (·.freq) = some [(0x41, 1000)] ∧
    (next (.fset 0x41 0) counted).map (·.freq) = some [(0x42, 2), (0x43, 1), (0x44, 1), (0x52, 2)] := by decide
/-- R133's example. -/
theorem test_fget : (next (.fget 0x42) (State.reset.setFreq [(0x42, 7)])).map (·.result) = some 7 ∧
    (next (.fget 0x43) (State.reset.setFreq [(0x42, 7)])).map (·.result) = some 0 := by decide
/-- T10. -/
theorem test_build : buildTree Config.huffcore counts = (memOfList 0 treeNodes, 9) ∧ next .build counted = some built := by
  set_option maxRecDepth 100000 in decide
/-- T17: a leaf before an internal node of the same weight. -/
theorem test_build_tie : ((next .build (State.reset.setFreq [(0x61, 2), (0x62, 3), (0x63, 1)])).map (·.node)) = some
    [(0, ⟨.leaf, 0x61, 0, 0, 2⟩), (1, ⟨.leaf, 0x62, 0, 0, 3⟩), (2, ⟨.leaf, 0x63, 0, 0, 1⟩), (3, ⟨.internal, 0, 2, 0, 3⟩),
      (4, ⟨.internal, 0, 1, 3, 6⟩)] := by set_option maxRecDepth 100000 in decide
/-- T41, and R148's example. -/
theorem test_nget : (next (.nget 8) headed).map (·.result) = some 0x4000007 ∧
    (next (.nget 4) headed).map (·.result) = some 0x1480000 := by decide
/-- T42, T9a. -/
theorem test_nget_faults : (next (.nget 9) headed).map (fun t => (t.fault, t.finfo)) = some (0x03, 0x210000000009) ∧
    (next (.nget 0) State.reset).map (fun t => (t.fault, t.finfo)) = some (0x02, 0x210000000000) := by decide
/-- T43, T40. -/
theorem test_nwgt : (next (.nwgt 8) headed).map (·.result) = some 11 ∧ (next (.nwgt 5) headed).map (·.result) = some 2 ∧
    (next (.nwgt 0) parsed).map (·.result) = some 0 := by decide
/-- R160's example. -/
theorem codebookOf_built : codebookOf built.node 8 = .ok codebook := by set_option maxRecDepth 100000 in rfl
theorem test_cbgen : next .cbgen built = some coded := by set_option maxRecDepth 100000 in rfl
/-- T69b. -/
theorem test_cbgen_dup : next .cbgen repeated = some (raise .dupSym 0x280000000000 repeated) := by
  set_option maxRecDepth 100000 in rfl
/-- T44. -/
theorem test_clen : (next (.clen 0x42) coded).map (·.result) = some 0x103 ∧
    (next (.clen 0x41) coded).map (·.result) = some 0x101 ∧ (next (.clen 0x5A) coded).map (·.result) = some 0x000 := by
  set_option maxRecDepth 100000 in decide
/-- T45. -/
theorem test_cbit : (next (.cbit 0x42 1) coded).map (·.result) = some 1 ∧
    (next (.cbit 0x42 2) coded).map (·.result) = some 0 := by set_option maxRecDepth 100000 in decide
/-- T46, T47. -/
theorem test_cbit_range : (next (.cbit 0x42 3) coded).map (·.fault) = some 0x03 ∧
    (next (.cbit 0x5A 0) coded).map (·.fault) = some 0x03 := by set_option maxRecDepth 100000 in decide
/-- T10. -/
theorem test_ser : next .ser coded = some headed := by set_option maxRecDepth 100000 in rfl
/-- T34. -/
theorem test_ser_sentinel : next .ser sentinelTree = some (raise .sentLeaf 0x300000000000 sentinelTree) := by
  set_option maxRecDepth 100000 in decide
/-- T40. -/
theorem test_deser : next .deser (loading 9 headerList) = some parsed := by set_option maxRecDepth 100000 in decide
/-- T60, T62, T64, T65, T66, T67. -/
theorem test_deser_faults : (next .deser State.reset).map (·.fault) = some 0x20 ∧
    (next .deser (loading 2 [0xFF, 0x41])).map (·.fault) = some 0x21 ∧ (next .deser (loading 0 [])).map (·.fault) = some 0x21 ∧
    (next .deser (loading 4 [0xFF, 0xFF, 0x41, 0x42])).map (·.fault) = some 0x21 ∧
    (next .deser (loading 2 [0x41, 0x42])).map (·.fault) = some 0x22 ∧
    (next .deser (loading 4 [0xFF, 0x41, 0x42, 0x43])).map (·.fault) = some 0x22 := by
  set_option maxRecDepth 100000 in decide
/-- R174's example, and T64's HLOAD 0. -/
theorem test_hload : next (.hload 3) (loading 9 headerList) = some (loading 3 []) ∧
    next (.hload 0) State.reset = some (loading 0 []) := by decide
/-- R175's example: the third HPUT completes the header. -/
theorem test_hput : next (.hput 0x00) (loading 3 [0xFF, 0x41]) = some (loading 3 [0xFF, 0x41, 0x00]) := by decide
/-- T69, T69a. -/
theorem test_hput_full : (next (.hput 0x42) (loading 1 [0x41])).map (fun t => (t.fault, t.finfo)) = some (0x23, 0x334200000000) ∧
    (next (.hput 0x41) State.reset).map (·.fault) = some 0x23 := by decide
/-- T48. -/
theorem test_hget : (next (.hget 0) headed).map (·.result) = some 0xFF ∧ (next (.hget 8) headed).map (·.result) = some 0x52 := by
  decide
/-- T49; a partly loaded buffer reads below HFILL. -/
theorem test_hget_range : (next (.hget 9) headed).map (·.fault) = some 0x03 ∧
    (next (.hget 1) (loading 3 [0xFF, 0x41])).map (·.result) = some 0x41 ∧
    (next (.hget 2) (loading 3 [0xFF, 0x41])).map (·.fault) = some 0x03 := by decide
/-- R190's example, `00000011 11111111 01000001 00000000`, packed. -/
theorem test_ehdr : (next .ehdr (loading 3 [0xFF, 0x41, 0x00])).map (fun t => (t.obits.length, pack t.obits)) =
    some (32, [0x03, 0xFF, 0x41, 0x00]) := by set_option maxRecDepth 100000 in decide
/-- T39. -/
theorem test_ehdr_empty : (next .ehdr (loading 0 [])).map (·.obits) = some (List.replicate 8 false) ∧
    (next .ehdr State.reset).map (·.fault) = some 0x02 := by decide
/-- R191's example. -/
theorem test_eput : (next (.eput 0x42) coded).map (·.obits) = some [true, true, false] ∧
    (next (.eput 0x41) coded).map (·.obits) = some [false] := by set_option maxRecDepth 100000 in decide
/-- T36. -/
theorem test_eput_no_code : (next (.eput 0x5A) coded).map (fun t => (t.fault, t.obits)) = some (0x40, []) := by
  set_option maxRecDepth 100000 in decide
/-- T50, T59a, T56's start at ROOT = 8. -/
theorem test_dstart : next .dstart parsed = some walking ∧ next .dstart leafTree = some halted ∧
    (next .dstart built).map (fun t => (t.cur, t.decActive)) = some (8, true) := by set_option maxRecDepth 100000 in decide
/-- T51, T52. -/
theorem test_dbit : (next (.dbit 0) walking).map (fun t => (t.cur, t.obytes)) = some (0, [0x41]) ∧
    (next (.dbit 1) walking).map (fun t => (t.cur, t.obytes)) = some (2, []) ∧
    (next (.dbit 1) partway).map (·.cur) = some 6 := by set_option maxRecDepth 100000 in decide
/-- T59a, T55, T54. -/
theorem test_dbit_others : next (.dbit 1) halted = some halted ∧ (next (.dbit 2) walking).map (·.fault) = some 0x03 ∧
    (next (.dbit 0) parsed).map (·.fault) = some 0x02 := by set_option maxRecDepth 100000 in decide
/-- R202's example; at the root DEC_PARTIAL is 0. -/
theorem test_dend : (next .dend partway).map (fun t => (t.cur, t.decActive, t.decPartial)) = some (0, false, true) ∧
    (next .dend walking).map (·.decPartial) = some false := by decide
/-- R108 and T10: the file of "ABRACADABRA", and its 103 meaningful bits. -/
theorem test_file : pack (fileBits headerList
      [[false], [true, true, false], [true, true, true], [false], [true, false, false], [false], [true, false, true],
        [false], [true, true, false], [true, true, true], [false]]) =
    [0x09, 0xFF, 0x41, 0xFF, 0xFF, 0x43, 0x44, 0xFF, 0x42, 0x52, 0x6E, 0x8A, 0xDC] := by
  set_option maxRecDepth 100000 in decide

/-- How a run of the decode procedure from the faulted block ends, with FAULT, OBYTES and DEC_PARTIAL. -/
def decodeEnd (file : List Byte) (nbits : Nat) : Option (DecodeEnd × BitVec 8 × List Byte × Bool) :=
  match decodeRun file nbits faulted with
  | .next (e, t) => some (e, t.fault, t.obytes, t.decPartial)
  | .fault _ => none
  | .refused _ => none
/-- T57, T57c, T58 and T59. -/
theorem test_decode_run :
    decodeEnd [0x09, 0xFF, 0x41, 0xFF, 0xFF, 0x43, 0x44, 0xFF, 0x42, 0x52, 0x6E, 0x8A, 0xDC] 103 =
      some (.recovered, 0, [0x41, 0x42, 0x52, 0x41, 0x43, 0x41, 0x44, 0x41, 0x42, 0x52, 0x41], false) ∧
    decodeEnd [0x09, 0xFF, 0x41, 0xFF, 0xFF, 0x43, 0x44, 0xFF, 0x42, 0x52, 0x6E, 0x8A, 0xDC] 101 =
      some (.recovered, 0, [0x41, 0x42, 0x52, 0x41, 0x43, 0x41, 0x44, 0x41, 0x42], true) ∧
    decodeEnd [0x03, 0xFF, 0x41, 0x00, 0x00] 37 = some (.recovered, 0, [0x41, 0x41, 0x41, 0x41, 0x41], false) ∧
    decodeEnd [0x01, 0x00] 16 = some (.recovered, 0, [], false) := by
  set_option maxRecDepth 100000 in exact ⟨rfl, rfl, rfl, rfl⟩
/-- R204: the procedure ends after DESER on 0x20 (an empty file, and T61), 0x21 (T62) and 0x22 (T66). -/
theorem test_decode_run_no_tree : decodeEnd [] 0 = some (.noTree, 0x20, [], false) ∧
    decodeEnd [0x03, 0xFF, 0x41] 24 = some (.noTree, 0x20, [], false) ∧
    decodeEnd [0x02, 0xFF, 0x41] 24 = some (.noTree, 0x21, [], false) ∧
    decodeEnd [0x02, 0x41, 0x42] 24 = some (.noTree, 0x22, [], false) := by
  set_option maxRecDepth 100000 in exact ⟨rfl, rfl, rfl, rfl⟩

/-! ### The invariant in the states of the tests -/

theorem inv_reset : Safety.Inv State.reset := inv_resetBlock State.reset
theorem inv_counted : Safety.Inv counted := inv_setFreq inv_reset (by decide)
theorem inv_built : Safety.Inv built := by
  have h := inv_build inv_counted
  rw [show counted.freq = counts from rfl, test_build.1] at h
  exact h
theorem inv_coded : Safety.Inv coded := inv_installCodebook inv_built rfl codebookOf_built

theorem headerInv_list {s : State} {bs : List Byte} {n : Byte} {v : Bool} (h : bs.length ≤ n.toNat)
    (hv : v = decide (n = BitVec.ofNat 8 bs.length)) :
    HeaderInv (s.setHeader (memOfList 0 bs) n (BitVec.ofNat 8 bs.length) v) := by
  have hlt := n.isLt
  have hb : (BitVec.ofNat 8 bs.length).toNat = bs.length := by rw [BitVec.toNat_ofNat]; omega
  refine ⟨?_, fun k => ?_, fun ht => ?_, fun hf he => ?_⟩
  · rw [show (s.setHeader (memOfList 0 bs) n (BitVec.ofNat 8 bs.length) v).hfill.toNat = bs.length from hb]; exact h
  · rw [show (s.setHeader (memOfList 0 bs) n (BitVec.ofNat 8 bs.length) v).hfill.toNat = bs.length from hb,
      show (s.setHeader (memOfList 0 bs) n (BitVec.ofNat 8 bs.length) v).hdr = memOfList 0 bs from rfl,
      memRead_memOfList_zero]
    simp
  · rw [show (s.setHeader (memOfList 0 bs) n (BitVec.ofNat 8 bs.length) v).hdrValid = v from rfl, hv] at ht
    exact (of_decide_eq_true ht).symm
  · rw [show (s.setHeader (memOfList 0 bs) n (BitVec.ofNat 8 bs.length) v).hdrValid = v from rfl, hv] at hf
    exact absurd (show BitVec.ofNat 8 bs.length = n from he).symm (of_decide_eq_false hf)

theorem inv_loading {n : Byte} {bs : List Byte} (h : bs.length ≤ n.toNat) : Safety.Inv (loading n bs) := by
  have hlt := n.isLt
  exact inv_setHeader inv_reset (Memory.wf_memOfList (by simp only [Config.hdrCap]; omega) fun _ _ => rfl)
    (headerInv_list h rfl)
theorem inv_headed : Safety.Inv headed :=
  inv_setHeader inv_coded (by decide) (headerInv_list (bs := headerList) (by decide) (by decide))
theorem inv_parsed : Safety.Inv parsed :=
  inv_deserialize (c := Config.huffcore) (q := 9) (inv_loading (by decide)) (by set_option maxRecDepth 100000 in rfl)
theorem inv_leafTree : Safety.Inv leafTree := inv_deserialize (c := Config.huffcore) (q := 1) (inv_loading (by decide)) rfl
theorem inv_repeated : Safety.Inv repeated := inv_deserialize (c := Config.huffcore) (q := 3) (inv_loading (by decide)) rfl
theorem inv_walking : Safety.Inv walking :=
  inv_setWalk inv_parsed rfl
    ⟨(fun h => by cases h), fun _ => rfl, fun _ => ⟨⟨.internal, 0, 1, 2, 0⟩, rfl, rfl⟩, (fun h => by cases h),
      fun _ _ => ⟨⟨.internal, 0, 1, 2, 0⟩, rfl, rfl⟩⟩
theorem inv_partway : Safety.Inv partway :=
  inv_setWalk inv_parsed rfl
    ⟨(fun h => by cases h), fun _ => rfl, fun _ => ⟨⟨.internal, 0, 1, 2, 0⟩, rfl, rfl⟩, (fun h => by cases h),
      fun _ _ => ⟨⟨.internal, 0, 3, 6, 0⟩, rfl, rfl⟩⟩
theorem inv_halted : Safety.Inv halted :=
  inv_setWalk inv_leafTree rfl
    ⟨(fun h => by cases h), fun _ => rfl, fun _ => ⟨⟨.leaf, 0x41, 0, 0, 0⟩, rfl, rfl⟩, fun _ => rfl, fun _ h => by cases h⟩
theorem inv_faulted : Safety.Inv faulted := inv_raise inv_reset _ _
theorem inv_sentinelTree : Safety.Inv sentinelTree :=
  inv_build (s := State.reset.setFreq [(0x41, 1), (0xFF, 1)]) (inv_setFreq inv_reset (by decide))
theorem wf_manyCounts : Memory.wf Config.nsym (· == 0) manyCounts = true := by set_option maxRecDepth 100000 in decide
theorem inv_largeTree : Safety.Inv largeTree := inv_build (s := manyCounted) (inv_setFreq inv_reset wf_manyCounts)

/-- T37: the codebook of a tree with a leaf for its root has the empty code. -/
def leafCoded : State :=
  leafTree.installCodebook (memWrite blankCodebook 0x41 { valid := true, len := 0, bits := [] })
theorem inv_leafCoded : Safety.Inv leafCoded := inv_installCodebook inv_leafTree rfl (by set_option maxRecDepth 100000 in rfl)

theorem held_built : heldTree built = some abracadabra := by set_option maxRecDepth 100000 in decide
theorem held_coded : heldTree coded = some abracadabra := held_built
theorem held_parsed : heldTree parsed = some abracadabra := by set_option maxRecDepth 100000 in decide

/-! ### Witnesses: the hypotheses of every obligation are met, clause by clause -/

theorem witness_EncodeOfDecode : decode 0x1241000003E8 = .ok (.fset 0x41 1000) := by decide
theorem witness_DecodeIsMaskAndMatch : ⟨.fset, 0xFF0000000000, 0x120000000000⟩ ∈ opcodeTable ∧
    (0x1241000003E8 : CmdWord) &&& 0xFF0000000000 = 0x120000000000 := by decide
/-- Both ends of each range of R94, and a non-zero field of each kind. -/
theorem witness_IllegalWordsRaise :
    ([0x04, 0x0F, 0x14, 0x1F, 0x23, 0x27, 0x2B, 0x2F, 0x35, 0x3F, 0x42, 0x4F, 0x53, 0xFF].all fun b => opcodeOf b = none) = true ∧
    ([0x03, 0x10, 0x13, 0x20, 0x22, 0x28, 0x2A, 0x30, 0x34, 0x40, 0x41, 0x50, 0x52].all fun b => opcodeOf b ≠ none) = true ∧
    opcodeOf 0x21 = some .nget ∧ Opcode.nget.usesA = false ∧ Opcode.nget.usesImm = true ∧
    opcodeOf 0x51 = some .dbit ∧ Opcode.dbit.usesA = true ∧ Opcode.dbit.usesImm = false := by decide
theorem witness_StepRunsTheDecodedCommand : (present State.reset 0x200000000000).port = [.command 0x200000000000] ∧
    decode 0x200000000000 = .ok .build ∧ State.reset.port = [] := by decide
theorem witness_ResetInputActsAsReset :
    ({ built with port := [.resetInput, .command 0] } : State).port = .resetInput :: [.command 0] ∧
    ∃ t, step { built with port := [.resetInput, .command 0] } = .next t ∧ t.port = [.command 0] := ⟨rfl, _, rfl, rfl⟩
theorem witness_FaultedBlockRefuses : faulted.fault ≠ 0 ∧ decode 0x010000000000 = .ok .reset ∧
    decode 0x020900000000 = .ok (.rdreg 9) ∧ decode 0x020A00000000 = .ok (.rdreg 10) ∧
    decode 0x040000000000 = .error .unknownOpcode := by decide
theorem witness_FaultEntryIsPrecise : State.reset.fault = 0 ∧ ∃ t, execWord 0x040000000000 State.reset = .next t ∧
    t.fault ≠ 0 := ⟨rfl, _, rfl, by decide⟩
theorem witness_SequenceThenRange : Safety.Inv State.reset ∧ State.reset.fault = 0 ∧ requiredFlag State.reset .ser = false ∧
    (requiredFlag State.reset (.rdreg 10) = true ∧ ¬ OperandsInRange State.reset (.rdreg 10)) ∧
    requiredFlag State.reset (.rdreg 9) = true ∧ OperandsInRange State.reset (.rdreg 9) :=
  ⟨inv_reset, rfl, rfl, ⟨rfl, by simp [OperandsInRange]⟩, rfl, by simp [OperandsInRange]⟩
theorem witness_FaultCodesByCommand : (∃ t, exec .ser State.reset = .next t ∧ t.fault = 0x02) ∧
    (∃ t, exec .nop State.reset = .next t ∧ t.fault = 0) ∧
    decode 0xFF0000000000 = .error .unknownOpcode ∧ ∃ t, execWord 0xFF0000000000 State.reset = .next t :=
  ⟨⟨_, rfl, rfl⟩, ⟨_, rfl, rfl⟩, by decide, _, rfl⟩
theorem witness_WriteMatrixHolds : (∃ t, exec .dstart built = .next t ∧ t.fault = 0) ∧
    ∃ t, exec .abort State.reset = .next t := ⟨⟨_, rfl, rfl⟩, _, rfl⟩
theorem witness_ResultWrittenByReadsOnly :
    (∃ t, exec (.rdreg 0) State.reset = .next t ∧ t.result ≠ State.reset.result) ∧
    ∃ t, exec .reset { State.reset with result := 5 } = .next t ∧ t.result ≠ 5 := ⟨⟨_, rfl, by decide⟩, _, rfl, by decide⟩
theorem witness_FlagLifecycle : Safety.Inv counted ∧ Safety.Inv coded ∧ Safety.Inv partway ∧ Safety.Inv halted ∧
    (∃ t, exec .build counted = .next t ∧ t.treeValid ≠ counted.treeValid) ∧
    (∃ t, exec .build coded = .next t ∧ t.cbValid ≠ coded.cbValid) ∧
    (∃ t, exec (.hload 0) counted = .next t ∧ t.hdrValid ≠ counted.hdrValid) ∧
    (∃ t, exec .dstart coded = .next t ∧ t.decActive ≠ coded.decActive) ∧
    (∃ t, exec .build halted = .next t ∧ t.decHalt ≠ halted.decHalt) ∧
    ∃ t, exec .dend partway = .next t ∧ t.decPartial ≠ partway.decPartial :=
  ⟨inv_counted, inv_coded, inv_partway, inv_halted, ⟨_, rfl, by decide⟩, ⟨_, rfl, by decide⟩, ⟨_, rfl, by decide⟩,
    ⟨_, rfl, by decide⟩, ⟨_, rfl, by decide⟩, _, rfl, by decide⟩
/-- The condition of RDREG's error case (register 10, running and faulted), and of every statement that asks for a running
or a faulted block only (ABORT, FCLR, FSET, FGET, BUILD, HLOAD). -/
theorem witness_RunningAndFaulted : State.reset.fault = 0 ∧ faulted.fault ≠ 0 ∧ 9 < (10 : Byte).toNat := by decide
theorem witness_FincCountsOneSymbol : freqRead (State.reset.setFreq [(0x41, 0xFFFFFFFF)]).freq 0x41 = 0xFFFFFFFF ∧
    freqRead (State.reset.setFreq [(0x41, 0xFFFFFFFE)]).freq 0x41 ≠ 0xFFFFFFFF := by decide
theorem witness_LeavesAreInSymbolOrder : counted.fault = 0 ∧ (presentSymbols counted.freq)[4]? = some 0x52 := by
  set_option maxRecDepth 100000 in decide
theorem witness_MergeOrderIsStrictAndTotal : (ActiveNode.mk 1 7).before ⟨2, 0⟩ = true ∧
    (ActiveNode.mk 2 0).before ⟨2, 1⟩ = true ∧ ([⟨2, 1⟩, ⟨1, 7⟩, ⟨2, 0⟩] : List ActiveNode) ≠ [] ∧
    (([⟨2, 1⟩, ⟨1, 7⟩, ⟨2, 0⟩] : List ActiveNode).map (·.index)).Nodup := by decide
/-- The first and the last internal node of T10. -/
theorem witness_MergesTakeTheTwoLowest : counted.fault = 0 ∧ (presentSymbols counted.freq).length = 5 ∧
    (5 ≤ 5 ∧ 5 < 2 * 5 - 1) ∧ 5 ≤ 8 ∧ 8 < 2 * 5 - 1 := by set_option maxRecDepth 100000 in decide
theorem witness_EmptyTableGivesThePadLeaf : State.reset.fault = 0 ∧ ∀ a : Byte, freqRead State.reset.freq a.toNat = 0 :=
  ⟨rfl, fun _ => rfl⟩
/-- T13 and T15: a symbol that is not `PAD_SYM`, and `PAD_SYM` itself. -/
theorem witness_OneSymbolGetsAPadSibling :
    (freqRead [(0x41, 5)] 0x41 ≠ 0 ∧ ∀ b : Byte, b ≠ 0x41 → freqRead [(0x41, 5)] b.toNat = 0) ∧
    (freqRead [(0x00, 3)] 0x00 ≠ 0 ∧ ∀ b : Byte, b ≠ 0x00 → freqRead [(0x00, 3)] b.toNat = 0) := by
  set_option maxRecDepth 100000 in decide
theorem witness_BuildGuarantees : counted.fault = 0 ∧ (∃ a : Byte, freqRead counted.freq a.toNat ≠ 0) ∧
    headed.fault = 0 ∧ ∀ a : Byte, freqRead headed.freq a.toNat = freqRead counted.freq a.toNat :=
  ⟨rfl, ⟨0x41, by decide⟩, rfl, fun _ => rfl⟩
/-- The five leaves of T10 in another tree. -/
theorem witness_BuiltTreeIsOptimal : counted.fault = 0 ∧ 2 ≤ (presentSymbols counted.freq).length ∧
    (CodeTree.node (.node (.leaf 0x43) (.leaf 0x44)) (.node (.node (.leaf 0x42) (.leaf 0x52)) (.leaf 0x41))).symbols.Perm
      abracadabra.symbols ∧ weightedLength counts abracadabra = 23 := by set_option maxRecDepth 100000 in decide
/-- NGET: no tree, the index NNODES, the last index, a leaf and an internal node. -/
theorem witness_NgetReadsOneNode : (Safety.Inv State.reset ∧ State.reset.fault = 0 ∧ State.reset.treeValid = false) ∧
    Safety.Inv built ∧ built.fault = 0 ∧ built.treeValid = true ∧ built.nnodes.toNat ≤ (9 : Word32).toNat ∧
    (8 : Word32).toNat < built.nnodes.toNat ∧ (∃ e, memRead built.node 4 = some e ∧ e.kind = .leaf) ∧
    ∃ e, memRead built.node 8 = some e ∧ e.kind = .internal :=
  ⟨⟨inv_reset, rfl, rfl⟩, inv_built, rfl, rfl, by decide, by decide, ⟨_, rfl, rfl⟩, _, rfl, rfl⟩
theorem witness_NwgtReadsOneWeight : Safety.Inv parsed ∧ parsed.fault = 0 ∧ parsed.treeValid = true ∧
    (8 : Word32).toNat < parsed.nnodes.toNat ∧ parsed.nnodes.toNat ≤ (9 : Word32).toNat ∧ DeserializedTree parsed := by
  refine ⟨inv_parsed, rfl, rfl, by decide, by decide, ?_⟩
  rcases (inv_parsed.tree rfl).numbering with h | h
  · exact absurd h.root_last (by decide)
  · exact h
theorem witness_CbgenInstallsTheCodes : (Safety.Inv counted ∧ counted.fault = 0 ∧ counted.treeValid = false) ∧
    (Safety.Inv repeated ∧ repeated.treeValid = true ∧ heldTree repeated = some (.node (.leaf 0x41) (.leaf 0x41)) ∧
      ¬ (CodeTree.node (.leaf 0x41) (.leaf 0x41)).symbols.Nodup) ∧
    Safety.Inv built ∧ built.fault = 0 ∧ built.treeValid = true ∧ heldTree built = some abracadabra ∧
    abracadabra.symbols.Nodup ∧ (0x5A : Byte) ∉ abracadabra.symbols :=
  ⟨⟨inv_counted, rfl, rfl⟩, ⟨inv_repeated, rfl, by set_option maxRecDepth 100000 in decide, by decide⟩, inv_built, rfl, rfl,
    held_built, by decide, by decide⟩
theorem witness_CodebookGuarantees : Safety.Inv coded ∧ coded.cbValid = true ∧ heldTree coded = some abracadabra ∧
    (∃ l r, abracadabra = .node l r) ∧ ∃ e, memRead coded.cb (0x41 : Byte).toNat = some e ∧ e.valid = true :=
  ⟨inv_coded, rfl, held_coded, ⟨_, _, rfl⟩, by set_option maxRecDepth 100000 in exact ⟨_, rfl, rfl⟩⟩
theorem witness_ClenReadsTheLength : (Safety.Inv built ∧ built.fault = 0 ∧ built.cbValid = false) ∧
    Safety.Inv coded ∧ coded.fault = 0 ∧ coded.cbValid = true ∧
    ∃ e, memRead coded.cb (0x5A : Byte).toNat = some e ∧ e.valid = false :=
  ⟨⟨inv_built, rfl, rfl⟩, inv_coded, rfl, rfl, by set_option maxRecDepth 100000 in exact ⟨_, rfl, rfl⟩⟩
/-- The code of 'B' has three bits: position 3 is out of range, position 2 is the last. -/
theorem witness_CbitReadsOneBit : (Safety.Inv built ∧ built.fault = 0 ∧ built.cbValid = false) ∧ Safety.Inv coded ∧
    coded.fault = 0 ∧ coded.cbValid = true ∧ ∃ e, memRead coded.cb (0x42 : Byte).toNat = some e ∧
      e.len.toNat ≤ (3 : Word32).toNat ∧ (2 : Word32).toNat < e.len.toNat :=
  ⟨⟨inv_built, rfl, rfl⟩, inv_coded, rfl, rfl, by set_option maxRecDepth 100000 in exact ⟨_, rfl, by decide, by decide⟩⟩
theorem witness_HeaderGrammarIsUnambiguous : Config.huffcore.sentinel ∉ abracadabra.symbols ∧
    abracadabra.ser Config.huffcore ++ [] = headerList ++ [] := by decide
/-- SER: no tree, 257 nodes, a leaf `SENTINEL`, and the tree of T10. -/
theorem witness_SerWritesTheHeader : (Safety.Inv counted ∧ counted.fault = 0 ∧ counted.treeValid = false) ∧
    (Safety.Inv largeTree ∧ largeTree.fault = 0 ∧ largeTree.treeValid = true ∧
      ∃ tr, heldTree largeTree = some tr ∧ 255 < tr.size) ∧
    (Safety.Inv sentinelTree ∧ sentinelTree.treeValid = true ∧
      heldTree sentinelTree = some (.node (.leaf 0x41) (.leaf 0xFF))) ∧
    Safety.Inv coded ∧ coded.fault = 0 ∧ coded.treeValid = true ∧ heldTree coded = some abracadabra ∧
    abracadabra.size ≤ 255 ∧ 0xFF ∉ abracadabra.symbols := by
  refine ⟨⟨inv_counted, rfl, rfl⟩, ⟨inv_largeTree, rfl, rfl, ?_⟩,
    ⟨inv_sentinelTree, rfl, by set_option maxRecDepth 100000 in decide⟩, inv_coded, rfl, rfl, held_coded, by decide, by decide⟩
  obtain ⟨tr, p, hh, -, -, -, hsz⟩ := rep_of_treeInv (inv_largeTree.tree rfl)
  refine ⟨tr, hh, ?_⟩
  have hn : largeTree.nnodes = BitVec.ofNat 10 (builtNodes manyCounts) := by rw [← buildTree_nodes Config.huffcore]; rfl
  rw [hsz, hn, show builtNodes manyCounts = 257 by set_option maxRecDepth 100000 in decide]
  decide
/-- A header of one `SENTINEL` and one leaf begins with no tree (T62). -/
theorem noTree_short : ¬ ∃ tr rest, 0xFF ∉ CodeTree.symbols tr ∧ [0xFF, 0x41] = tr.ser Config.huffcore ++ rest := by
  rintro ⟨tr, rest, hs, he⟩
  cases tr with
  | leaf v =>
    simp only [CodeTree.ser, List.cons_append, List.cons.injEq, List.nil_append] at he
    exact hs (by rw [he.1]; exact List.mem_singleton.mpr rfl)
  | node l r =>
    have h := congrArg List.length he
    have h1 := CodeTree.size_pos l
    have h2 := CodeTree.size_pos r
    simp only [List.length_append, CodeTree.ser_length, CodeTree.size, List.length_cons, List.length_nil] at h
    omega
/-- DESER: an incomplete header, the header of T10, the header of T62 and the header of T66. -/
theorem witness_DeserRebuildsTheTree : (Safety.Inv (loading 3 [0xFF, 0x41]) ∧ (loading 3 [0xFF, 0x41]).hdrValid = false) ∧
    (Safety.Inv (loading 9 headerList) ∧ (loading 9 headerList).hdrValid = true ∧ 0xFF ∉ abracadabra.symbols ∧
      headerList = abracadabra.ser Config.huffcore) ∧
    (Safety.Inv (loading 2 [0xFF, 0x41]) ∧ (loading 2 [0xFF, 0x41]).hdrValid = true ∧
      ¬ ∃ tr rest, 0xFF ∉ CodeTree.symbols tr ∧ [0xFF, 0x41] = tr.ser Config.huffcore ++ rest) ∧
    Safety.Inv (loading 2 [0x41, 0x42]) ∧ (loading 2 [0x41, 0x42]).hdrValid = true ∧
    ∃ tr rest, 0xFF ∉ CodeTree.symbols tr ∧ rest ≠ [] ∧ [0x41, 0x42] = tr.ser Config.huffcore ++ rest :=
  ⟨⟨inv_loading (by decide), rfl⟩, ⟨inv_loading (by decide), by decide, by decide, by decide⟩,
    ⟨inv_loading (by decide), by decide, noTree_short⟩, inv_loading (by decide), by decide,
    .leaf 0x41, [0x42], by decide, by decide, rfl⟩
/-- HPUT: a full buffer (also the empty one after reset), and one that has room for its last byte. -/
theorem witness_HputAppendsOneByte : (Safety.Inv State.reset ∧ State.reset.fault = 0 ∧ State.reset.hfill = State.reset.hlen) ∧
    Safety.Inv (loading 3 [0xFF, 0x41]) ∧ (loading 3 [0xFF, 0x41]).fault = 0 ∧
    (loading 3 [0xFF, 0x41]).hfill ≠ (loading 3 [0xFF, 0x41]).hlen :=
  ⟨⟨inv_reset, rfl, rfl⟩, inv_loading (by decide), rfl, by decide⟩
/-- HGET: the position HFILL, and the last one. -/
theorem witness_HgetReadsOneByte : Safety.Inv headed ∧ headed.fault = 0 ∧ headed.hfill.toNat ≤ (9 : Byte).toNat ∧
    (8 : Byte).toNat < headed.hfill.toNat := ⟨inv_headed, rfl, by decide, by decide⟩
theorem witness_SerDeserRoundTrip : (Safety.Inv coded ∧ coded.fault = 0 ∧ coded.treeValid = true ∧
      heldTree coded = some abracadabra ∧ coded.nnodes.toNat ≤ 255 ∧ 0xFF ∉ abracadabra.symbols) ∧
    Safety.Inv (loading 9 headerList) ∧ (loading 9 headerList).fault = 0 ∧ (loading 9 headerList).hdrValid = true ∧
    abracadabra.size = (loading 9 headerList).hlen.toNat ∧
    ∀ k, memRead (loading 9 headerList).hdr k = (abracadabra.ser Config.huffcore)[k]? :=
  ⟨⟨inv_coded, rfl, rfl, held_coded, by decide, by decide⟩, inv_loading (by decide), rfl, by decide, by decide,
    fun k => memRead_memOfList_zero headerList k⟩
theorem witness_EhdrEmitsTheHeader : (Safety.Inv State.reset ∧ State.reset.fault = 0 ∧ State.reset.hdrValid = false) ∧
    Safety.Inv headed ∧ headed.fault = 0 ∧ headed.hdrValid = true := ⟨⟨inv_reset, rfl, rfl⟩, inv_headed, rfl, rfl⟩
/-- EPUT: no codebook, no code, the empty code, and a code. -/
theorem witness_EputEmitsOneCode : (Safety.Inv built ∧ built.fault = 0 ∧ built.cbValid = false) ∧
    (Safety.Inv leafCoded ∧ leafCoded.fault = 0 ∧ leafCoded.cbValid = true ∧
      ∃ e, memRead leafCoded.cb (0x41 : Byte).toNat = some e ∧ e.valid = true ∧ e.len = 0) ∧
    Safety.Inv coded ∧ coded.fault = 0 ∧ coded.cbValid = true ∧
    (∃ e, memRead coded.cb (0x5A : Byte).toNat = some e ∧ e.valid = false) ∧
    ∃ e, memRead coded.cb (0x41 : Byte).toNat = some e ∧ e.valid = true ∧ e.len ≠ 0 := by
  set_option maxRecDepth 100000 in
  exact ⟨⟨inv_built, rfl, rfl⟩, ⟨inv_leafCoded, rfl, rfl, _, rfl, rfl, rfl⟩, inv_coded, rfl, rfl, ⟨_, rfl, rfl⟩,
    _, rfl, rfl, by decide⟩
/-- The encode procedure: a count of 2^32, 129 symbols, the symbol `SENTINEL`, and an input it encodes. -/
theorem witness_EncodeProcedureOutcome : (∃ a : Byte, 2 ^ 32 ≤ (List.replicate (2 ^ 32) a).count a) ∧
    ((∀ a : Byte, ((List.range 129).map (BitVec.ofNat 8)).count a < 2 ^ 32) ∧
      128 < ((List.range 129).map (BitVec.ofNat 8)).dedup.length) ∧
    ((∀ a : Byte, ([0xFF] : List Byte).count a < 2 ^ 32) ∧ ([0xFF] : List Byte).dedup.length ≤ 128 ∧
      (0xFF : Byte) ∈ ([0xFF] : List Byte)) ∧
    (∀ a : Byte, ([0x41] : List Byte).count a < 2 ^ 32) ∧ ([0x41] : List Byte).dedup.length ≤ 128 ∧
    (0xFF : Byte) ∉ ([0x41] : List Byte) := by
  refine ⟨⟨0, by rw [List.count_replicate_self]⟩, ⟨fun a => Nat.lt_of_le_of_lt List.count_le_length (by simp), ?_⟩,
    ⟨fun a => Nat.lt_of_le_of_lt List.count_le_length (by simp), by decide, by decide⟩,
    fun a => Nat.lt_of_le_of_lt List.count_le_length (by simp), by decide, by decide⟩
  set_option maxRecDepth 100000 in decide
theorem witness_DstartBeginsAWalk : (Safety.Inv counted ∧ counted.fault = 0 ∧ counted.treeValid = false) ∧
    Safety.Inv parsed ∧ parsed.fault = 0 ∧ parsed.treeValid = true := ⟨⟨inv_counted, rfl, rfl⟩, inv_parsed, rfl, rfl⟩
/-- DBIT: no walk, an operand of 2, a halted walk, a bit that meets a leaf, and one that meets an internal node. -/
theorem witness_DbitWalksOneBit : (Safety.Inv parsed ∧ parsed.fault = 0 ∧ parsed.decActive = false) ∧
    (Safety.Inv halted ∧ halted.fault = 0 ∧ halted.decActive = true ∧ halted.decHalt = true) ∧
    Safety.Inv walking ∧ walking.fault = 0 ∧ walking.decActive = true ∧ walking.decHalt = false ∧ 1 < (2 : Byte).toNat ∧
    (1 : Byte).toNat ≤ 1 ∧ ∃ e l r, memRead walking.node walking.cur.toNat = some e ∧
      memRead walking.node e.left.toNat = some l ∧ l.kind = .leaf ∧
      memRead walking.node e.right.toNat = some r ∧ r.kind = .internal :=
  ⟨⟨inv_parsed, rfl, rfl⟩, ⟨inv_halted, rfl, rfl, rfl⟩, inv_walking, rfl, rfl, rfl, by decide, by decide, _, _, _, rfl, rfl,
    rfl, rfl, rfl⟩
theorem witness_DendEndsTheWalk : (parsed.fault = 0 ∧ parsed.decActive = false) ∧ partway.fault = 0 ∧
    partway.decActive = true ∧ partway.cur ≠ partway.root := by decide
theorem witness_CodesWalkBackToTheirSymbols : Safety.Inv coded ∧ coded.fault = 0 ∧ coded.cbValid = true ∧
    heldTree coded = some abracadabra ∧ (∃ l r, abracadabra = .node l r) ∧
    (∀ a ∈ ([0x52, 0x41] : List Byte), a ∈ abracadabra.symbols) ∧ Safety.Inv walking ∧ walking.fault = 0 ∧
    walking.decActive = true ∧ walking.cur = walking.root ∧ heldTree walking = some abracadabra :=
  ⟨inv_coded, rfl, rfl, held_coded, ⟨_, _, rfl⟩, by decide, inv_walking, rfl, rfl, rfl, held_parsed⟩
/-- T12 and T11: the empty input, and "AB". -/
theorem witness_EncodeThenDecodeRecoversTheInput :
    (∃ t, runAll (encodeProcedure []) faulted = .next t ∧ t.fault = 0) ∧
    ∃ t, runAll (encodeProcedure [0x41, 0x42]) State.reset = .next t ∧ t.fault = 0 := by
  set_option maxRecDepth 100000 in exact ⟨⟨_, rfl, rfl⟩, _, rfl, rfl⟩
theorem witness_PackingContract : (pack (List.replicate 9 true))[1]? = some 0x80 ∧ 8 * 1 + 0 < 9 ∧ ¬ 8 * 1 + 1 < 9 := by decide
/-- Another choice of the three reserved byte values. -/
def otherConfig : Config := { sentinel := 0x41, padSym := 0x42, altPadSym := 0x43, distinct := by decide }
theorem witness_EveryStepKeepsTheInvariant : Safety.Inv walking ∧
    (∃ t, step (present walking 0x510100000000) = .next t ∧ t.cur = 2) ∧
    ∃ t, stepIn otherConfig (present walking 0x510100000000) = .next t ∧ t.cur = 2 :=
  ⟨inv_walking, ⟨_, rfl, by decide⟩, _, rfl, by decide⟩
/-- The empty table, one symbol that is `PAD_SYM` and one that is not, a tree with and one without a leaf `SENTINEL`, and a
command that depends on none of the three. -/
theorem witness_ReservedBytesAreAnArgument :
    (State.reset.fault = 0 ∧ ∀ a : Byte, freqRead State.reset.freq a.toNat = 0) ∧
    (otherConfig.padSym = 0x42 ∧ freqRead [(0x42, 5)] 0x42 ≠ 0 ∧
      ∀ b : Byte, b ≠ 0x42 → freqRead [(0x42, 5)] b.toNat = 0) ∧
    (freqRead [(0x00, 3)] 0x00 ≠ 0 ∧ ∀ b : Byte, b ≠ 0x00 → freqRead [(0x00, 3)] b.toNat = 0) ∧
    (Safety.Inv coded ∧ coded.fault = 0 ∧ coded.treeValid = true ∧ heldTree coded = some abracadabra ∧
      coded.nnodes.toNat ≤ 255) ∧
    otherConfig.sentinel ∈ abracadabra.symbols ∧ Config.huffcore.sentinel ∉ abracadabra.symbols ∧
    Instr.rdreg 8 ≠ .rdreg 9 ∧ Instr.rdreg 8 ≠ .build ∧ Instr.rdreg 8 ≠ .ser ∧ Instr.rdreg 8 ≠ .deser :=
  ⟨⟨rfl, fun _ => rfl⟩, by set_option maxRecDepth 100000 in decide, by set_option maxRecDepth 100000 in decide,
    ⟨inv_coded, rfl, rfl, held_coded, by decide⟩, by decide, by decide, by decide, by decide, by decide, by decide⟩
/-- A short header, one no tree begins, one with a byte left, and the header of T10 in the file of T57 with `NBITS` at its
bounds and one beyond each; the tree of T10 and the one of T59. -/
theorem witness_DecodeProcedureOutcome : [0xFF, 0x41].length < (3 : Byte).toNat ∧
    ((2 : Byte).toNat ≤ [0xFF, 0x41].length ∧
      ¬ ∃ tr more, 0xFF ∉ CodeTree.symbols tr ∧ headerPart 2 [0xFF, 0x41] = tr.ser Config.huffcore ++ more) ∧
    (∃ tr more, 0xFF ∉ CodeTree.symbols tr ∧ more ≠ [] ∧ headerPart 2 [0x41, 0x42] = tr.ser Config.huffcore ++ more) ∧
    (9 ≤ (headerList ++ [0x6E, 0x8A, 0xDC]).length ∧ 0xFF ∉ abracadabra.symbols ∧
      headerPart 9 (headerList ++ [0x6E, 0x8A, 0xDC]) = abracadabra.ser Config.huffcore) ∧
    nbitsAllowed (9 :: (headerList ++ [0x6E, 0x8A, 0xDC])) 79 = false ∧
    nbitsAllowed (9 :: (headerList ++ [0x6E, 0x8A, 0xDC])) 80 = true ∧
    nbitsAllowed (9 :: (headerList ++ [0x6E, 0x8A, 0xDC])) 104 = true ∧
    nbitsAllowed (9 :: (headerList ++ [0x6E, 0x8A, 0xDC])) 105 = false ∧
    (∃ l r, abracadabra = .node l r) ∧ headerPart 1 [0x00] = CodeTree.ser Config.huffcore (.leaf 0x00) :=
  ⟨by decide, ⟨by decide, noTree_short⟩, ⟨.leaf 0x41, [0x42], by decide, by decide, rfl⟩, by decide, by decide, by decide,
    by decide, by decide, ⟨_, _, rfl⟩, rfl⟩

end Sys2Proof.Tests
end

/-! PROOFS. A word is the only word of its command (R92, R95), and what a fault leaves unchanged (R14, R228, R231). -/

namespace Sys2Proof

/-- The fields of an opcode's command: a field it does not use is zero (R95). -/
theorem Opcode.fields_instr (o : Opcode) (a : Byte) (imm : Word32) :
    (o.instr a imm).fields = ⟨o.code, if o.usesA then a else 0, if o.usesImm then imm else 0⟩ := by cases o <;> rfl

theorem fields_of_decodeFields {f : Fields} {i : Instr} (h : decodeFields f = .ok i) : i.fields = f := by
  unfold decodeFields at h
  cases ho : opcodeOf f.op with
  | none => simp [ho] at h
  | some o =>
    simp only [ho] at h
    split at h
    · cases h
    · rename_i ha
      split at h
      · cases h
      · rename_i himm
        cases h
        have ha' : (if o.usesA then f.a else 0) = f.a :=
          ite_eq_left_iff.mpr fun hu => Eq.symm (by simpa [hu] using ha)
        have himm' : (if o.usesImm then f.imm else 0) = f.imm :=
          ite_eq_left_iff.mpr fun hu => Eq.symm (by simpa [hu] using himm)
        rw [Opcode.fields_instr, ha', himm', ← code_of_opcodeOf ho]

/-- A word that decodes is the word of its command. -/
theorem encode_of_decode {w : CmdWord} {i : Instr} (h : decode w = .ok i) : encode i = w := by
  rw [encode, fields_of_decodeFields h, wordOf_fieldsOf]

end Sys2Proof

namespace Sys2Proof.Machine

variable {α : Type} {s : State} {i : Instr} {w : CmdWord} {k : Host.Outcome State Fault Refusal}

/-- Where the outcome is a state with a fault, that state is `s` with the fault taken for the word `w`. -/
def FaultsPrecisely (w : CmdWord) (s : State) (o : Host.Outcome State Fault Refusal) : Prop :=
  ∀ t, o = .next t → t.fault ≠ 0 → ∃ e, t = raise e w s

theorem faultsPrecisely_next {t : State} (h : t.fault = 0) : FaultsPrecisely w s (.next t) := by
  intro u hu hf
  cases hu
  exact absurd h hf

theorem faultsPrecisely_raise (e : ErrorCode) : FaultsPrecisely w s (.next (raise e w s)) := by
  intro u hu _
  cases hu
  exact ⟨e, rfl⟩

theorem faultsPrecisely_running (h : s.fault = 0) (hk : FaultsPrecisely w s k) : FaultsPrecisely w s (running s k) := by
  rwa [running_of_ok h]

theorem faultsPrecisely_check {ok : Prop} [Decidable ok] {e : ErrorCode} (hk : FaultsPrecisely (encode i) s k) :
    FaultsPrecisely (encode i) s (check ok e i s k) := by
  intro t ht hf
  rcases check_next ht with ⟨-, rfl⟩ | ⟨-, hkt⟩
  · exact ⟨e, rfl⟩
  · exact hk t hkt hf

theorem faultsPrecisely_commit {r : Except Stop α} {f : α → State} (hf : ∀ v, (f v).fault = 0) :
    FaultsPrecisely (encode i) s (commit i s r f) := by
  intro t ht hne
  rcases commit_next ht with ⟨v, -, rfl⟩ | ⟨e, -, rfl⟩
  · exact absurd (hf v) hne
  · exact ⟨e, rfl⟩

theorem faultsPrecisely_rdreg (h : s.fault = 0) (a : Byte) (c : Config) :
    FaultsPrecisely (encode (.rdreg a)) s (execRdreg a s c) := by
  unfold execRdreg
  cases regView s a c with
  | some v => exact faultsPrecisely_next h
  | none => exact faultsPrecisely_running h (faultsPrecisely_raise _)

theorem faultsPrecisely_dbit (h : s.fault = 0) (bit : Byte) :
    FaultsPrecisely (encode (.dbit bit)) s (execDbit bit s) := by
  refine faultsPrecisely_running h <| faultsPrecisely_check <| faultsPrecisely_check ?_
  split
  · exact faultsPrecisely_next h
  · exact faultsPrecisely_commit fun _ => h

/-- A command takes its faults by `raise` alone, from the state it began in. -/
theorem faultsPrecisely_exec (h : s.fault = 0) (i : Instr) : FaultsPrecisely (encode i) s (exec i s) := by
  cases i with
  | reset => exact faultsPrecisely_next rfl
  | rdreg a => exact faultsPrecisely_rdreg h a _
  | abort => exact faultsPrecisely_running h (faultsPrecisely_raise _)
  | nop | fclr | fset | fget | build | hload => exact faultsPrecisely_running h (faultsPrecisely_next h)
  | finc | dend => exact faultsPrecisely_running h (faultsPrecisely_check (faultsPrecisely_next h))
  | cbgen | clen | cbit | ser | deser | hput | hget | ehdr | eput | dstart =>
    exact faultsPrecisely_running h (faultsPrecisely_check (faultsPrecisely_commit fun _ => h))
  | nget | nwgt =>
    exact faultsPrecisely_running h (faultsPrecisely_check (faultsPrecisely_check (faultsPrecisely_commit fun _ => h)))
  | dbit b => exact faultsPrecisely_dbit h b

theorem faultsPrecisely_execWord (h : s.fault = 0) (w : CmdWord) : FaultsPrecisely w s (execWord w s) := by
  cases hd : decode w with
  | ok i => rw [execWord_of_decode hd, ← encode_of_decode hd]; exact faultsPrecisely_exec h i
  | error x => rw [execWord_of_illegal hd]; exact faultsPrecisely_running h (faultsPrecisely_raise _)

/-- Settles O10: the fault a word leaves was taken by `raise`. -/
theorem faultEntryIsPrecise : Obligations.FaultEntryIsPrecise := by
  intro s t w h ht hf
  obtain ⟨e, rfl⟩ := faultsPrecisely_execWord h w t ht hf
  exact ⟨rfl, e, rfl⟩

end Sys2Proof.Machine

/-! PROOFS. Every step from a state with the invariant answers a next state, and that state has the invariant. One lemma
per operation of the execution frame, one per command, and the step from them. -/

namespace Sys2Proof.Machine

open Sys2Proof.Safety

variable {α : Type} {s : State} {i : Instr}

/-- The outcome is a next state, and that state has the invariant. -/
def KeepsInv (o : Host.Outcome State Fault Refusal) : Prop := ∃ t, o = .next t ∧ Inv t

/-! ### The frame -/

theorem keepsInv_next (h : Inv s) : KeepsInv (.next s) := ⟨s, rfl, h⟩

theorem keepsInv_running {k : Host.Outcome State Fault Refusal} (h : Inv s) (hk : KeepsInv k) :
    KeepsInv (running s k) := by
  by_cases hf : s.fault = 0
  · rwa [running_of_ok hf]
  · rw [running_of_faulted hf]; exact keepsInv_next h

theorem keepsInv_check {ok : Prop} [Decidable ok] {e : ErrorCode} {k : Host.Outcome State Fault Refusal} (h : Inv s)
    (hk : ok → KeepsInv k) : KeepsInv (check ok e i s k) := by
  by_cases hok : ok
  · rw [check_pass hok]; exact hk hok
  · rw [check_fail hok]; exact keepsInv_next (inv_raise h e _)

/-- A local computation that ends in a result with a sound commit, or in a fault of the block. -/
theorem keepsInv_commit {r : Except Stop α} {f : α → State} (h : Inv s)
    (hr : (∃ v, r = .ok v ∧ Inv (f v)) ∨ ∃ e, r = .error (.raise e)) : KeepsInv (commit i s r f) := by
  rcases hr with ⟨v, rfl, hv⟩ | ⟨e, rfl⟩
  · exact keepsInv_next hv
  · exact keepsInv_next (inv_raise h e _)

/-- A commit of an entry that holds a value (R43). -/
theorem keepsInv_commit_read {sp : Space} {m : Memory α} {k : Nat} {f : α → State} (h : Inv s)
    (hk : (memRead m k).isSome) (hf : ∀ v, memRead m k = some v → Inv (f v)) :
    KeepsInv (commit i s (readEntry sp m k) f) := by
  obtain ⟨v, hv⟩ := Option.isSome_iff_exists.mp hk
  exact keepsInv_commit h (.inl ⟨v, readEntry_of_some hv, hf v hv⟩)

theorem inv_setResult (h : Inv s) (v : BitVec 64) : Inv (s.setResult v) := inv_outputs h v s.obits s.obytes s.port

theorem inv_emitBits (h : Inv s) (bs : List Bool) : Inv (s.emitBits bs) :=
  inv_outputs h s.result (s.obits ++ bs) s.obytes s.port

theorem inv_emitBytes (h : Inv s) (bs : List Byte) : Inv (s.emitBytes bs) :=
  inv_outputs h s.result s.obits (s.obytes ++ bs) s.port

theorem inv_setPort (h : Inv s) (p : List PortEvent) : Inv { s with port := p } :=
  inv_outputs h s.result s.obits s.obytes p

/-! ### The control and frequency commands -/

theorem keepsInv_rdreg (h : Inv s) (a : Byte) (c : Config) : KeepsInv (execRdreg a s c) := by
  unfold execRdreg
  cases regView s a c with
  | some v => exact keepsInv_next (inv_setResult h v)
  | none => exact keepsInv_running h (keepsInv_next (inv_raise h _ _))

theorem keepsInv_setFreq (h : Inv s) (a : Byte) (v : Word32) :
    KeepsInv (.next (s.setFreq (freqWrite s.freq a.toNat v))) :=
  keepsInv_next (inv_setFreq h (Memory.wf_freqWrite ((memoriesWf_iff s).mp h.memories).1 a v))

theorem keepsInv_finc (h : Inv s) (a : Byte) : KeepsInv (execFinc a s) :=
  keepsInv_running h <| keepsInv_check h fun _ => keepsInv_setFreq h a _

theorem keepsInv_fset (h : Inv s) (a : Byte) (v : Word32) : KeepsInv (execFset a v s) :=
  keepsInv_running h <| keepsInv_setFreq h a v

/-! ### The tree commands -/

theorem node_isSome (h : Inv s) (ht : s.treeValid = true) {k : Nat} (hk : k < s.nnodes.toNat) :
    (memRead s.node k).isSome := ((h.tree ht).written k).mpr hk

theorem keepsInv_nget (h : Inv s) (n : Word32) : KeepsInv (execNget n s) :=
  keepsInv_running h <| keepsInv_check h fun ht => keepsInv_check h fun hn =>
    keepsInv_commit_read h (node_isSome h ht hn) fun _ _ => inv_setResult h _

theorem keepsInv_nwgt (h : Inv s) (n : Word32) : KeepsInv (execNwgt n s) :=
  keepsInv_running h <| keepsInv_check h fun ht => keepsInv_check h fun hn =>
    keepsInv_commit_read h (node_isSome h ht hn) fun _ _ => inv_setResult h _

/-! ### The codebook commands -/

theorem keepsInv_cbgen (h : Inv s) : KeepsInv (execCbgen s) := by
  refine keepsInv_running h <| keepsInv_check h fun ht => keepsInv_commit h ?_
  obtain ⟨tr, p, -, hrep, hd, -⟩ := rep_of_treeInv (h.tree ht)
  rcases hrep.codebookOf_cases hd with ⟨-, c, hc⟩ | ⟨-, hc⟩
  · exact .inl ⟨c, hc, inv_installCodebook h ht hc⟩
  · exact .inr ⟨_, hc⟩

/-- While CB_VALID is 1 every symbol has an entry, and it lists exactly `len` bits (R38, R160). -/
theorem exists_cbEntry (h : Inv s) (hc : s.cbValid = true) (a : Byte) :
    ∃ e, memRead s.cb a.toNat = some e ∧ e.bits.length = e.len.toNat := by
  obtain ⟨tr, p, -, -, hd, -, hcode, hblank⟩ := codebook_entries h hc
  by_cases ha : a ∈ tr.symbols
  · rw [← CodeTree.codes_symbols] at ha
    obtain ⟨x, hx, rfl⟩ := List.mem_map.mp ha
    have hl := CodeTree.codes_length_le tr x hx
    exact ⟨_, hcode x hx, (codeEntry_len (path := x.2) (by omega)).symm⟩
  · exact ⟨_, hblank a ha, rfl⟩

theorem keepsInv_clen (h : Inv s) (a : Byte) : KeepsInv (execClen a s) := by
  refine keepsInv_running h <| keepsInv_check h fun hc => ?_
  obtain ⟨e, he, -⟩ := exists_cbEntry h hc a
  exact keepsInv_commit_read h (by simp [he]) fun _ _ => inv_setResult h _

theorem keepsInv_cbit (h : Inv s) (a : Byte) (n : Word32) : KeepsInv (execCbit a n s) := by
  refine keepsInv_running h <| keepsInv_check h fun hc => keepsInv_commit h ?_
  obtain ⟨e, he, hlen⟩ := exists_cbEntry h hc a
  by_cases hn : bitInRange e n
  · have hb : e.bits[n.toNat]? = some e.bits[n.toNat] := List.getElem?_eq_getElem (hlen ▸ hn)
    have hbit : codeBit s.cb a n = .ok e.bits[n.toNat] := by
      simp only [codeBit, readEntry_of_some he, if_pos hn, readBit, hb]
    exact .inl ⟨_, hbit, inv_setResult h _⟩
  · exact .inr ⟨.range, by simp only [codeBit, readEntry_of_some he, if_neg hn]⟩

theorem keepsInv_eput (h : Inv s) (a : Byte) : KeepsInv (execEput a s) := by
  refine keepsInv_running h <| keepsInv_check h fun hc => keepsInv_commit h ?_
  obtain ⟨e, he, -⟩ := exists_cbEntry h hc a
  by_cases hv : e.valid = false ∨ e.len = 0
  · exact .inr ⟨.noCode, by simp only [codeBits, readEntry_of_some he, if_pos hv]⟩
  · exact .inl ⟨e.bits, by simp only [codeBits, readEntry_of_some he, if_neg hv], inv_emitBits h _⟩

/-! ### The header commands -/

theorem hdr_isSome (h : Inv s) {k : Nat} (hk : k < s.hfill.toNat) : (memRead s.hdr k).isSome :=
  (h.header.written k).mpr hk

/-- A complete buffer holds a value at every position below HLEN (R25, R43). -/
theorem hdr_complete (h : Inv s) (hv : s.hdrValid = true) : ∀ k, k < s.hlen.toNat → (memRead s.hdr k).isSome :=
  fun _ hk => hdr_isSome h (by rwa [h.header.complete hv])

/-- What SER computes for the held tree: E_HDR_OVF, E_SENT_LEAF or the bytes of R101. -/
theorem serialize_heldTree (h : Inv s) (ht : s.treeValid = true) (c : Config) :
    ∃ tr, heldTree s = some tr ∧ tr.size = s.nnodes.toNat ∧ tr.depth < Config.levels ∧
      serialize c s.node s.nnodes.toNat s.root.toNat =
        if s.nnodes.toNat > Config.hdrCap then .error (.raise .hdrOvf)
        else if c.sentinel ∈ tr.symbols then .error (.raise .sentLeaf)
        else .ok (tr.ser c) := by
  obtain ⟨tr, p, hheld, hrep, hd, -, hsize⟩ := rep_of_treeInv (h.tree ht)
  exact ⟨tr, hheld, hsize, hd, by rw [← hsize]; exact hrep.serialize_eq hd c⟩

/-- The header buffer with its first `f` of `n` bytes written, and HDR_VALID computed from the two (R174, R175). -/
theorem inv_setHeader_filled (h : Inv s) {m : Memory Byte} {n f : BitVec 8}
    (hm : Memory.wf Config.hdrCap (fun _ => false) m = true) (hle : f.toNat ≤ n.toNat)
    (hw : ∀ k, (memRead m k).isSome ↔ k < f.toNat) : Inv (s.setHeader m n f (headerComplete f n)) :=
  inv_setHeader h hm ⟨hle, hw, fun hv => beq_iff_eq.mp hv, fun hv heq => absurd heq (beq_eq_false_iff_ne.mp hv)⟩

/-- The buffer as SER leaves it: every byte written, and HDR_VALID = 1 (R171). -/
theorem inv_setHeader_full (h : Inv s) {bs : List Byte} {n : BitVec 8} (hn : bs.length = n.toNat) :
    Inv (s.setHeader (memOfList 0 bs) n n true) := by
  have hlt := n.isLt
  have hwf : Memory.wf Config.hdrCap (fun _ => false) (memOfList 0 bs) = true :=
    Memory.wf_memOfList (by simp only [Config.hdrCap]; omega) fun _ _ => rfl
  have hcomplete : headerComplete n n = true := beq_self_eq_true n
  exact hcomplete ▸ inv_setHeader_filled h hwf le_rfl fun k => by simp [memRead_memOfList_zero, hn]

theorem keepsInv_ser (h : Inv s) (c : Config) : KeepsInv (execSer s c) := by
  refine keepsInv_running h <| keepsInv_check h fun ht => keepsInv_commit h ?_
  obtain ⟨tr, -, hsize, -, hser⟩ := serialize_heldTree h ht c
  rw [hser]
  split
  · exact .inr ⟨_, rfl⟩
  · rename_i hcap
    split
    · exact .inr ⟨_, rfl⟩
    · refine .inl ⟨_, rfl, inv_setHeader_full h ?_⟩
      simp only [Config.hdrCap] at hcap
      rw [CodeTree.ser_length, hsize, BitVec.toNat_setWidth, Nat.mod_eq_of_lt (by omega)]

theorem keepsInv_deser (h : Inv s) (c : Config) : KeepsInv (execDeser s c) := by
  refine keepsInv_running h <| keepsInv_check h fun hv => keepsInv_commit h ?_
  have hl : s.hlen.toNat ≤ 255 := Nat.le_of_lt_succ s.hlen.isLt
  rcases deserialize_cases (c := c) hl (hdr_complete h hv) with hd | hd | ⟨N, hd⟩
  · exact .inr ⟨_, hd⟩
  · exact .inr ⟨_, hd⟩
  · exact .inl ⟨_, hd, inv_deserialize h hd⟩

theorem keepsInv_hload (h : Inv s) (n : Byte) : KeepsInv (execHload n s) :=
  keepsInv_running h <| keepsInv_next <| inv_setHeader_filled h rfl (Nat.zero_le _) fun k => by simp

theorem keepsInv_hput (h : Inv s) (b : Byte) : KeepsInv (execHput b s) := by
  refine keepsInv_running h <| keepsInv_check h fun hne => keepsInv_commit h ?_
  have hlt : s.hfill.toNat < s.hlen.toNat :=
    lt_of_le_of_ne h.header.fill_le fun heq => hne (BitVec.eq_of_toNat_eq heq)
  have hcap : s.hfill.toNat < Config.hdrCap := hlt.trans_le (Nat.le_of_lt_succ s.hlen.isLt)
  have hsucc : (s.hfill + 1).toNat = s.hfill.toNat + 1 := by bv_omega
  have hwf := Memory.wf_memWrite ((memoriesWf_iff s).mp h.memories).2.2.2 hcap (v := b) rfl
  refine .inl ⟨_, if_pos hcap, inv_setHeader_filled h hwf (by omega) fun k => ?_⟩
  rw [memRead_memWrite, hsucc]
  split
  · exact ⟨fun _ => by omega, fun _ => rfl⟩
  · rw [h.header.written k]; omega

theorem keepsInv_hget (h : Inv s) (k : Byte) : KeepsInv (execHget k s) :=
  keepsInv_running h <| keepsInv_check h fun hk =>
    keepsInv_commit_read h (hdr_isSome h hk) fun _ _ => inv_setResult h _

theorem keepsInv_ehdr (h : Inv s) : KeepsInv (execEhdr s) := by
  refine keepsInv_running h <| keepsInv_check h fun hv => keepsInv_commit h ?_
  obtain ⟨bs, hbs⟩ := readAll_ok_of_isSome (sp := .hdr) (m := s.hdr) (ks := List.range s.hlen.toNat)
    fun k hk => hdr_complete h hv k (List.mem_range.mp hk)
  have hbits : headerBits s.hdr s.hlen = .ok (bits8 s.hlen ++ bs.flatMap bits8) := by simp only [headerBits, hbs]
  exact .inl ⟨_, hbits, inv_emitBits h _⟩

/-! ### The decode walk -/

theorem internal_of_not_haltsAt {e : Node} (h : haltsAt e = false) : e.kind = .internal := by
  cases hk : e.kind with
  | leaf => simp [haltsAt, hk] at h
  | internal => rfl

theorem keepsInv_dstart (h : Inv s) : KeepsInv (execDstart s) := by
  refine keepsInv_running h <| keepsInv_check h fun ht =>
    keepsInv_commit_read h (node_isSome h ht (h.tree ht).root_lt) fun e he => inv_setWalk h ht ?_
  exact ⟨fun _ => rfl, fun _ => rfl, fun _ => ⟨e, he, rfl⟩, fun _ => rfl,
    fun _ hh => ⟨e, he, internal_of_not_haltsAt hh⟩⟩

/-- One move of a walk that is not halted reads two entries that hold a value, and stands on the root after a leaf and on
an internal node otherwise (R201). -/
theorem walkBit_ok (h : Inv s) (ha : s.decActive = true) (hh : s.decHalt = false) (bit : Byte) :
    ∃ cur bs, walkBit s.node s.root s.cur bit = .ok (cur, bs) ∧
      (cur = s.root ∨ ∃ d, memRead s.node cur.toNat = some d ∧ d.kind = .internal) := by
  have htree := h.tree (treeValid_of_decActive h ha)
  obtain ⟨e, he, hk⟩ := h.walk.internal ha hh
  have hchildren := htree.children _ e he hk
  have hchild : (e.child bit).toNat < s.nnodes.toNat := by
    unfold Node.child
    split
    · exact hchildren.1
    · exact hchildren.2.1
  obtain ⟨d, hd⟩ := Option.isSome_iff_exists.mp ((htree.written _).mpr hchild)
  simp only [walkBit, readEntry_of_some he, readEntry_of_some hd]
  cases hkd : d.kind with
  | leaf => exact ⟨_, _, rfl, .inl rfl⟩
  | internal => exact ⟨_, _, rfl, .inr ⟨d, hd, hkd⟩⟩

/-- The root of a walk that is not halted is an internal node (R200). -/
theorem root_internal (h : WalkInv s) (ha : s.decActive = true) (hh : s.decHalt = false) :
    ∃ e, memRead s.node s.root.toNat = some e ∧ e.kind = .internal := by
  obtain ⟨e, he, hhalt⟩ := h.halt ha
  exact ⟨e, he, internal_of_not_haltsAt (hhalt ▸ hh)⟩

theorem keepsInv_dbit (h : Inv s) (bit : Byte) : KeepsInv (execDbit bit s) := by
  refine keepsInv_running h <| keepsInv_check h fun ha => keepsInv_check h fun _ => ?_
  by_cases hh : s.decHalt = true
  · rw [if_pos hh]; exact keepsInv_next h
  · rw [if_neg hh]
    rw [Bool.not_eq_true] at hh
    obtain ⟨cur, bs, hw, hcur⟩ := walkBit_ok h ha hh bit
    refine keepsInv_commit h (.inl ⟨_, hw, inv_emitBytes ?_ bs⟩)
    have hstand : ∃ d, memRead s.node cur.toNat = some d ∧ d.kind = .internal :=
      hcur.elim (fun hc => hc ▸ root_internal h.walk ha hh) id
    exact inv_setWalk h (treeValid_of_decActive h ha)
      ⟨fun hf => by simp [ha] at hf, h.walk.no_partial, h.walk.halt, fun hf => by simp [hh] at hf, fun _ _ => hstand⟩

theorem keepsInv_dend (h : Inv s) : KeepsInv (execDend s) :=
  keepsInv_running h <| keepsInv_check h fun ha => keepsInv_next <| inv_setWalk h (treeValid_of_decActive h ha)
    ⟨fun _ => rfl, (fun hf => by cases hf), (fun hf => by cases hf), fun _ => rfl, (fun hf => by cases hf)⟩

/-! ### Every command, word and step -/

theorem keepsInv_execIn (h : Inv s) (c : Config) (i : Instr) : KeepsInv (execIn c i s) := by
  cases i with
  | nop => exact keepsInv_running h (keepsInv_next h)
  | reset => exact keepsInv_next (inv_resetBlock s)
  | rdreg a => exact keepsInv_rdreg h a c
  | abort => exact keepsInv_running h (keepsInv_next (inv_raise h _ _))
  | fclr => exact keepsInv_running h (keepsInv_next (inv_setFreq h rfl))
  | finc a => exact keepsInv_finc h a
  | fset a v => exact keepsInv_fset h a v
  | fget a => exact keepsInv_running h (keepsInv_next (inv_setResult h _))
  | build => exact keepsInv_running h (keepsInv_next (inv_build h c))
  | nget n => exact keepsInv_nget h n
  | nwgt n => exact keepsInv_nwgt h n
  | cbgen => exact keepsInv_cbgen h
  | clen a => exact keepsInv_clen h a
  | cbit a n => exact keepsInv_cbit h a n
  | ser => exact keepsInv_ser h c
  | deser => exact keepsInv_deser h c
  | hload n => exact keepsInv_hload h n
  | hput b => exact keepsInv_hput h b
  | hget k => exact keepsInv_hget h k
  | ehdr => exact keepsInv_ehdr h
  | eput a => exact keepsInv_eput h a
  | dstart => exact keepsInv_dstart h
  | dbit b => exact keepsInv_dbit h b
  | dend => exact keepsInv_dend h

theorem keepsInv_illegalWord (h : Inv s) (w : CmdWord) : KeepsInv (illegalWord w s) :=
  keepsInv_running h (keepsInv_next (inv_raise h _ _))

theorem keepsInv_execWordIn (h : Inv s) (c : Config) (w : CmdWord) : KeepsInv (execWordIn c w s) := by
  cases hd : decode w with
  | ok i => rw [execWordIn_of_decode hd]; exact keepsInv_execIn h c i
  | error x => rw [execWordIn_of_illegal hd]; exact keepsInv_illegalWord h w

theorem keepsInv_stepIn (h : Inv s) (c : Config) : KeepsInv (stepIn c s) := by
  rcases stepIn_cases c s with ⟨-, hs⟩ | ⟨rest, -, hs⟩ | ⟨w, rest, i, -, -, hs⟩ | ⟨w, rest, x, -, -, hs⟩ <;> rw [hs]
  · exact keepsInv_next h
  · exact keepsInv_next (inv_resetBlock _)
  · exact keepsInv_execIn (inv_setPort h rest) c i
  · exact keepsInv_illegalWord (inv_setPort h rest) w

theorem inv_of_stepIn {t : State} (c : Config) (h : Inv s) (hs : stepIn c s = .next t) : Inv t := by
  obtain ⟨u, hu, hinv⟩ := keepsInv_stepIn h c
  cases hs.symm.trans hu
  exact hinv

/-- Settles O57: every step of the machine is a step of the configured machine, and that keeps the invariant. -/
theorem everyStepKeepsTheInvariant : Obligations.EveryStepKeepsTheInvariant :=
  ⟨fun _ _ h hs => inv_of_stepIn Config.huffcore h ((stepIn_huffcore _).trans hs), fun c _ _ h hs => inv_of_stepIn c h hs⟩

theorem stepIn_and_execWordIn_answer_next (h : Inv s) (c : Config) :
    (∃ t, stepIn c s = .next t) ∧ ∀ w : CmdWord, ∃ t, execWordIn c w s = .next t :=
  ⟨(keepsInv_stepIn h c).imp fun _ => And.left, fun w => (keepsInv_execWordIn h c w).imp fun _ => And.left⟩

/-- Settles O58, by the same lemma per command as O57. -/
theorem everyStepAnswersNext : Obligations.EveryStepAnswersNext :=
  ⟨fun s h => by simpa using stepIn_and_execWordIn_answer_next h Config.huffcore,
    fun c _ h => stepIn_and_execWordIn_answer_next h c⟩

end Sys2Proof.Machine

/-! PROOFS. The three reserved byte values (R8): the trees BUILD makes of the empty table and of one symbol, and that DESER
takes back what SER writes, whatever the values are. -/

namespace Sys2Proof.Machine

open Sys2Proof.Safety

variable {s : State} {c : Config}

/-! ### BUILD of the empty table and of one symbol -/

theorem mem_presentSymbols {freq : Memory Word32} {k : Nat} :
    k ∈ presentSymbols freq ↔ k < 256 ∧ freqRead freq k ≠ 0 := by
  simp [presentSymbols, Config.nsym]

theorem presentSymbols_eq_nil {freq : Memory Word32} (h : ∀ a : Byte, freqRead freq a.toNat = 0) :
    presentSymbols freq = [] := by
  refine List.eq_nil_iff_forall_not_mem.mpr fun k hk => ?_
  obtain ⟨hlt, hne⟩ := mem_presentSymbols.mp hk
  have hz := h (BitVec.ofNat 8 k)
  rw [BitVec.toNat_ofNat, Nat.mod_eq_of_lt hlt] at hz
  exact hne hz

theorem presentSymbols_eq_singleton {freq : Memory Word32} {a : Byte} (ha : freqRead freq a.toNat ≠ 0)
    (h : ∀ b : Byte, b ≠ a → freqRead freq b.toNat = 0) : presentSymbols freq = [a.toNat] := by
  refine List.perm_singleton.mp <| (List.perm_ext_iff_of_nodup (presentSymbols_nodup freq) (by simp)).mpr fun k => ?_
  rw [mem_presentSymbols, List.mem_singleton]
  constructor
  · rintro ⟨hlt, hne⟩
    have hk : (BitVec.ofNat 8 k).toNat = k := by rw [BitVec.toNat_ofNat, Nat.mod_eq_of_lt hlt]
    by_contra hka
    exact hne (hk ▸ h (BitVec.ofNat 8 k) fun heq => hka (by rw [← heq, hk]))
  · rintro rfl
    exact ⟨a.isLt, ha⟩

theorem buildTree_of_empty {freq : Memory Word32} (h : presentSymbols freq = []) :
    buildTree c freq = emptyCase c := by
  rw [buildTree, placeLeaves_eq, h]; rfl

theorem buildTree_of_single {freq : Memory Word32} {k : Nat} (h : presentSymbols freq = [k]) :
    buildTree c freq = singleCase c (leafOf freq k) := by
  rw [buildTree, placeLeaves_eq, h]; rfl

theorem execIn_build (h : s.fault = 0) : execIn c .build s =
    .next (s.installTree (buildTree c s.freq).1 (buildTree c s.freq).2 ((buildTree c s.freq).2 - 1)) :=
  running_of_ok h

theorem build_empty (h : s.fault = 0) (hz : ∀ a : Byte, freqRead s.freq a.toNat = 0) :
    ∃ t, execIn c .build s = .next t ∧ heldTree t = some (.leaf c.padSym) := by
  refine ⟨_, execIn_build h, ?_⟩
  rw [buildTree_of_empty (presentSymbols_eq_nil hz)]
  exact (Rep.leaf (e := leafNode c.padSym 0) rfl rfl).treeAt_eq (Nat.zero_lt_succ _)

theorem build_single {a : Byte} (h : s.fault = 0) (ha : freqRead s.freq a.toNat ≠ 0)
    (hz : ∀ b : Byte, b ≠ a → freqRead s.freq b.toNat = 0) : ∃ t, execIn c .build s = .next t ∧
      heldTree t = some (.node (.leaf a) (.leaf (if a = c.padSym then c.altPadSym else c.padSym))) := by
  refine ⟨_, execIn_build h, ?_⟩
  have hleaf : leafOf s.freq a.toNat = leafNode a ((freqRead s.freq a.toNat).setWidth 40) := by simp [leafOf]
  rw [buildTree_of_single (presentSymbols_eq_singleton ha hz), hleaf]
  generalize (freqRead s.freq a.toNat).setWidth 40 = w
  exact (Rep.node (e := internalNode 0 1 w) rfl rfl (Rep.leaf (e := leafNode a w) rfl rfl)
    (Rep.leaf (e := leafNode (if a = c.padSym then c.altPadSym else c.padSym) 0) rfl rfl)).treeAt_eq
      (fuel := Config.levels) (by simp [CodeTree.depth, Config.levels])

/-! ### SER and DESER -/

/-- The header bytes of trees without a `SENTINEL` leaf decide the tree: equal beginnings come from equal trees
(R101). -/
theorem CodeTree.ser_append_injective {t t' : CodeTree} {rest rest' : List Byte} (ht : c.sentinel ∉ t.symbols)
    (ht' : c.sentinel ∉ t'.symbols) (h : t.ser c ++ rest = t'.ser c ++ rest') : t = t' ∧ rest = rest' := by
  induction t generalizing t' rest rest' with
  | leaf v =>
    cases t' with
    | leaf v' =>
      obtain ⟨rfl, rfl⟩ := List.cons.inj h
      exact ⟨rfl, rfl⟩
    | node l' r' => exact absurd (List.cons.inj h).1.symm (by simpa [CodeTree.symbols] using ht)
  | node l r ihl ihr =>
    cases t' with
    | leaf v' => exact absurd (List.cons.inj h).1 (by simpa [CodeTree.symbols] using ht')
    | node l' r' =>
      simp only [CodeTree.symbols, List.mem_append, not_or] at ht ht'
      simp only [CodeTree.ser, List.cons_append, List.append_assoc, List.cons.injEq, true_and] at h
      obtain ⟨rfl, hr⟩ := ihl ht.1 ht'.1 h
      obtain ⟨rfl, hrest⟩ := ihr ht.2 ht'.2 hr
      exact ⟨rfl, hrest⟩

theorem CodeTree.ser_injective {t t' : CodeTree} (ht : c.sentinel ∉ t.symbols) (ht' : c.sentinel ∉ t'.symbols)
    (h : t.ser c = t'.ser c) : t = t' :=
  (CodeTree.ser_append_injective (rest := []) (rest' := []) ht ht' (by rw [h])).1

/-- DESER's local result on a buffer that holds exactly the header bytes of a tree: that tree, with its root at index 0
(R172, R173). -/
theorem deserialize_of_ser {tr : CodeTree} {hdr : Memory Byte} (hs : c.sentinel ∉ tr.symbols) (hsize : tr.size ≤ 255)
    (hb : ∀ k, memRead hdr k = (tr.ser c)[k]?) :
    ∃ N, deserialize c hdr tr.size = .ok (tr.size, N) ∧ Rep N 0 tr (List.range tr.size) := by
  have hdepth : tr.depth < Config.levels := by
    have := two_mul_depth_lt_size tr
    simp only [Config.levels]; omega
  obtain ⟨N, hparse⟩ := parse_of_ser tr (hdr := hdr) (hlen := tr.size) (pos := 0) hs (fun k _ => by rw [Nat.zero_add, hb])
    (by omega) hdepth []
  have hdes : deserialize c hdr tr.size = .ok (tr.size, N) := by simp [deserialize, hparse]
  obtain ⟨-, -, ⟨tr', hrep, hmap, hs'⟩, -⟩ := deserialize_ok hsize hdes
  have hread : (List.range tr.size).map (memRead hdr) = (tr.ser c).map some := by
    refine List.ext_getElem (by simp [CodeTree.ser_length]) fun k hk _ => ?_
    simp only [List.length_map, List.length_range] at hk
    rw [List.getElem_map, List.getElem_range, List.getElem_map, hb,
      List.getElem?_eq_getElem (by rwa [CodeTree.ser_length])]
  have hser : tr'.ser c = tr.ser c :=
    List.map_injective_iff.mpr (Option.some_injective Byte) (hmap.symm.trans hread)
  exact ⟨N, hdes, CodeTree.ser_injective hs' hs hser ▸ hrep⟩

/-- The state after a SER that completes, where `tr` is the held tree (R171). -/
def State.withHeader (s : State) (c : Config) (tr : CodeTree) : State :=
  s.setHeader (memOfList 0 (tr.ser c)) (s.nnodes.setWidth 8) (s.nnodes.setWidth 8) true

/-- What SER does with a held tree of at most 255 nodes, by whether a leaf carries `SENTINEL` (R171). -/
theorem execIn_ser {tr : CodeTree} (h : Inv s) (hf : s.fault = 0) (ht : s.treeValid = true)
    (htr : heldTree s = some tr) (hn : s.nnodes.toNat ≤ 255) :
    execIn c .ser s = .next (if c.sentinel ∈ tr.symbols then raise .sentLeaf (encode .ser) s else s.withHeader c tr) := by
  obtain ⟨tr', htr', -, -, hser⟩ := serialize_heldTree h ht c
  obtain rfl : tr' = tr := by simpa [htr'] using htr
  have hcap : ¬ s.nnodes.toNat > Config.hdrCap := by simp only [Config.hdrCap]; omega
  rw [if_neg hcap] at hser
  refine (running_of_ok hf).trans ((check_pass ht).trans ?_)
  rw [hser]
  split <;> rfl

/-- DESER after SER gives the same abstract tree back (R177). -/
theorem execIn_deser_withHeader {tr : CodeTree} (hf : s.fault = 0) (hs : c.sentinel ∉ tr.symbols)
    (hsize : tr.size = s.nnodes.toNat) (hn : s.nnodes.toNat ≤ 255) :
    ∃ u, execIn c .deser (s.withHeader c tr) = .next u ∧ u.fault = 0 ∧ heldTree u = some tr := by
  obtain ⟨N, hdes, hrep⟩ := deserialize_of_ser (hdr := memOfList 0 (tr.ser c)) hs (by omega) (memRead_memOfList_zero _)
  have hlen : (s.nnodes.setWidth 8).toNat = tr.size := by
    rw [BitVec.toNat_setWidth, Nat.mod_eq_of_lt (by omega), hsize]
  have hcommit : execIn c .deser (s.withHeader c tr) = .next ((s.withHeader c tr).installTree N tr.size 0) := by
    refine (running_of_ok (s := s.withHeader c tr) hf).trans ((check_pass rfl).trans ?_)
    simp only [State.withHeader, State.setHeader_hdr, State.setHeader_hlen, hlen, hdes, commit_ok]
  have hdepth := two_mul_depth_lt_size tr
  exact ⟨_, hcommit, hf, hrep.treeAt_eq (by simp only [Config.levels]; omega)⟩

theorem ser_of_sentinel {tr : CodeTree} (h : Inv s) (hf : s.fault = 0) (ht : s.treeValid = true)
    (htr : heldTree s = some tr) (hn : s.nnodes.toNat ≤ 255) (hs : c.sentinel ∈ tr.symbols) :
    execIn c .ser s = .next { s with fault := 0x31, finfo := 0x300000000000 } := by
  rw [execIn_ser h hf ht htr hn, if_pos hs]; rfl

theorem ser_then_deser {tr : CodeTree} (h : Inv s) (hf : s.fault = 0) (ht : s.treeValid = true)
    (htr : heldTree s = some tr) (hn : s.nnodes.toNat ≤ 255) (hs : c.sentinel ∉ tr.symbols) :
    ∃ t u, execIn c .ser s = .next t ∧ (∀ k, memRead t.hdr k = (tr.ser c)[k]?) ∧
      execIn c .deser t = .next u ∧ u.fault = 0 ∧ heldTree u = some tr := by
  obtain ⟨tr', htr', hsize, -, -⟩ := serialize_heldTree h ht c
  obtain rfl : tr' = tr := by simpa [htr'] using htr
  obtain ⟨u, hu, hfu, hheld⟩ := execIn_deser_withHeader hf hs hsize hn
  exact ⟨_, u, by rw [execIn_ser h hf ht htr hn, if_neg hs], memRead_memOfList_zero _, hu, hfu, hheld⟩

/-! ### The obligation -/

/-- Settles O59: each clause is one of the lemmas above, or a law of the configured machine. -/
theorem reservedBytesAreAnArgument : Obligations.ReservedBytesAreAnArgument :=
  ⟨⟨rfl, rfl, rfl⟩, stepIn_huffcore, fun c => ⟨c.distinct, fun _ => build_empty, fun _ _ => build_single,
    fun _ _ h hf ht htr hn => ⟨ser_of_sentinel h hf ht htr hn, ser_then_deser h hf ht htr hn⟩, fun _ => rfl,
    fun _ _ => execIn_eq_exec⟩⟩

end Sys2Proof.Machine

/-! PROOFS. The write matrix (R44): the three ways a command answers a next state, one lemma per operation of the execution
frame and one case per command. From it: who writes RESULT (R22), who sets and clears the flags (R25), and the reset state
(R42, R251). -/

namespace Sys2Proof.Machine

open Sys2Proof.Safety

variable {α : Type} {P : State → Prop} {s t : State} {i : Instr}

/-! ### The frame -/

/-- A next state of the command `i` is the one it began in, the command being refused (R229), or the one with its fault
taken (R228), or the command has completed with `P`. -/
def CompletesWith (P : State → Prop) (i : Instr) (s : State) (o : Host.Outcome State Fault Refusal) : Prop :=
  ∀ t, o = .next t → (s.fault ≠ 0 ∧ t = s) ∨ (∃ e, t = raise e (encode i) s) ∨ P t

theorem completesWith_next (h : P t) : CompletesWith P i s (.next t) := by
  intro u hu
  cases hu
  exact .inr (.inr h)

theorem completesWith_raise (e : ErrorCode) : CompletesWith P i s (.next (raise e (encode i) s)) := by
  intro u hu
  cases hu
  exact .inr (.inl ⟨e, rfl⟩)

theorem completesWith_running {k : Host.Outcome State Fault Refusal} (hk : CompletesWith P i s k) :
    CompletesWith P i s (running s k) := by
  intro t ht
  rcases running_next ht with hrefused | ⟨-, hkt⟩
  · exact .inl hrefused
  · exact hk t hkt

theorem completesWith_check {ok : Prop} [Decidable ok] {e : ErrorCode} {k : Host.Outcome State Fault Refusal}
    (hk : ok → CompletesWith P i s k) : CompletesWith P i s (check ok e i s k) := by
  intro t ht
  rcases check_next ht with ⟨-, rfl⟩ | ⟨hok, hkt⟩
  · exact .inr (.inl ⟨e, rfl⟩)
  · exact hk hok t hkt

theorem completesWith_commit {r : Except Stop α} {f : α → State} (hf : ∀ v, r = .ok v → P (f v)) :
    CompletesWith P i s (commit i s r f) := by
  intro t ht
  rcases commit_next ht with ⟨v, hv, rfl⟩ | ⟨e, -, rfl⟩
  · exact .inr (.inr (hf v hv))
  · exact .inr (.inl ⟨e, rfl⟩)

/-- A field that no fault writes (R14) changes only where the command completes. -/
theorem CompletesWith.of_ne {β : Type} {o : Host.Outcome State Fault Refusal} {f : State → β} (h : CompletesWith P i s o)
    (hf : ∀ e w, f (raise e w s) = f s) (ht : o = .next t) (hne : f t ≠ f s) : P t := by
  rcases h t ht with ⟨-, rfl⟩ | ⟨e, rfl⟩ | hP
  · exact absurd rfl hne
  · exact absurd (hf e _) hne
  · exact hP

/-! ### The rows of the write matrix -/

theorem resetValues_resetBlock (s : State) : ResetValues (resetBlock s) := by
  constructor <;> simp

theorem writesOnly_rdreg (s : State) (a : Byte) :
    CompletesWith (WritesOnly s · (.rdreg a)) (.rdreg a) s (execRdreg a s) := by
  unfold execRdreg
  cases regView s a with
  | some v => exact completesWith_next rfl
  | none => exact completesWith_running (completesWith_raise _)

theorem freqRead_freqWrite_other (m : Memory Word32) {k j : Nat} (v : Word32) (h : j ≠ k) :
    freqRead (freqWrite m k v) j = freqRead m j := by
  rw [freqRead_freqWrite, if_neg h]

/-- One bit of a walk emits at most one byte (R201). -/
theorem walkBit_bytes {nodes : Memory Node} {root cur : NodeIndex} {bit : Byte} {r : NodeIndex × List Byte}
    (h : walkBit nodes root cur bit = .ok r) : r.2 = [] ∨ ∃ b, r.2 = [b] := by
  unfold walkBit at h
  split at h
  · cases h
  · split at h
    · cases h
    · split at h <;> cases h
      · exact .inr ⟨_, rfl⟩
      · exact .inl rfl

theorem writesOnly_dbit (s : State) (bit : Byte) :
    CompletesWith (WritesOnly s · (.dbit bit)) (.dbit bit) s (execDbit bit s) := by
  refine completesWith_running <| completesWith_check fun _ => completesWith_check fun _ => ?_
  split
  · exact completesWith_next ⟨rfl, .inl rfl⟩
  · refine completesWith_commit fun r hr => ⟨rfl, ?_⟩
    rcases walkBit_bytes hr with hno | ⟨b, hb⟩
    · exact .inl (by simp [hno])
    · exact .inr ⟨b, by simp [hb]⟩

/-- A command that completes writes what its row of the write matrix lists and nothing else (R44). -/
theorem writesOnly_exec (s : State) (i : Instr) : CompletesWith (WritesOnly s · i) i s (exec i s) := by
  cases i with
  | reset => exact completesWith_next ⟨resetValues_resetBlock s, rfl⟩
  | rdreg a => exact writesOnly_rdreg s a
  | abort => exact completesWith_running (completesWith_raise _)
  | nop | fget | build | hload => exact completesWith_running (completesWith_next rfl)
  | fclr => exact completesWith_running (completesWith_next ⟨rfl, fun _ => rfl⟩)
  | finc =>
    exact completesWith_running <| completesWith_check fun _ =>
      completesWith_next ⟨rfl, fun _ => freqRead_freqWrite_other _ _⟩
  | fset => exact completesWith_running (completesWith_next ⟨rfl, fun _ => freqRead_freqWrite_other _ _⟩)
  | nget | nwgt =>
    exact completesWith_running <| completesWith_check fun _ => completesWith_check fun _ =>
      completesWith_commit fun _ _ => rfl
  | cbgen | clen | cbit | ser | deser | hget | dstart =>
    exact completesWith_running <| completesWith_check fun _ => completesWith_commit fun _ _ => rfl
  | hput =>
    refine completesWith_running <| completesWith_check fun _ => completesWith_commit fun m hm => ⟨rfl, fun k hk => ?_⟩
    split at hm <;> cases hm
    exact memRead_memWrite_other _ _ hk
  | ehdr | eput =>
    exact completesWith_running <| completesWith_check fun _ =>
      completesWith_commit fun _ _ => ⟨rfl, List.prefix_append _ _⟩
  | dbit bit => exact writesOnly_dbit s bit
  | dend => exact completesWith_running <| completesWith_check fun _ => completesWith_next rfl

/-- Settles O13: a command that completes without a fault was not refused and raised none; ABORT raises by its row. -/
theorem writeMatrixHolds : Obligations.WriteMatrixHolds := by
  intro s t i hs ht hend
  rcases writesOnly_exec s i t ht with ⟨hf, -⟩ | ⟨e, rfl⟩ | hw
  · exact absurd hs hf
  · rcases hend with hf | rfl
    · exact absurd hf e.code_ne_zero
    · rfl
  · exact hw

/-! ### RESULT -/

/-- Settles O14: RESULT changes only where the command completes, and no row but those of reset and the reads lists it. -/
theorem resultWrittenByReadsOnly : Obligations.ResultWrittenByReadsOnly := by
  intro s t i ht hne
  have hw := (writesOnly_exec s i).of_ne (f := State.result) (fun _ _ => rfl) ht hne
  cases i with
  | reset => exact .inl rfl
  | rdreg a | fget a | clen a | hget a => exact .inr ⟨.inl ⟨a, by simp⟩, (congrArg State.fault hw :)⟩
  | nget n | nwgt n => exact .inr ⟨.inr (.inl ⟨n, by simp⟩), (congrArg State.fault hw :)⟩
  | cbit a n => exact .inr ⟨.inr (.inr ⟨a, n, rfl⟩), (congrArg State.fault hw :)⟩
  | nop | abort | build | deser | cbgen | ser | hload | dstart | dend => exact absurd (congrArg State.result hw) hne
  | fclr | finc | fset | hput | ehdr | eput | dbit => exact absurd (congrArg State.result hw.1) hne

/-! ### The flags -/

/-- HPUT only sets HDR_VALID: while it is 1 the buffer is full and HPUT raises its fault (R30, R175). -/
theorem hput_hdrValid {b : Byte} (h : Inv s) (ht : exec (.hput b) s = .next t) (hne : t.hdrValid ≠ s.hdrValid) :
    t.hdrValid = true := by
  cases hv : s.hdrValid with
  | false => simpa [hv] using hne
  | true =>
    have hraises : CompletesWith (fun _ => False) (.hput b) s (exec (.hput b) s) :=
      completesWith_running <| completesWith_check fun hfill => absurd (h.header.complete hv) hfill
    exact (hraises.of_ne (f := State.hdrValid) (fun _ _ => rfl) ht hne).elim

/-- DEND only sets DEC_PARTIAL: while it is 1 no walk is in progress and DEND raises its fault (R25, R202). -/
theorem dend_decPartial (h : Inv s) (ht : exec .dend s = .next t) (hne : t.decPartial ≠ s.decPartial) :
    t.decPartial = true := by
  cases hp : s.decPartial with
  | false => simpa [hp] using hne
  | true =>
    have hraises : CompletesWith (fun _ => False) .dend s (exec .dend s) :=
      completesWith_running <| completesWith_check fun ha => by simp [h.walk.no_partial ha] at hp
    exact (hraises.of_ne (f := State.decPartial) (fun _ _ => rfl) ht hne).elim

/-- HLOAD sets HDR_VALID where the declared length is 0 and clears it otherwise (R174). -/
theorem hload_hdrValid {n : Byte} (ht : exec (.hload n) s = .next t) (hne : t.hdrValid ≠ s.hdrValid) :
    (t.hdrValid = true ∧ n = 0) ∨ (t.hdrValid = false ∧ n ≠ 0) := by
  have hloads : CompletesWith (·.hdrValid = headerComplete 0 n) (.hload n) s (exec (.hload n) s) :=
    completesWith_running (completesWith_next rfl)
  rw [hloads.of_ne (f := State.hdrValid) (fun _ _ => rfl) ht hne, headerComplete]
  by_cases hn : n = 0
  · exact .inl ⟨by simp [hn], hn⟩
  · exact .inr ⟨beq_false_of_ne (Ne.symm hn), hn⟩

/-- Settles O15: a refused command and a fault keep the flags, and a command that completes writes those of its row. The
row gives the value but for HDR_VALID of HLOAD and HPUT and DEC_PARTIAL of DEND. -/
theorem flagLifecycle : Obligations.FlagLifecycle := by
  intro s t i h ht hr
  rcases writesOnly_exec s i t ht with ⟨-, rfl⟩ | ⟨e, rfl⟩ | hw
  · simp
  · simp
  · cases i with
    | reset => exact absurd rfl hr
    | nop | rdreg | fget | nget | nwgt | clen | cbit | hget | abort => rw [show t = _ from hw]; simp
    | fclr | finc | fset | ehdr | eput | dbit => rw [show t = _ from hw.1]; simp
    | build | deser | cbgen | ser | dstart => rw [show t = _ from hw]; simp
    | hload n =>
      have hv := hload_hdrValid ht
      rw [show t = _ from hw]
      simpa using hv
    | hput b =>
      have hv := hput_hdrValid h ht
      rw [show t = _ from hw.1]
      simpa using hv
    | dend =>
      have hp := dend_decPartial h ht
      rw [show t = _ from hw]
      simpa using hp

/-! ### Reset -/

theorem resetBlock_reset : resetBlock State.reset = State.reset := rfl

/-- Settles O56: the reset state is what reset leaves, from any state. -/
theorem invariantHoldsAtReset : Obligations.InvariantHoldsAtReset := by
  have h := inv_resetBlock State.reset
  rwa [resetBlock_reset] at h

/-- Settles O16: the reset state is what reset leaves, and by its invariant every word has a next state there. -/
theorem resetStateIsAsTheTableSays : Obligations.ResetStateIsAsTheTableSays := by
  have hvalues := resetValues_resetBlock State.reset
  rw [resetBlock_reset] at hvalues
  obtain ⟨-, hwords⟩ := everyStepAnswersNext.1 State.reset invariantHoldsAtReset
  exact ⟨hvalues, rfl, rfl, rfl, hwords⟩

end Sys2Proof.Machine

/-! PROOFS. Stored command words (R64), what a step executes (R66, R76, R120), and the packing contract (R70, R71). -/

namespace Sys2Proof

/-! ### Stored command words -/

theorem decodeFields_fields (i : Instr) : decodeFields i.fields = .ok i := by cases i <;> rfl

/-- The word of a command decodes to that command (R90 to R92). -/
theorem decode_encode (i : Instr) : decode (encode i) = .ok i := by
  rw [decode, fieldsOf_encode, decodeFields_fields]

/-- The six stored bytes of a word, put together again. -/
theorem append_extractLsb'_bytes (w : CmdWord) :
    w.extractLsb' 40 8 ++ w.extractLsb' 32 8 ++ w.extractLsb' 24 8 ++ w.extractLsb' 16 8 ++ w.extractLsb' 8 8
      ++ w.extractLsb' 0 8 = w := by
  iterate 5 rw [BitVec.extractLsb'_append_extractLsb'_eq_extractLsb' (by rfl)]
  exact BitVec.extractLsb'_eq_self

/-- The stored bytes of a word that decodes are read as its command, and the bytes behind them are left (R64). -/
theorem decodeBytes_bytesOfWord {w : CmdWord} {i : Instr} (h : decode w = .ok i) (rest : List Byte) :
    decodeBytes (bytesOfWord w ++ rest) = .ok (i, rest) := by
  simp only [bytesOfWord, List.cons_append, List.nil_append, decodeBytes, append_extractLsb'_bytes, h]

/-- Settles O6: `bytesOfWord` lists the bytes from bit 47 down, and what is read back is the word `encode` made. -/
theorem storedWordsDecode : Obligations.StoredWordsDecode :=
  ⟨fun _ => rfl, fun i rest => decodeBytes_bytesOfWord (decode_encode i) rest⟩

end Sys2Proof

namespace Sys2Proof.Machine

/-! ### The step -/

/-- Settles O7: a step takes the first word at the port, which is executed as the command it decodes to. -/
theorem stepRunsTheDecodedCommand : Obligations.StepRunsTheDecodedCommand :=
  ⟨fun _ _ _ _ hport hdecode => (step_event hport).trans (execWord_of_decode hdecode),
    fun s i => (step_present s (encode i)).trans (execWord_of_decode (decode_encode i)),
    fun _ hport => step_idle hport⟩

/-! ### Packing -/

theorem getLsbD_byteOfBits (bit : Nat → Bool) {j : Nat} (hj : j < 8) : (byteOfBits bit).getLsbD (7 - j) = bit j := by
  simp only [byteOfBits, BitVec.getLsbD_append, BitVec.getLsbD_ofBool]
  interval_cases j <;> rfl

theorem bits8_eq_map (v : Byte) : bits8 v = (List.range 8).map fun j => v.getLsbD (7 - j) := rfl

theorem bits8_byteOfBits (bit : Nat → Bool) : bits8 (byteOfBits bit) = (List.range 8).map bit := by
  rw [bits8_eq_map]
  exact List.map_congr_left fun j hj => getLsbD_byteOfBits bit (List.mem_range.mp hj)

theorem pack_length (bits : List Bool) : (pack bits).length = (bits.length + 7) / 8 := by simp [pack]

theorem pack_getElem?_eq_some {bits : List Bool} {k : Nat} {v : Byte} (h : (pack bits)[k]? = some v) :
    v = byteOfBits fun j => bits.getD (8 * k + j) false := by
  obtain ⟨hk, rfl⟩ := List.getElem?_eq_some_iff.mp h
  simp [pack]

/-- Eight values after eight values, for `m` rounds, are the first `8m` values. -/
theorem flatMap_range_eight {α : Type} (f : Nat → α) (m : Nat) :
    ((List.range m).flatMap fun k => (List.range 8).map fun j => f (8 * k + j)) = (List.range (8 * m)).map f := by
  induction m with
  | zero => rfl
  | succ m ih =>
    rw [List.range_succ (n := m), List.flatMap_append, ih, List.flatMap_singleton, Nat.mul_succ, List.range_add, List.map_append,
      List.map_map]
    rfl

theorem getD_eq_dite (bits : List Bool) (i : Nat) :
    bits.getD i false = if h : i < bits.length then bits[i] else false := by
  split
  case isTrue hi => exact List.getD_eq_getElem _ _ hi
  case isFalse hi => exact List.getD_eq_default _ _ (by omega)

/-- A list read out to the length `n`, with `false` past its end, is the list and the `false`s that are missing. -/
theorem map_getD_range {bits : List Bool} {n : Nat} (h : bits.length ≤ n) :
    ((List.range n).map fun i => bits.getD i false) = bits ++ List.replicate (n - bits.length) false := by
  refine List.ext_getElem (by simp; omega) fun i _ _ => ?_
  simp only [List.getElem_map, List.getElem_range, List.getElem_append, List.getElem_replicate, getD_eq_dite]

/-- Unpacking a packed list reads it out to the next multiple of eight (R71). -/
theorem unpack_pack (bits : List Bool) :
    unpack (pack bits) = (List.range (8 * ((bits.length + 7) / 8))).map fun i => bits.getD i false := by
  simp only [unpack, pack, List.flatMap_map, bits8_byteOfBits]
  exact flatMap_range_eight (fun i => bits.getD i false) _

/-- Settles O55: byte `k` of the packed list is made of the bits from `8k` on, and unpacking reads them all out. -/
theorem packingContract : Obligations.PackingContract := by
  refine fun bits => ⟨pack_length bits, fun k v hv j hj => ?_, ?_⟩
  · rw [pack_getElem?_eq_some hv, getLsbD_byteOfBits _ hj, getD_eq_dite]
  · rw [unpack_pack, map_getD_range (by omega)]
    congr 2
    omega

end Sys2Proof.Machine

/-! PROOFS. The command words (R90 to R95): which fields an opcode's command can have, and from it the two round trips, the
rows of the opcode table (R93) and the illegal words (R94). -/

namespace Sys2Proof

variable {f : Fields} {o p : Opcode} {w : CmdWord} {a : Byte} {imm : Word32}

/-! ### The two round trips -/

/-- Settles O1: taking the word apart gives the command's fields, and the opcode map answers the command they name. -/
theorem decodeOfEncode : Obligations.DecodeOfEncode := decode_encode

/-- Settles O2: the fields a word decodes from are those its command has, the unused ones being zero. -/
theorem encodeOfDecode : Obligations.EncodeOfDecode := fun _ _ => encode_of_decode

/-! ### The fields of an opcode's command -/

/-- The fields are those of a command with opcode `o`: a field it does not use is zero (R95). -/
def Opcode.Admits (o : Opcode) (f : Fields) : Prop :=
  f.op = o.code ∧ (o.usesA = true ∨ f.a = 0) ∧ (o.usesImm = true ∨ f.imm = 0)

theorem Opcode.admits_fields_instr (o : Opcode) (a : Byte) (imm : Word32) : o.Admits (o.instr a imm).fields := by
  rw [Opcode.fields_instr]
  refine ⟨rfl, ?_, ?_⟩
  · cases o.usesA <;> simp
  · cases o.usesImm <;> simp

theorem Opcode.Admits.fields_instr (h : o.Admits f) : (o.instr f.a f.imm).fields = f := by
  obtain ⟨hop, ha, himm⟩ := h
  rw [Opcode.fields_instr, ← hop, ite_eq_left_iff.mpr fun hu => (ha.resolve_left hu).symm,
    ite_eq_left_iff.mpr fun hu => (himm.resolve_left hu).symm]

theorem Opcode.Admits.decodeFields_eq (h : o.Admits f) : decodeFields f = .ok (o.instr f.a f.imm) := by
  have hdec := decodeFields_fields (o.instr f.a f.imm)
  rwa [h.fields_instr] at hdec

/-- Some command of the opcode is decoded exactly from the fields the opcode admits. -/
theorem exists_decode_instr_iff : (∃ a imm, decode w = .ok (o.instr a imm)) ↔ o.Admits (fieldsOf w) := by
  constructor
  · rintro ⟨a, imm, h⟩
    rw [← fields_of_decodeFields h]
    exact o.admits_fields_instr a imm
  · exact fun h => ⟨_, _, h.decodeFields_eq⟩

theorem Opcode.Admits.unique (h : o.Admits f) (h' : p.Admits f) : o = p := by
  have hcode : o.code = p.code := h.1.symm.trans h'.1
  simpa using congrArg opcodeOf hcode

/-! ### The rows of the opcode table -/

theorem wordOf_injective : Function.Injective wordOf := Function.LeftInverse.injective fieldsOf_wordOf

theorem wordOf_and_wordOf (f g : Fields) :
    wordOf f &&& wordOf g = wordOf ⟨f.op &&& g.op, f.a &&& g.a, f.imm &&& g.imm⟩ :=
  BitVec.and_append.trans (congrArg (· ++ (f.imm &&& g.imm)) BitVec.and_append)

/-- The fields of an opcode's mask: ones over `op` and over every field the command does not use (R93). -/
def Opcode.maskFields (o : Opcode) : Fields :=
  ⟨0xFF, if o.usesA then 0x00 else 0xFF, if o.usesImm then 0x00000000 else 0xFFFFFFFF⟩

theorem mask_and_value_of_mem : ∀ r ∈ opcodeTable,
    r.mask = wordOf r.opcode.maskFields ∧ r.value = r.opcode.code ++ 0#40 := by
  decide

theorem exists_row (o : Opcode) : ∃ r ∈ opcodeTable, r.opcode = o := by cases o <;> decide

/-- The match value is the word with the opcode's value and no other bit. -/
theorem Opcode.code_append_zero (o : Opcode) : o.code ++ 0#40 = wordOf ⟨o.code, 0, 0⟩ := by cases o <;> rfl

theorem and_ite_allOnes_eq_zero {n : Nat} (u : Bool) (x : BitVec n) :
    x &&& (if u then 0 else BitVec.allOnes n) = 0 ↔ u = true ∨ x = 0 := by
  cases u <;> simp

/-- Under the opcode's mask a word is the match value exactly when the opcode admits its fields. -/
theorem Opcode.and_mask_eq_iff (o : Opcode) (f : Fields) :
    wordOf f &&& wordOf o.maskFields = wordOf ⟨o.code, 0, 0⟩ ↔ o.Admits f := by
  rw [wordOf_and_wordOf, wordOf_injective.eq_iff, Fields.mk.injEq]
  refine and_congr ?_ (and_congr (and_ite_allOnes_eq_zero _ _) (and_ite_allOnes_eq_zero _ _))
  rw [show o.maskFields.op = BitVec.allOnes 8 from rfl, BitVec.and_allOnes]

/-- A word matches a row exactly when the row's opcode admits its fields (R93). -/
theorem matches_row_iff {r : TableRow} (hr : r ∈ opcodeTable) :
    w &&& r.mask = r.value ↔ r.opcode.Admits (fieldsOf w) := by
  obtain ⟨hmask, hvalue⟩ := mask_and_value_of_mem r hr
  rw [hmask, hvalue, Opcode.code_append_zero, ← wordOf_fieldsOf w, fieldsOf_wordOf, Opcode.and_mask_eq_iff]

theorem row_ext {r r' : TableRow} (hr : r ∈ opcodeTable) (hr' : r' ∈ opcodeTable) (h : r.opcode = r'.opcode) :
    r = r' := by
  obtain ⟨hmask, hvalue⟩ := mask_and_value_of_mem r hr
  obtain ⟨hmask', hvalue'⟩ := mask_and_value_of_mem r' hr'
  rw [← h] at hmask' hvalue'
  obtain ⟨o, mask, value⟩ := r
  obtain ⟨o', mask', value'⟩ := r'
  rw [TableRow.mk.injEq]
  exact ⟨h, hmask.trans hmask'.symm, hvalue.trans hvalue'.symm⟩

theorem decodes_iff_matches_row (w : CmdWord) (o : Opcode) :
    (∃ a imm, decode w = .ok (o.instr a imm)) ↔ ∃ r ∈ opcodeTable, r.opcode = o ∧ w &&& r.mask = r.value := by
  rw [exists_decode_instr_iff]
  constructor
  · intro h
    obtain ⟨r, hr, rfl⟩ := exists_row o
    exact ⟨r, hr, rfl, (matches_row_iff hr).mpr h⟩
  · rintro ⟨r, hr, rfl, hw⟩
    exact (matches_row_iff hr).mp hw

/-- Settles O3: to match a row is to have fields the row's opcode admits, and a word's fields have one opcode. -/
theorem decodeIsMaskAndMatch : Obligations.DecodeIsMaskAndMatch :=
  ⟨mask_and_value_of_mem, decodes_iff_matches_row, fun _ _ hr _ hr' h h' =>
    row_ext hr hr' (((matches_row_iff hr).mp h).unique ((matches_row_iff hr').mp h'))⟩

/-! ### Illegal words -/

theorem decode_append (op a : Byte) (imm : Word32) : decode (op ++ a ++ imm) = decodeFields ⟨op, a, imm⟩ :=
  congrArg decodeFields (fieldsOf_wordOf ⟨op, a, imm⟩)

theorem decodeFields_of_unknown (h : opcodeOf f.op = none) : decodeFields f = .error .unknownOpcode := by
  simp only [decodeFields, h]

theorem decodeFields_of_nonzero_unused (h : opcodeOf f.op = some o)
    (hne : (o.usesA = false ∧ f.a ≠ 0) ∨ (o.usesImm = false ∧ f.imm ≠ 0)) : ∃ x, decodeFields f = .error x := by
  simp only [decodeFields, h]
  by_cases ha : o.usesA = false ∧ f.a ≠ 0
  · exact ⟨_, if_pos ha⟩
  · exact ⟨_, (if_neg ha).trans (if_pos (hne.resolve_left ha))⟩

open Machine in
/-- A word that decodes to no command is illegal in the sense of R94: its fault is taken as R222 says, and the faulted
block refuses it. -/
theorem illegalWord_of_error {x : DecodeError} (h : decode w = .error x) : Safety.IllegalWord w :=
  ⟨⟨x, h⟩, fun _ hs => (execWord_of_illegal h).trans (running_of_ok hs),
    fun _ hs => (execWord_of_illegal h).trans (running_of_faulted hs)⟩

/-- A byte has no opcode exactly in the seven ranges between and behind the opcode values (R94). -/
theorem opcodeOf_eq_none_iff (b : Byte) : opcodeOf b = none ↔
    (0x04 ≤ b.toNat ∧ b.toNat ≤ 0x0F) ∨ (0x14 ≤ b.toNat ∧ b.toNat ≤ 0x1F) ∨ (0x23 ≤ b.toNat ∧ b.toNat ≤ 0x27) ∨
    (0x2B ≤ b.toNat ∧ b.toNat ≤ 0x2F) ∨ (0x35 ≤ b.toNat ∧ b.toNat ≤ 0x3F) ∨ (0x42 ≤ b.toNat ∧ b.toNat ≤ 0x4F) ∨
    (0x53 ≤ b.toNat ∧ b.toNat ≤ 0xFF) := by
  have hlt : b.toNat < 256 := b.isLt
  unfold opcodeOf
  split
  case h_25 => simp only [imp_false, true_iff] at *; omega
  all_goals simp only [reduceCtorEq, false_iff]; omega

theorem illegalWord_of_unknown (a : Byte) (imm : Word32) {op : Byte} (h : opcodeOf op = none) :
    Safety.IllegalWord (op ++ a ++ imm) :=
  illegalWord_of_error ((decode_append op a imm).trans (decodeFields_of_unknown h))

theorem illegalWord_of_nonzero_unused {op : Byte} (h : opcodeOf op = some o)
    (hne : (o.usesA = false ∧ a ≠ 0) ∨ (o.usesImm = false ∧ imm ≠ 0)) : Safety.IllegalWord (op ++ a ++ imm) := by
  obtain ⟨x, hx⟩ := decodeFields_of_nonzero_unused (f := ⟨op, a, imm⟩) h hne
  exact illegalWord_of_error ((decode_append op a imm).trans hx)

theorem decode_of_opcode {op : Byte} (h : opcodeOf op = some o) (ha : o.usesA = true ∨ a = 0)
    (himm : o.usesImm = true ∨ imm = 0) : decode (op ++ a ++ imm) = .ok (o.instr a imm) :=
  (decode_append op a imm).trans (Opcode.Admits.decodeFields_eq ⟨code_of_opcodeOf h, ha, himm⟩)

/-- Settles O4: the opcode map answers none between its values only, and a word without a command is executed as an illegal
one. -/
theorem illegalWordsRaise : Obligations.IllegalWordsRaise :=
  ⟨opcodeOf_eq_none_iff, fun _ a imm => ⟨illegalWord_of_unknown a imm, fun _ h =>
    ⟨illegalWord_of_nonzero_unused h, fun hz => decode_of_opcode h hz.1 hz.2⟩⟩⟩

/-! ### Words the spec writes out -/

/-- Settles O5: each word is the encoding of its command, and the two lines assemble by evaluation. -/
theorem writtenWordsDecode : Obligations.WrittenWordsDecode :=
  ⟨decode_encode (.fset 0x41 1000), decode_encode (.nget 8), decode_encode (.dbit 1), decode_encode (.dbit 0),
    decode_encode (.rdreg 0), decode_encode (.clen 0x42), decode_encode (.hload 3), decode_encode (.eput 0x42),
    decode_encode .build, decode_encode .ser, rfl, rfl⟩

end Sys2Proof

/-! PROOFS. The header grammar (R101), and the bits of EPUT led back to their symbols by DBIT (R103, R104, R205). -/

namespace Sys2Proof.Machine

open Sys2Proof.Safety

variable {s u : State} {c : Config} {tr l r : CodeTree} {input : List Byte} {codes : List (List Bool)}

/-! ### The header grammar -/

theorem CodeTree.symbols_pos (t : CodeTree) : 1 ≤ t.symbols.length := by
  have hsize := CodeTree.size_pos t
  have hsymbols := CodeTree.size_eq_symbols t
  omega

/-- A header has one `SENTINEL` for each internal node, one fewer than there are leaves (R101). -/
theorem CodeTree.count_sentinel_ser {t : CodeTree} (h : c.sentinel ∉ t.symbols) :
    (t.ser c).count c.sentinel + 1 = t.symbols.length := by
  induction t with
  | leaf v => simpa [CodeTree.ser, CodeTree.symbols] using List.count_eq_zero_of_not_mem h
  | node l r ihl ihr =>
    simp only [CodeTree.symbols, List.mem_append, not_or] at h
    have hl := ihl h.1
    have hr := ihr h.2
    simp only [CodeTree.ser, CodeTree.symbols, List.count_cons_self, List.count_append, List.length_append]
    omega

/-- The lengths of a header, and how many of its bytes are `SENTINEL` (R101). -/
theorem CodeTree.ser_counts (c : Config) (t : CodeTree) :
    (t.ser c).length = t.size ∧ t.size = 2 * t.symbols.length - 1 ∧ 1 ≤ t.symbols.length ∧
      (c.sentinel ∉ t.symbols → (t.ser c).count c.sentinel = t.symbols.length - 1) := by
  have hsize := CodeTree.size_eq_symbols t
  refine ⟨CodeTree.ser_length t, by omega, CodeTree.symbols_pos t, fun h => ?_⟩
  have hcount := CodeTree.count_sentinel_ser h
  omega

/-- Settles O40: `ser` is the pre-order by definition, the counts are by induction over the tree, and equal beginnings come
from equal trees. -/
theorem headerGrammarIsUnambiguous : Obligations.HeaderGrammarIsUnambiguous :=
  fun c => ⟨fun _ => rfl, fun _ _ => rfl, CodeTree.ser_counts c, fun _ _ _ _ => CodeTree.ser_append_injective⟩

/-! ### Codes out and back -/

/-- Leaf symbols have codes, one for each. -/
theorem CodeTree.exists_codes {t : CodeTree} (h : ∀ a ∈ input, a ∈ t.symbols) :
    ∃ codes, List.Forall₂ (fun a code => (a, code) ∈ t.codes) input codes := by
  induction input with
  | nil => exact ⟨[], .nil⟩
  | cons a input ih =>
    obtain ⟨codes, hcodes⟩ := ih fun b hb => h b (List.mem_cons_of_mem a hb)
    have ha : a ∈ t.codes.map (·.1) := CodeTree.codes_symbols t ▸ h a List.mem_cons_self
    obtain ⟨⟨_, code⟩, hcode, rfl⟩ := List.mem_map.mp ha
    exact ⟨code :: codes, .cons hcode hcodes⟩

/-- The codebook entry of a leaf of an internal root is a code EPUT emits: valid, not empty, with the bits of the path. -/
theorem exists_nonempty_code (h : Inv s) (hv : s.cbValid = true) (htr : heldTree s = some (.node l r)) {a : Byte}
    {code : List Bool} (hc : (a, code) ∈ (CodeTree.node l r).codes) :
    ∃ e, memRead s.cb a.toNat = some e ∧ e.valid = true ∧ e.len ≠ 0 ∧ e.bits = code := by
  obtain ⟨tr', p, htr', -, hdepth, -, hentries, -⟩ := codebook_entries h hv
  obtain rfl : tr' = .node l r := by simpa [htr'] using htr
  have hle : code.length ≤ (CodeTree.node l r).depth := CodeTree.codes_length_le _ _ hc
  have hpos : 0 < code.length := List.length_pos_of_ne_nil (CodeTree.codes_ne_nil l r _ hc)
  refine ⟨codeEntry code, hentries _ hc, rfl, fun hlen => ?_, rfl⟩
  have hzero := codeEntry_len (path := code) (by omega)
  simp only [hlen, BitVec.ofNat_eq_ofNat, BitVec.toNat_ofNat, Nat.zero_mod] at hzero
  omega

/-- EPUT emits the codes of leaf symbols of an internal root, one after the other (R103, R191). -/
theorem runAll_eput_codes (h : Inv s) (hf : s.fault = 0) (hv : s.cbValid = true) (htr : heldTree s = some (.node l r))
    (hc : List.Forall₂ (fun a code => (a, code) ∈ (CodeTree.node l r).codes) input codes) :
    runAll (input.map .eput) s = .next (s.emitBits codes.flatten) :=
  runAll_eput hf hv rfl (hc.imp fun _ _ => exists_nonempty_code h hv htr)

/-- A walk over a tree with an internal root is not halted (R200). -/
theorem decHalt_of_internal_root (h : Inv u) (ha : u.decActive = true) {p : List Nat}
    (hrep : Rep u.node u.root.toNat (.node l r) p) : u.decHalt = false := by
  obtain ⟨e, he, hhalt⟩ := h.walk.halt ha
  cases hrep with
  | node hn hk _ _ =>
    obtain rfl := Option.some.inj (he.symm.trans hn)
    simp [hhalt, haltsAt, hk]

/-- DBIT over the bits of codes, from an internal root, emits their symbols and comes back to the root (R104, R201). -/
theorem runAll_dbit_codes (h : Inv u) (hf : u.fault = 0) (ha : u.decActive = true) (hcur : u.cur = u.root)
    (htr : heldTree u = some (.node l r))
    (hc : List.Forall₂ (fun a code => (a, code) ∈ (CodeTree.node l r).codes) input codes) :
    runAll (codes.flatten.map fun b => .dbit (bitByte b)) u = .next (u.emitBytes input) := by
  obtain ⟨p, hrep, -⟩ := rep_of_treeAt htr
  exact runAll_dbit hrep rfl rfl rfl hf ha (decHalt_of_internal_root h ha hrep) hcur hc

/-- Settles O53: the symbols have codes in the tree the two states hold; EPUT emits them and DBIT walks them back. -/
theorem codesWalkBackToTheirSymbols : Obligations.CodesWalkBackToTheirSymbols := by
  rintro s u _ input hs hsf hv hstr ⟨l, r, rfl⟩ hsymbols hu huf ha hcur hutr
  obtain ⟨codes, hcodes⟩ := CodeTree.exists_codes hsymbols
  exact ⟨codes, hcodes, runAll_eput_codes hs hsf hv hstr hcodes, runAll_dbit_codes hu huf ha hcur hutr hcodes⟩

end Sys2Proof.Machine

/-! PROOFS. The control commands NOP, RESET, RDREG and ABORT (R121 to R124): the words of a command by the fields it uses,
the bits of STATUS (R26), and what RDREG answers for an assigned and for an unassigned register number. -/

namespace Sys2Proof

open Safety

variable {o : Opcode}

/-! ### The words of a command, by the fields it uses -/

theorem usesNeither_code (ha : o.usesA = false) (himm : o.usesImm = false) : UsesNeither o.code (o.instr 0 0) :=
  ⟨decode_of_opcode (opcodeOf_code o) (.inr rfl) (.inr rfl), fun _ _ hne =>
    illegalWord_of_nonzero_unused (opcodeOf_code o) (hne.imp (⟨ha, ·⟩) (⟨himm, ·⟩))⟩

theorem usesA_code (ha : o.usesA = true) (himm : o.usesImm = false) : UsesA o.code (o.instr · 0) :=
  fun _ => ⟨decode_of_opcode (opcodeOf_code o) (.inl ha) (.inr rfl), fun _ hne =>
    illegalWord_of_nonzero_unused (opcodeOf_code o) (.inr ⟨himm, hne⟩)⟩

end Sys2Proof

namespace Sys2Proof.Machine

variable {s : State} {a : Byte}

/-! ### NOP, RESET and ABORT -/

/-- Refused or run, a command that answers the state it got answers that state. -/
theorem running_next_self (s : State) : running s (.next s) = .next s := ite_self _

/-- Settles O17: NOP answers its own state when it runs, which is what a refused command answers. -/
theorem nopDoesNothing : Obligations.NopDoesNothing :=
  ⟨usesNeither_code (o := .nop) rfl rfl, running_next_self⟩

/-- Settles O18: RESET answers `resetBlock`, without the frame that would refuse it. -/
theorem resetReturnsToResetState : Obligations.ResetReturnsToResetState :=
  ⟨usesNeither_code (o := .reset) rfl rfl, fun s => ⟨resetBlock s, rfl, resetValues_resetBlock s, resetBlock_port s⟩⟩

/-- Settles O20: ABORT raises its fault whenever it runs. -/
theorem abortRecordsIoAbort : Obligations.AbortRecordsIoAbort :=
  ⟨usesNeither_code (o := .abort) rfl rfl, fun _ => ⟨running_of_ok, running_of_faulted⟩⟩

/-! ### RDREG -/

/-- Zero-extension keeps every bit, those beyond the width being zero on both sides. -/
theorem getLsbD_setWidth_of_le {n m : Nat} (x : BitVec n) (h : n ≤ m) (j : Nat) :
    (x.setWidth m).getLsbD j = x.getLsbD j := by
  rw [BitVec.getLsbD_setWidth, Bool.and_eq_right_iff_imp]
  exact fun hj => decide_eq_true ((BitVec.lt_of_getLsbD hj).trans_le h)

/-- The bits of STATUS from bit 0 up (R26); there is none beyond bit 6. -/
theorem statusView_getLsbD (s : State) (j : Nat) : (statusView s).getLsbD j =
    [s.treeValid, s.cbValid, s.hdrValid, s.decActive, s.decHalt, s.decPartial, faulted s].getD j false := by
  rcases j with _ | _ | _ | _ | _ | _ | _ | j
  case succ => simp
  all_goals
    simp only [statusView, BitVec.getLsbD_append]
    simp

theorem faulted_eq_true_iff : faulted s = true ↔ s.fault ≠ 0 := bne_iff_ne

/-- The register numbers beyond 9 are not assigned (R32). -/
theorem regView_unassigned (h : 9 < a.toNat) : regView s a = none := by
  unfold regView
  split
  case h_11 => rfl
  all_goals omega

theorem exec_rdreg_unassigned (h : 9 < a.toNat) :
    exec (.rdreg a) s = running s (.next (raise .range (encode (.rdreg a)) s)) := by
  simp only [exec, execRdreg, regView_unassigned h]

/-- RDREG 1 puts STATUS in RESULT bit by bit, zero-extended (R26, R123). -/
theorem exec_rdreg_status (s : State) : ∃ v : BitVec 64, exec (.rdreg 1) s = .next { s with result := v } ∧
    v.getLsbD 0 = s.treeValid ∧ v.getLsbD 1 = s.cbValid ∧ v.getLsbD 2 = s.hdrValid ∧ v.getLsbD 3 = s.decActive ∧
    v.getLsbD 4 = s.decHalt ∧ v.getLsbD 5 = s.decPartial ∧ (v.getLsbD 6 = true ↔ s.fault ≠ 0) ∧
    ∀ j, 7 ≤ j → v.getLsbD j = false := by
  have hbits (j : Nat) := (getLsbD_setWidth_of_le (statusView s) (m := 64) (by decide) j).trans (statusView_getLsbD s j)
  exact ⟨_, rfl, hbits 0, hbits 1, hbits 2, hbits 3, hbits 4, hbits 5,
    (Bool.eq_iff_iff.mp (hbits 6)).trans faulted_eq_true_iff, fun j hj => (hbits j).trans (List.getD_eq_default _ _ hj)⟩

/-- Settles O19: an assigned number answers its register outside the frame, so in the faulted state too; any other
number raises E_RANGE inside it. -/
theorem rdregReadsTheRegisters : Obligations.RdregReadsTheRegisters :=
  ⟨usesA_code (o := .rdreg) rfl rfl,
    fun s => ⟨rfl, exec_rdreg_status s, rfl, rfl, rfl, rfl, rfl, rfl, rfl, rfl⟩,
    fun _ _ ha => ⟨fun hf => (exec_rdreg_unassigned ha).trans (running_of_ok hf),
      fun hf => (exec_rdreg_unassigned ha).trans (running_of_faulted hf)⟩⟩

end Sys2Proof.Machine

/-! PROOFS. The frequency table commands FCLR, FINC, FSET and FGET (R130 to R133): the words with both fields in use, and
what FINC does at the greatest counter and below it. -/

namespace Sys2Proof

open Safety in
theorem usesBoth_code {o : Opcode} (ha : o.usesA = true) (himm : o.usesImm = true) : UsesBoth o.code o.instr :=
  fun _ _ => decode_of_opcode (opcodeOf_code o) (.inl ha) (.inl himm)

end Sys2Proof

namespace Sys2Proof.Machine

variable {s : State} {a : Byte}

theorem freqRead_freqWrite_same (m : Memory Word32) (k : Nat) (v : Word32) : freqRead (freqWrite m k v) k = v := by
  rw [freqRead_freqWrite, if_pos rfl]

/-! ### FCLR -/

/-- Settles O21: FCLR leaves the table without an entry, and a counter without an entry reads 0. -/
theorem fclrClearsTheTable : Obligations.FclrClearsTheTable :=
  ⟨usesNeither_code (o := .fclr) rfl rfl, fun _ hs => ⟨[], running_of_ok hs, freqRead_nil⟩⟩

/-! ### FINC -/

/-- FINC does not wrap a counter at 2^32 − 1, it raises E_FREQ_OVF (R131). -/
theorem exec_finc_overflow (hs : s.fault = 0) (hmax : freqRead s.freq a.toNat = 0xFFFFFFFF) :
    exec (.finc a) s = .next (raise .freqOvf (encode (.finc a)) s) :=
  (running_of_ok hs).trans (check_fail (not_not.mpr hmax))

/-- One more than a counter that is not the greatest does not wrap. -/
theorem toNat_add_one_of_ne_max {v : Word32} (h : v ≠ 0xFFFFFFFF) : (v + 1).toNat = v.toNat + 1 :=
  BitVec.toNat_add_of_lt (by bv_omega)

/-- Settles O22: the greatest counter fails the check of FINC; any other is written back one greater. -/
theorem fincCountsOneSymbol : Obligations.FincCountsOneSymbol := by
  refine ⟨usesA_code (o := .finc) rfl rfl, fun s a hs => ⟨exec_finc_overflow hs, fun hne => ?_⟩⟩
  refine ⟨_, exec_finc hs a hne, ?_, fun k => freqRead_freqWrite_other _ _⟩
  rw [freqRead_freqWrite_same, toNat_add_one_of_ne_max hne]

/-! ### FSET and FGET -/

/-- Settles O23: FSET writes the operand without a check, and a write is read back at its own symbol only. -/
theorem fsetWritesOneCounter : Obligations.FsetWritesOneCounter :=
  ⟨usesBoth_code (o := .fset) rfl rfl, fun _ _ _ hs =>
    ⟨_, running_of_ok hs, freqRead_freqWrite_same _ _ _, fun _ => freqRead_freqWrite_other _ _⟩⟩

/-- Settles O24: FGET writes RESULT alone, without a check. -/
theorem fgetReadsOneCounter : Obligations.FgetReadsOneCounter :=
  ⟨usesA_code (o := .fget) rfl rfl, fun _ _ => running_of_ok⟩

end Sys2Proof.Machine

/-! PROOFS. The tree builder BUILD (R140 to R147, R150): the state it answers, what its tree depends on, its merges, its
cost and its small tables; and the reads of its nodes, NGET and NWGT (R148, R149). -/

namespace Sys2Proof

open Safety in
theorem usesImm_code {o : Opcode} (ha : o.usesA = false) (himm : o.usesImm = true) : UsesImm o.code (o.instr 0) :=
  fun _ => ⟨decode_of_opcode (opcodeOf_code o) (.inr rfl) (.inl himm), fun _ hne =>
    illegalWord_of_nonzero_unused (opcodeOf_code o) (.inl ⟨ha, hne⟩)⟩

end Sys2Proof

namespace Sys2Proof.Machine

open Sys2Proof.Safety

variable {s : State} {c : Config} {freq freq' : Memory Word32}

/-! ### The state after BUILD -/

theorem builtNodes_pos (freq : Memory Word32) : 1 ≤ builtNodes freq :=
  buildTree_nodes Config.huffcore freq ▸ (buildTree_spec Config.huffcore freq).pos

theorem builtNodes_le (freq : Memory Word32) : builtNodes freq ≤ 511 :=
  buildTree_nodes Config.huffcore freq ▸ (buildTree_spec Config.huffcore freq).le

theorem builtNodes_of_two_le (h : 2 ≤ (presentSymbols freq).length) :
    builtNodes freq = 2 * (presentSymbols freq).length - 1 := by
  unfold builtNodes
  split <;> omega

theorem builtSymbols_of_two_le (h : 2 ≤ (presentSymbols freq).length) :
    builtSymbols c freq = (presentSymbols freq).map (BitVec.ofNat 8) := by
  unfold builtSymbols
  generalize presentSymbols freq = l at *
  match l, h with
  | _ :: _ :: _, _ => rfl

/-- The state a BUILD that runs answers (R140). -/
def State.built (s : State) : State :=
  s.installTree (buildTree Config.huffcore s.freq).1 (builtNodes s.freq) (builtNodes s.freq - 1)

theorem exec_build (h : s.fault = 0) : exec .build s = .next s.built := by
  rw [State.built, ← buildTree_nodes Config.huffcore]
  exact running_of_ok h

theorem State.built_nnodes_toNat (s : State) : s.built.nnodes.toNat = builtNodes s.freq :=
  Nat.mod_eq_of_lt ((builtNodes_le s.freq).trans_lt (by decide))

theorem State.built_root_toNat (s : State) : s.built.root.toNat = builtNodes s.freq - 1 :=
  Nat.mod_eq_of_lt ((Nat.sub_le _ _).trans_lt ((builtNodes_le s.freq).trans_lt (by decide)))

theorem builtResult_built (s : State) : BuiltResult Config.huffcore s.freq s.built.node (builtNodes s.freq) :=
  buildTree_nodes Config.huffcore s.freq ▸ buildTree_spec Config.huffcore s.freq

theorem treeInv_built (s : State) : TreeInv s.built := treeInv_of_builtResult (builtResult_built s) s

theorem builtTree_built (s : State) : BuiltTree s.built := builtTree_of_builtResult (builtResult_built s) s

/-- The tree BUILD leaves in the block, and the symbols of its leaves (R144, R145, R147). -/
theorem heldTree_built (s : State) : ∃ tr p, heldTree s.built = some tr ∧
    Rep s.built.node (builtNodes s.freq - 1) tr p ∧ tr.symbols.Perm (builtSymbols Config.huffcore s.freq) := by
  obtain ⟨tr, p, hrep, -, hsymbols⟩ := (builtResult_built s).tree
  obtain ⟨tr', p', hheld, hrep', -⟩ := rep_of_treeInv (treeInv_built s)
  rw [State.built_root_toNat] at hrep'
  obtain ⟨rfl, -⟩ := hrep.unique hrep'
  exact ⟨tr, p, hheld, hrep, hsymbols⟩

theorem isSome_memRead_built (s : State) (k : Nat) : (memRead s.built.node k).isSome ↔ k < builtNodes s.freq := by
  rw [(treeInv_built s).written, State.built_nnodes_toNat]

/-- Settles O25: BUILD answers `State.built`, with the entries its tree invariants give. -/
theorem buildInstallsATree : Obligations.BuildInstallsATree :=
  ⟨usesNeither_code (o := .build) rfl rfl, fun s hs =>
    ⟨s.built.node, exec_build hs, isSome_memRead_built s, builtNodes_le s.freq⟩⟩

/-! ### What the tree depends on -/

section
variable (h : ∀ a : Byte, freqRead freq' a.toNat = freqRead freq a.toNat)
include h

theorem freqRead_congr {k : Nat} (hk : k < 256) : freqRead freq' k = freqRead freq k := by
  have hread := h (BitVec.ofNat 8 k)
  rwa [BitVec.toNat_ofNat, Nat.mod_eq_of_lt hk] at hread

theorem presentSymbols_congr : presentSymbols freq' = presentSymbols freq :=
  List.filter_congr fun k hk => by rw [freqRead_congr h (List.mem_range.mp hk)]

theorem placeLeaves_congr : placeLeaves freq' = placeLeaves freq := by
  have hleaves : (presentSymbols freq).map (leafOf freq') = (presentSymbols freq).map (leafOf freq) :=
    List.map_congr_left fun k hk => by rw [leafOf, freqRead_congr h (presentSymbols_lt hk), leafOf]
  rw [placeLeaves_eq, placeLeaves_eq, presentSymbols_congr h, hleaves]

/-- The tree depends on the counters alone (R147). -/
theorem buildTree_congr (c : Config) : buildTree c freq' = buildTree c freq := by
  rw [buildTree, placeLeaves_congr h, buildTree]

theorem builtNodes_congr : builtNodes freq' = builtNodes freq := by
  rw [builtNodes, presentSymbols_congr h, builtNodes]

end

/-! ### What BUILD guarantees (R147) -/

/-- The present symbols are among the leaves, the pad leaves aside. -/
theorem subset_builtSymbols (c : Config) (freq : Memory Word32) :
    (presentSymbols freq).map (BitVec.ofNat 8) ⊆ builtSymbols c freq := by
  unfold builtSymbols
  split <;> simp [*]

theorem mem_builtSymbols {a : Byte} (ha : freqRead freq a.toNat ≠ 0) : a ∈ builtSymbols c freq :=
  subset_builtSymbols c freq <|
    List.mem_map.mpr ⟨a.toNat, mem_presentSymbols.mpr ⟨a.isLt, ha⟩, BitVec.ofNat_toNat 8 a ▸ BitVec.setWidth_eq a⟩

/-- A table with a counter that is not zero has a tree of two leaves or more: one symbol gets a pad sibling (R145). -/
theorem two_le_length_builtSymbols (h : presentSymbols freq ≠ []) : 2 ≤ (builtSymbols c freq).length := by
  unfold builtSymbols
  split
  case h_1 hnil => exact absurd hnil h
  case h_2 => exact Nat.le_refl 2
  case h_3 hne hsingle =>
    generalize presentSymbols freq = l at *
    match l with
    | [] => exact absurd rfl h
    | [k] => exact absurd rfl (hsingle k)
    | _ :: _ :: _ => simp

theorem CodeTree.eq_node_of_two_le {t : CodeTree} (h : 2 ≤ t.symbols.length) : ∃ l r, t = .node l r := by
  cases t with
  | leaf v => exact absurd h (by simp [CodeTree.symbols])
  | node l r => exact ⟨l, r, rfl⟩

/-- With a counter that is not zero no leaf is the root, so no code is empty (R147). -/
theorem codes_ne_nil_of_perm_builtSymbols {tr : CodeTree} (hsymbols : tr.symbols.Perm (builtSymbols c freq)) {a : Byte}
    (ha : freqRead freq a.toNat ≠ 0) : ∀ e ∈ tr.codes, e.2 ≠ [] := by
  have hpresent : presentSymbols freq ≠ [] := List.ne_nil_of_mem (mem_presentSymbols.mpr ⟨a.isLt, ha⟩)
  obtain ⟨l, r, rfl⟩ :=
    CodeTree.eq_node_of_two_le (hsymbols.length_eq.symm ▸ two_le_length_builtSymbols (c := c) hpresent)
  exact CodeTree.codes_ne_nil l r

theorem built_congr {s' : State} (h : ∀ a : Byte, freqRead s'.freq a.toNat = freqRead s.freq a.toNat) :
    s'.built.node = s.built.node ∧ s'.built.nnodes = s.built.nnodes ∧ s'.built.root = s.built.root := by
  rw [State.built, buildTree_congr h, builtNodes_congr h]
  exact ⟨rfl, rfl, rfl⟩

/-- Settles O32: the invariants, the leaf symbols and the weight of the root are what the merge loop keeps of its forest;
the codes of any tree are prefix-free; and BUILD reads nothing but counters. -/
theorem buildGuarantees : Obligations.BuildGuarantees := by
  intro s hs
  obtain ⟨tr, p, hheld, -, hsymbols⟩ := heldTree_built s
  obtain ⟨e, he, hweight⟩ := (builtResult_built s).total
  refine ⟨s.built, tr, exec_build hs, hheld, ⟨treeInv_built s, builtTree_built s⟩, ?codes, ?leaves, ?weight, ?table⟩
  case codes =>
    rintro ⟨a, ha⟩
    exact ⟨codes_ne_nil_of_perm_builtSymbols hsymbols ha, CodeTree.codes_prefix tr⟩
  case leaves =>
    exact ⟨hsymbols.nodup_iff.mpr (builtSymbols_nodup s.freq), hsymbols,
      fun a ha => hsymbols.mem_iff.mpr (mem_builtSymbols ha)⟩
  case weight => exact ⟨e, by rwa [State.built_root_toNat], hweight⟩
  case table => exact fun s' hs' hfreq => ⟨s'.built, exec_build hs', built_congr hfreq⟩

/-! ### The merge order and the merges (R141 to R143) -/

theorem before_trans {x y z : ActiveNode} (hxy : x.before y = true) (hyz : y.before z = true) : x.before z = true := by
  rw [before_iff] at *
  rcases hxy with hxy | ⟨hxy, ixy⟩ <;> rcases hyz with hyz | ⟨hyz, iyz⟩
  · exact .inl (hxy.trans hyz)
  · exact .inl (hyz ▸ hxy)
  · exact .inl (hxy ▸ hyz)
  · exact .inr ⟨hxy.trans hyz, ixy.trans iyz⟩

theorem before_or_before {x y : ActiveNode} (hne : x.index ≠ y.index) : x.before y = true ∨ y.before x = true := by
  refine or_iff_not_imp_right.mpr fun hyx => ?_
  exact (before_iff x y).mpr (mergesBefore_of_not_before hyx hne.symm)

/-- What takeFirst removes is before every element that stays, where the indices are different (R142). -/
theorem takeFirst_before {active rest : List ActiveNode} {x : ActiveNode} (hx : takeFirst active = some (x, rest))
    (hindex : (active.map (·.index)).Nodup) : ∀ y ∈ rest, x.before y = true := by
  intro y hy
  have hperm := takeFirst_perm hx
  have hnodup := (hperm.map (·.index)).nodup_iff.mp hindex
  have hne : y.index ≠ x.index := fun heq => (List.nodup_cons.mp hnodup).1 (List.mem_map.mpr ⟨y, hy, heq⟩)
  have hfirst := takeFirst_first hx y (hperm.mem_iff.mpr (List.mem_cons_of_mem x hy))
  exact (before_or_before hne).resolve_left hfirst

/-- Settles O27: the order compares a weight and then an index, and takeFirst removes a first element of ACTIVE. -/
theorem mergeOrderIsStrictAndTotal : Obligations.MergeOrderIsStrictAndTotal := by
  refine ⟨before_iff, fun x => ?_, fun _ _ _ => before_trans, fun _ _ => before_or_before, fun active hne hindex => ?_⟩
  · simp [ActiveNode.before]
  · obtain ⟨x, rest, hx⟩ := takeFirst_isSome hne
    exact ⟨x, rest, hx, takeFirst_perm hx, takeFirst_before hx hindex⟩

/-- Settles O28: what the merge loop keeps, node by node, is `buildTree_merges`. -/
theorem mergesTakeTheTwoLowest : Obligations.MergesTakeTheTwoLowest := by
  intro s hs htwo
  have hnodes := builtNodes_of_two_le htwo
  refine ⟨s.built, exec_build hs, (State.built_nnodes_toNat s).trans hnodes, ?_, fun n hfirst hn => ?_⟩
  · rw [State.built_root_toNat, hnodes, Nat.sub_sub]
  · exact (buildTree_merges Config.huffcore s.freq htwo).2 n hfirst (by rwa [buildTree_nodes, hnodes])

/-! ### The leaves (R141) -/

/-- The leaves stand first in the tree, in symbol order (R141). -/
theorem memRead_buildTree_leaf {k a : Nat} (h : (presentSymbols freq)[k]? = some a) :
    memRead (buildTree c freq).1 k = some (leafOf freq a) := by
  obtain ⟨hk, -⟩ := List.getElem?_eq_some_iff.mp h
  by_cases htwo : 2 ≤ (presentSymbols freq).length
  case pos => exact (buildTree_merges c freq htwo).1 k a h
  case neg =>
    obtain ⟨b, hsingle⟩ := List.length_eq_one_iff.mp (show (presentSymbols freq).length = 1 by omega)
    obtain rfl : k = 0 := by omega
    obtain rfl : b = a := by simpa [hsingle] using h
    rw [buildTree_of_single hsingle]
    rfl

/-- Settles O26: the leaf of a symbol is what place_leaves wrote for it, and no merge writes there. -/
theorem leavesAreInSymbolOrder : Obligations.LeavesAreInSymbolOrder :=
  fun s hs => ⟨s.built, exec_build hs, fun _ _ => memRead_buildTree_leaf⟩

/-! ### Optimality (R150) -/

/-- The counter of a symbol as a number: the weight of its leaf. -/
def symbolCount (freq : Memory Word32) (a : Byte) : Nat := (freqRead freq a.toNat).toNat

theorem weightedLength_eq_cost (freq : Memory Word32) (t : CodeTree) :
    weightedLength freq t = (weightTree (symbolCount freq) t).cost :=
  (weightTree_cost (w := symbolCount freq) t).symm

theorem symbolCount_ofNat (freq : Memory Word32) {k : Nat} (hk : k < 256) :
    symbolCount freq (BitVec.ofNat 8 k) = (freqRead freq k).toNat := by
  rw [symbolCount, BitVec.toNat_ofNat, Nat.mod_eq_of_lt hk]

theorem memOfList_map_snd {α : Type} (vs : List α) (k : Nat) : (memOfList k vs).map Prod.snd = vs := by
  induction vs generalizing k with
  | nil => rfl
  | cons v vs ih => rw [memOfList, List.map_cons, ih]

/-- The weights in ACTIVE before the first merge are the counters. -/
theorem activeLeaves_weights (freq : Memory Word32) (l : List Nat) :
    (activeLeaves (memOfList 0 (l.map (leafOf freq)))).map (·.weight.toNat) =
      l.map fun k => (freqRead freq k).toNat := by
  calc (activeLeaves (memOfList 0 (l.map (leafOf freq)))).map (·.weight.toNat)
    _ = ((memOfList 0 (l.map (leafOf freq))).map Prod.snd).map (·.weight.toNat) := by
        simp only [activeLeaves, List.map_map, Function.comp_def]
    _ = l.map fun k => (freqRead freq k).toNat := by
        simp only [memOfList_map_snd, List.map_map, Function.comp_def, leafOf_weight]

section
variable {l p : List Nat} {i : Nat} {e : Node} {t : CodeTree} {w : Byte → Nat}

theorem exists_of_memRead_leaves (h : memRead (memOfList 0 (l.map (leafOf freq))) i = some e) :
    ∃ k ∈ l, leafOf freq k = e := by
  rw [memRead_memOfList_zero] at h
  exact List.mem_map.mp (List.mem_of_getElem? h)

theorem weight_of_memRead_leaves (hl : ∀ k ∈ l, k < 256)
    (h : memRead (memOfList 0 (l.map (leafOf freq))) i = some e) : e.weight.toNat = symbolCount freq e.sym := by
  obtain ⟨k, hk, rfl⟩ := exists_of_memRead_leaves h
  exact (leafOf_weight freq k).trans (symbolCount_ofNat freq (hl k hk)).symm

/-- Before the first merge every tree is a leaf, whose path has no length. -/
theorem Rep.cost_of_leaves (h : Rep (memOfList 0 (l.map (leafOf freq))) i t p) : (weightTree w t).cost = 0 := by
  cases h with
  | leaf => rfl
  | node he hk =>
    obtain ⟨k, -, rfl⟩ := exists_of_memRead_leaves he
    cases hk

end

theorem buildTree_of_two_le (h : 2 ≤ (presentSymbols freq).length) : buildTree c freq =
    mergeLoop (presentSymbols freq).length (memOfList 0 ((presentSymbols freq).map (leafOf freq)))
      (activeLeaves (memOfList 0 ((presentSymbols freq).map (leafOf freq)))) (presentSymbols freq).length := by
  rw [buildTree, placeLeaves_eq]
  generalize presentSymbols freq = l at *
  match l, h with
  | _ :: _ :: _, _ => rfl

/-- The tree of two or more symbols costs no more than any tree over the same weights: the leaves cost nothing, and the
loop adds no more than any tree over them costs. -/
theorem buildTree_optimal (c : Config) (h : 2 ≤ (presentSymbols freq).length) :
    ∃ t p, Rep (buildTree c freq).1 ((buildTree c freq).2 - 1) t p ∧
      ∀ u : WeightTree, u.weights = ((presentSymbols freq).map fun k => (freqRead freq k).toNat : Multiset Nat) →
        (weightTree (symbolCount freq) t).cost ≤ u.cost := by
  have hle := presentSymbols_length_le freq
  obtain ⟨_, rfl, hlength, hlast, hforest⟩ := leaves_forest freq (presentSymbols freq)
  obtain ⟨G, hG, hrep, -, -⟩ := hforest.trees
  have htotal : ((presentSymbols freq).map fun k => (freqRead freq k).toNat).sum < 2 ^ 40 :=
    totalCount_present freq ▸ totalCount_lt freq
  obtain ⟨t, p, ht, hcost⟩ := mergeLoop_optimal (fuel := (presentSymbols freq).length) (w := symbolCount freq)
    (G := G.map fun g => (g.1, g.2.1)) hforest
    (leafs := fun _ _ he _ => weight_of_memRead_leaves (fun _ => presentSymbols_lt) he) htotal (by omega)
    (List.ne_nil_of_length_pos (by omega)) (by omega) (hlast (List.ne_nil_of_length_pos (by omega)))
    (by rwa [List.map_map]) (List.forall_mem_map.mpr fun g hg => ⟨g.2.2, (hrep g hg).1⟩)
  have hfree : ((G.map fun g => (g.1, g.2.1)).map fun g => (weightTree (symbolCount freq) g.2).cost).sum = 0 := by
    rw [List.map_map]
    exact List.sum_eq_zero (List.forall_mem_map.mpr fun g hg => (hrep g hg).1.cost_of_leaves)
  rw [buildTree_of_two_le h]
  refine ⟨t, p, ht, fun u hu => ?_⟩
  have hbound := hcost u (by rw [hu, activeLeaves_weights])
  omega

/-- Any tree over the present symbols weighs what the counters say. -/
theorem weights_of_perm_present {t : CodeTree} (h : t.symbols.Perm ((presentSymbols freq).map (BitVec.ofNat 8))) :
    (weightTree (symbolCount freq) t).weights =
      ((presentSymbols freq).map fun k => (freqRead freq k).toNat : Multiset Nat) := by
  rw [weightTree_weights, Multiset.coe_eq_coe.mpr (h.map _), List.map_map]
  exact congrArg _ (List.map_congr_left fun k hk => symbolCount_ofNat freq (presentSymbols_lt hk))

/-- Settles O33: the built tree and any other tree with its leaves weigh what the counters say, so `buildTree_optimal`
compares the two. -/
theorem builtTreeIsOptimal : Obligations.BuiltTreeIsOptimal := by
  intro s hs htwo
  obtain ⟨tr, p, hheld, hrep, hsymbols⟩ := heldTree_built s
  obtain ⟨tr₁, p₁, hrep₁, hoptimal⟩ := buildTree_optimal Config.huffcore htwo
  rw [buildTree_nodes] at hrep₁
  obtain ⟨rfl, -⟩ := hrep.unique hrep₁
  rw [builtSymbols_of_two_le htwo] at hsymbols
  refine ⟨s.built, tr, exec_build hs, hheld, hsymbols, fun tr' hsymbols' => ?_⟩
  rw [weightedLength_eq_cost, weightedLength_eq_cost]
  exact hoptimal _ (weights_of_perm_present (hsymbols'.trans hsymbols))

/-! ### Small tables (R144 to R146) -/

/-- The state with the tree of the all-zero table: the leaf `PAD_SYM` of weight 0 (R144). -/
def State.withPadLeaf (s : State) : State := s.installTree [(0, leafNode 0x00 0)] 1 0

theorem exec_build_of_empty (hs : s.fault = 0) (hz : ∀ a : Byte, freqRead s.freq a.toNat = 0) :
    exec .build s = .next s.withPadLeaf := by
  have hempty := presentSymbols_eq_nil hz
  rw [exec_build hs, State.built, buildTree_of_empty hempty, builtNodes, hempty]
  rfl

/-- CBGEN on the pad leaf does not fault: one leaf repeats no symbol. -/
theorem exec_cbgen_withPadLeaf (hs : s.fault = 0) :
    ∃ cb, exec .cbgen s.withPadLeaf = .next (s.withPadLeaf.installCodebook cb) := by
  have hrep : Rep s.withPadLeaf.node 0 (.leaf 0x00) [0] := Rep.leaf (e := leafNode 0x00 0) rfl rfl
  rcases hrep.codebookOf_cases (by decide) with ⟨-, cb, hcb⟩ | ⟨hdup, -⟩
  · refine ⟨cb, (running_of_ok (s := s.withPadLeaf) hs).trans ((check_pass rfl).trans ?_)⟩
    exact congrArg (commit .cbgen s.withPadLeaf · s.withPadLeaf.installCodebook) hcb
  · exact absurd (List.nodup_singleton _) hdup

/-- SER on the pad leaf gives the one header byte 00 (R144). -/
theorem exec_ser_of_padLeaf (hs : s.fault = 0) (ht : s.treeValid = true) (hroot : s.root = 0) (hnodes : s.nnodes = 1)
    (hnode : s.node = [(0, leafNode 0x00 0)]) : exec .ser s = .next (s.setHeader [(0, 0x00)] 1 1 true) := by
  have hser : serialize Config.huffcore s.node s.nnodes.toNat s.root.toNat = .ok [0x00] := by
    rw [hnode, hroot, hnodes]
    rfl
  refine (running_of_ok hs).trans ((check_pass ht).trans ?_)
  rw [hser, commit_ok, hnodes]
  rfl

/-- EHDR on the header 00 emits the length byte 01 and the header byte (R190). -/
theorem exec_ehdr_of_padLeaf (hs : s.fault = 0) (hv : s.hdrValid = true) (hhdr : s.hdr = [(0, 0x00)]) (hlen : s.hlen = 1) :
    exec .ehdr s = .next (s.emitBits (bits8 0x01 ++ bits8 0x00)) := by
  refine (running_of_ok hs).trans ((check_pass hv).trans ?_)
  rw [hhdr, hlen]
  rfl

/-- The encode procedure on the empty input, from any state (R144, R193). -/
theorem runAll_encode_empty (s : State) : ∃ v, runAll (encodeProcedure []) s = .next v ∧ v.fault = 0 ∧
    v.obits = bits8 0x01 ++ bits8 0x00 := by
  have hbuild := exec_build_of_empty (s := resetBlock s) rfl fun _ => rfl
  obtain ⟨cb, hcbgen⟩ := exec_cbgen_withPadLeaf (s := resetBlock s) rfl
  have hser := exec_ser_of_padLeaf (s := (resetBlock s).withPadLeaf.installCodebook cb) rfl rfl rfl rfl rfl
  have hehdr := exec_ehdr_of_padLeaf
    (s := ((resetBlock s).withPadLeaf.installCodebook cb).setHeader [(0, 0x00)] 1 1 true) rfl rfl rfl rfl
  exact ⟨_, (runAll_cons rfl).trans <| (runAll_cons hbuild).trans <| (runAll_cons hcbgen).trans <|
    (runAll_cons hser).trans (runAll_cons hehdr), rfl, rfl⟩

/-- Settles O29: BUILD, SER and the encode procedure, each on the pad leaf. -/
theorem emptyTableGivesThePadLeaf : Obligations.EmptyTableGivesThePadLeaf := by
  intro s hs hz
  obtain ⟨v, hv, hfault, hbits⟩ := runAll_encode_empty s
  have hser := exec_ser_of_padLeaf (s := s.withPadLeaf) hs rfl rfl rfl rfl
  refine ⟨⟨_, exec_build_of_empty hs hz, rfl, rfl, rfl, rfl, _, hser, rfl, rfl⟩, v, hv, hfault, ?_⟩
  rw [hbits]
  rfl

/-- Settles O30: with one present symbol BUILD writes the three nodes of `singleCase`. -/
theorem oneSymbolGetsAPadSibling : Obligations.OneSymbolGetsAPadSibling := by
  intro s a hs ha hz
  have hsingle := presentSymbols_eq_singleton ha hz
  have hnodes : builtNodes s.freq = 3 := by rw [builtNodes, hsingle]; rfl
  have hleaf : leafOf s.freq a.toNat = leafNode a ((freqRead s.freq a.toNat).setWidth 40) := by simp [leafOf]
  have hbuild := exec_build hs
  rw [State.built, buildTree_of_single hsingle, hnodes, hleaf] at hbuild
  exact ⟨_, hbuild, rfl, rfl, rfl, rfl, rfl⟩

/-- The present symbols are the entries FREQ lists, where it is in canonical form (R35, R141). -/
theorem presentSymbols_of_wf (h : Memory.wf Config.nsym (· == 0) freq = true) :
    presentSymbols freq = freq.map Prod.fst := by
  obtain ⟨hrising, hentry⟩ := (Memory.wf_iff _ _ _).mp h
  have hsorted : (freq.map Prod.fst).Pairwise (· < ·) := List.pairwise_map.mpr ((Memory.rising_iff freq).mp hrising)
  refine (List.pairwise_lt_range.filter _).eq_of_mem_iff hsorted fun k => mem_presentSymbols.trans ?_
  constructor
  · rintro ⟨-, hne⟩
    cases hread : memRead freq k with
    | none => exact absurd (by rw [freqRead, hread]; rfl) hne
    | some v => exact List.mem_map.mpr ⟨(k, v), memRead_some_mem hread, rfl⟩
  · intro hk
    obtain ⟨⟨_, v⟩, hv, rfl⟩ := List.mem_map.mp hk
    have hread := mem_memRead hrising hv
    obtain ⟨hlt, hne⟩ := hentry _ v hread
    exact ⟨hlt, by rw [freqRead, hread]; simpa using hne⟩

/-- Settles O31: the table lists five symbols, and the merge loop is evaluated on their leaves. -/
theorem workedExampleBuilds : Obligations.WorkedExampleBuilds := by
  refine ⟨_, exec_build rfl, ?_⟩
  have hpresent := presentSymbols_of_wf (freq := [(0x41, 5), (0x42, 2), (0x43, 1), (0x44, 1), (0x52, 2)]) (by decide)
  rw [State.built, buildTree_of_two_le (by rw [hpresent]; decide), builtNodes_of_two_le (by rw [hpresent]; decide),
    hpresent]
  decide

/-! ### NGET and NWGT -/

/-- The frame NGET and NWGT share: entry `n` of the node memory is read for the command `i` (R148, R149). -/
def readNode (i : Instr) (n : Word32) (s : State) (f : Node → State) : Host.Outcome State Fault Refusal :=
  running s <| check (s.treeValid = true) .seq i s <| check (nodeInRange s n) .range i s <|
    commit i s (readEntry .node s.node n.toNat) f

section
variable {i : Instr} {n : Word32} {f : Node → State}

theorem exec_nget : exec (.nget n) s = readNode (.nget n) n s fun e => s.setResult ((packNode e).setWidth 64) := rfl

theorem exec_nwgt : exec (.nwgt n) s = readNode (.nwgt n) n s fun e => s.setResult (e.weight.setWidth 64) := rfl

theorem readNode_of_noTree (hs : s.fault = 0) (ht : s.treeValid = false) :
    readNode i n s f = .next (raise .seq (encode i) s) :=
  (running_of_ok hs).trans (check_fail (by simp [ht]))

theorem readNode_of_beyond (hs : s.fault = 0) (ht : s.treeValid = true) (hn : s.nnodes.toNat ≤ n.toNat) :
    readNode i n s f = .next (raise .range (encode i) s) :=
  (running_of_ok hs).trans ((check_pass ht).trans (check_fail hn.not_gt))

/-- Below NNODES every entry holds a value (R27). -/
theorem readNode_of_inRange (h : Inv s) (hs : s.fault = 0) (ht : s.treeValid = true) (hn : n.toNat < s.nnodes.toNat) :
    ∃ e, memRead s.node n.toNat = some e ∧ readNode i n s f = .next (f e) := by
  obtain ⟨e, he⟩ := Option.isSome_iff_exists.mp (node_isSome h ht hn)
  refine ⟨e, he, (running_of_ok hs).trans ((check_pass ht).trans ((check_pass hn).trans ?_))⟩
  rw [readEntry_of_some he, commit_ok]

end

theorem packNode_eq (e : Node) :
    packNode e = (if e.kind = .internal then 1#1 else 0#1) ++ e.sym ++ e.left ++ e.right := by
  unfold packNode
  cases e.kind <;> rfl

/-- Settles O34: the two checks of NGET, the entry, and the unused fields the tree invariants give it. -/
theorem ngetReadsOneNode : Obligations.NgetReadsOneNode := by
  refine ⟨usesImm_code (o := .nget) rfl rfl, fun s n h hs => ⟨readNode_of_noTree hs, readNode_of_beyond hs, ?_⟩⟩
  intro ht hn
  obtain ⟨e, he, hread⟩ := readNode_of_inRange (i := .nget n) h hs ht hn
  refine ⟨e, he, ?_, (h.tree ht).leaf_fields _ _ he, (h.tree ht).internal_fields _ _ he⟩
  rw [exec_nget, hread, packNode_eq]
  rfl

/-- Settles O35: the two checks of NWGT and the entry; every weight of a deserialized tree is 0. -/
theorem nwgtReadsOneWeight : Obligations.NwgtReadsOneWeight := by
  refine ⟨usesImm_code (o := .nwgt) rfl rfl, fun s n h hs => ⟨readNode_of_noTree hs, readNode_of_beyond hs, ?_⟩⟩
  intro ht hn
  obtain ⟨e, he, hread⟩ := readNode_of_inRange (i := .nwgt n) h hs ht hn
  exact ⟨e, he, exec_nwgt.trans hread, fun hd => hd.weights_zero _ _ he⟩

end Sys2Proof.Machine

/-! PROOFS. The codebook (R160 to R163): a codebook that reads as the codes of a tree, the sum of 2^(−len) over the leaves,
and the commands CBGEN, CLEN and CBIT. -/

namespace Sys2Proof.Machine

open Sys2Proof.Safety

variable {s : State} {tr : CodeTree} {cb : Memory CbEntry} {a : Byte} {e : CbEntry}

/-! ### The codes of a tree -/

theorem CodeTree.mem_symbols_iff_exists_code {t : CodeTree} : a ∈ t.symbols ↔ ∃ path, (a, path) ∈ t.codes := by
  rw [← CodeTree.codes_symbols, List.mem_map]
  exact ⟨fun ⟨x, hx, hxa⟩ => ⟨x.2, hxa ▸ hx⟩, fun ⟨path, hpath⟩ => ⟨_, hpath, rfl⟩⟩

/-- Walking a code from the tree's first entry ends on the leaf of its symbol (R161). -/
theorem Rep.follow_code {nodes : Memory Node} {i : Nat} {t : CodeTree} {p : List Nat} (h : Rep nodes i t p) :
    ∀ x ∈ t.codes, ∃ d, follow nodes i x.2 = some d ∧ d.kind = .leaf ∧ d.sym = x.1 := by
  induction h with
  | leaf hread hkind =>
    intro x hx
    obtain rfl := List.mem_singleton.mp hx
    exact ⟨_, hread, hkind, rfl⟩
  | node hread hkind _ _ ihl ihr =>
    intro x hx
    simp only [CodeTree.codes, List.mem_append, List.mem_map] at hx
    rcases hx with ⟨y, hy, rfl⟩ | ⟨y, hy, rfl⟩
    · simpa [follow, hread, hkind] using ihl y hy
    · simpa [follow, hread, hkind] using ihr y hy

/-- Kraft's equality (R161), scaled by `2 ^ n` to stay among the natural numbers. -/
theorem CodeTree.sum_two_pow_codes {t : CodeTree} {n : Nat} (h : t.depth ≤ n) :
    (t.codes.map fun x => 2 ^ (n - x.2.length)).sum = 2 ^ n := by
  induction t generalizing n with
  | leaf v => simp [CodeTree.codes]
  | node l r ihl ihr =>
    simp only [CodeTree.depth] at h
    obtain ⟨m, rfl⟩ : ∃ m, n = m + 1 := ⟨n - 1, by omega⟩
    have hl := ihl (n := m) (by omega)
    have hr := ihr (n := m) (by omega)
    simp only [CodeTree.codes, List.map_append, List.map_map, Function.comp_def, List.length_cons,
      Nat.add_sub_add_right, List.sum_append, hl, hr]
    omega

/-- A sum over an initial segment is the sum over the places where its summand is not zero. -/
theorem sum_map_range_eq {l : List Nat} {f : Nat → Nat} {n : Nat} (hnodup : l.Nodup) (hlt : ∀ k ∈ l, k < n)
    (hzero : ∀ k < n, k ∉ l → f k = 0) : ((List.range n).map f).sum = (l.map f).sum := by
  rw [← List.sum_toFinset f List.nodup_range, ← List.sum_toFinset f hnodup]
  refine (Finset.sum_subset (fun k hk => ?_) fun k hk hkl => ?_).symm
  · exact List.mem_toFinset.mpr (List.mem_range.mpr (hlt k (List.mem_toFinset.mp hk)))
  · exact hzero k (List.mem_range.mp (List.mem_toFinset.mp hk)) (mt List.mem_toFinset.mpr hkl)

/-- A sum over the 256 symbols that counts 2^(255 − len) for each leaf symbol and 0 for any other is 2^255. -/
theorem sum_symbols_eq {f : Nat → Nat} (hdepth : tr.depth ≤ 255) (hnodup : tr.symbols.Nodup)
    (hcode : ∀ x ∈ tr.codes, f x.1.toNat = 2 ^ (255 - x.2.length)) (hblank : ∀ a : Byte, a ∉ tr.symbols → f a.toNat = 0) :
    ((List.range 256).map f).sum = 2 ^ 255 := by
  have hsupport : ((List.range 256).map f).sum = ((tr.symbols.map BitVec.toNat).map f).sum := by
    refine sum_map_range_eq (hnodup.map fun _ _ => BitVec.eq_of_toNat_eq) (fun k hk => ?_) fun k hk hkl => ?_
    · obtain ⟨a, -, rfl⟩ := List.mem_map.mp hk
      exact a.isLt
    · have hval : (BitVec.ofNat 8 k).toNat = k := (BitVec.toNat_ofNat k 8).trans (Nat.mod_eq_of_lt hk)
      exact hval ▸ hblank _ fun hmem => hkl (List.mem_map.mpr ⟨_, hmem, hval⟩)
  rw [hsupport, ← CodeTree.sum_two_pow_codes hdepth, ← CodeTree.codes_symbols, List.map_map, List.map_map]
  exact congrArg List.sum (List.map_congr_left hcode)

/-! ### A codebook that reads as the codes of a tree -/

/-- The codebook `cb` reads as the codes of the tree `tr`: a leaf's symbol has its code, every other symbol none (R160). -/
structure ReadsAsCodes (cb : Memory CbEntry) (tr : CodeTree) : Prop where
  code : ∀ x ∈ tr.codes, memRead cb x.1.toNat = some (codeEntry x.2)
  blank : ∀ a : Byte, a ∉ tr.symbols → memRead cb a.toNat = some blankEntry

theorem ReadsAsCodes.entry_cases (h : ReadsAsCodes cb tr) (he : memRead cb a.toNat = some e) :
    (∃ path, (a, path) ∈ tr.codes ∧ e = codeEntry path) ∨ (a ∉ tr.symbols ∧ e = blankEntry) := by
  by_cases ha : a ∈ tr.symbols
  · obtain ⟨path, hpath⟩ := CodeTree.mem_symbols_iff_exists_code.mp ha
    exact .inl ⟨path, hpath, Option.some.inj (he.symm.trans (h.code _ hpath))⟩
  · exact .inr ⟨ha, Option.some.inj (he.symm.trans (h.blank a ha))⟩

/-- A valid entry is the code of a leaf. -/
theorem ReadsAsCodes.exists_code (h : ReadsAsCodes cb tr) (he : memRead cb a.toNat = some e) (hv : e.valid = true) :
    ∃ path, (a, path) ∈ tr.codes ∧ e = codeEntry path := by
  rcases h.entry_cases he with hcode | ⟨-, rfl⟩
  · exact hcode
  · exact absurd hv Bool.false_ne_true

theorem ReadsAsCodes.exists_valid_iff (h : ReadsAsCodes cb tr) :
    (∃ e, memRead cb a.toNat = some e ∧ e.valid = true) ↔ a ∈ tr.symbols := by
  rw [CodeTree.mem_symbols_iff_exists_code]
  constructor
  · rintro ⟨e, he, hv⟩
    obtain ⟨path, hpath, -⟩ := h.exists_code he hv
    exact ⟨path, hpath⟩
  · rintro ⟨path, hpath⟩
    exact ⟨_, h.code _ hpath, rfl⟩

theorem ReadsAsCodes.eq_of_prefix {b : Byte} {f : CbEntry} (h : ReadsAsCodes cb tr) (he : memRead cb a.toNat = some e)
    (hf : memRead cb b.toNat = some f) (hev : e.valid = true) (hfv : f.valid = true) (hp : e.bits <+: f.bits) : a = b := by
  obtain ⟨pa, hpa, rfl⟩ := h.exists_code he hev
  obtain ⟨pb, hpb, rfl⟩ := h.exists_code hf hfv
  exact congrArg Prod.fst (CodeTree.codes_prefix tr _ hpa _ hpb hp)

/-- The length of a code in a tree of at most 256 levels fits its 8-bit field (R7). -/
theorem codeEntry_len_of_mem {x : Byte × List Bool} (hdepth : tr.depth ≤ 255) (hx : x ∈ tr.codes) :
    (codeEntry x.2).len.toNat = x.2.length := by
  have hle := CodeTree.codes_length_le tr x hx
  exact codeEntry_len (by omega)

/-- With CB_VALID 1 the codebook reads as the codes of the held tree (R161). -/
theorem readsAsCodes_heldTree (h : Inv s) (hc : s.cbValid = true) : ∃ tr p, heldTree s = some tr ∧
    Rep s.node s.root.toNat tr p ∧ tr.depth ≤ 255 ∧ tr.symbols.Nodup ∧ ReadsAsCodes s.cb tr := by
  obtain ⟨tr, p, hheld, hrep, hdepth, hnodup, hcode, hblank⟩ := codebook_entries h hc
  exact ⟨tr, p, hheld, hrep, hdepth, hnodup, hcode, hblank⟩

/-- Settles O37: a valid entry is the code of a leaf, so the guarantees are those of the codes of a tree: the walk and
Kraft's equality by induction over the tree, no code beginning another from the laws. -/
theorem codebookGuarantees : Obligations.CodebookGuarantees := by
  intro s h hc
  obtain ⟨tr, p, hheld, hrep, hdepth, hnodup, hcb⟩ := readsAsCodes_heldTree h hc
  refine ⟨tr, hheld, fun a => hcb.exists_valid_iff, ?path, fun a b e f => hcb.eq_of_prefix, ?internal⟩
  case path =>
    intro a e he hv
    obtain ⟨path, hpath, rfl⟩ := hcb.exists_code he hv
    exact ⟨hpath, codeEntry_len_of_mem hdepth hpath, hrep.follow_code _ hpath⟩
  case internal =>
    rintro ⟨l, r, rfl⟩
    refine ⟨fun a e he hv => ?_, sum_symbols_eq hdepth hnodup (fun x hx => ?_) fun a ha => ?_⟩
    · obtain ⟨path, hpath, rfl⟩ := hcb.exists_code he hv
      rw [codeEntry_len_of_mem hdepth hpath]
      exact List.length_pos_of_ne_nil (CodeTree.codes_ne_nil l r _ hpath)
    · simp only [hcb.code x hx, codeEntry_len_of_mem hdepth hx]
      exact if_pos rfl
    · rw [hcb.blank a ha]
      rfl

/-! ### CBGEN -/

/-- The codebook CBGEN computes from a tree reads as its codes (R160). -/
theorem Rep.readsAsCodes {nodes : Memory Node} {i : Nat} {p : List Nat} (h : Rep nodes i tr p)
    (hdepth : tr.depth < Config.levels) (hcb : codebookOf nodes i = .ok cb) : ReadsAsCodes cb tr := by
  obtain ⟨-, hcode, hblank⟩ := h.codebookOf_ok hdepth hcb
  exact ⟨hcode, hblank⟩

theorem exec_cbgen_of_noTree (hs : s.fault = 0) (ht : s.treeValid = false) :
    exec .cbgen s = .next (raise .seq (encode .cbgen) s) :=
  (running_of_ok hs).trans (check_fail (by simp [ht]))

theorem exec_cbgen_of_tree (hs : s.fault = 0) (ht : s.treeValid = true) :
    exec .cbgen s = commit .cbgen s (codebookOf s.node s.root.toNat) s.installCodebook :=
  (running_of_ok hs).trans (check_pass ht)

/-- Settles O36: the local result of CBGEN is the held tree's codebook where its leaf symbols are distinct, and E_DUP_SYM
where they are not. -/
theorem cbgenInstallsTheCodes : Obligations.CbgenInstallsTheCodes := by
  refine ⟨usesNeither_code (o := .cbgen) rfl rfl, fun s h hs => ⟨exec_cbgen_of_noTree hs, fun ht => ?_⟩⟩
  obtain ⟨tr, p, hheld, hrep, hdepth, -⟩ := rep_of_treeInv (h.tree ht)
  refine ⟨tr, hheld, ?_⟩
  rw [exec_cbgen_of_tree hs ht]
  rcases hrep.codebookOf_cases hdepth with ⟨hnodup, cb, hcb⟩ | ⟨hdup, hraise⟩
  · have hreads := hrep.readsAsCodes hdepth hcb
    refine ⟨fun hdup => absurd hnodup hdup, fun _ => ⟨cb, by rw [hcb]; rfl, fun x hx => ?_, hreads.blank⟩⟩
    exact ⟨_, hreads.code x hx, rfl, rfl, codeEntry_len_of_mem (Nat.le_of_lt_succ hdepth) hx⟩
  · exact ⟨fun _ => by rw [hraise]; rfl, fun hnodup => absurd hnodup hdup⟩

/-! ### CLEN and CBIT -/

/-- Without a code the length is 0 (R160). -/
theorem ReadsAsCodes.len_eq_zero (h : ReadsAsCodes cb tr) (he : memRead cb a.toNat = some e) (hv : e.valid = false) :
    e.len = 0 := by
  rcases h.entry_cases he with ⟨path, -, rfl⟩ | ⟨-, rfl⟩
  · exact Bool.noConfusion hv
  · rfl

theorem packCode_eq (e : CbEntry) : packCode e = (if e.valid then 1#1 else 0#1) ++ e.len := by
  unfold packCode
  cases e.valid <;> rfl

theorem exec_clen_of_entry (hs : s.fault = 0) (hc : s.cbValid = true) (he : memRead s.cb a.toNat = some e) :
    exec (.clen a) s = .next (s.setResult ((packCode e).setWidth 64)) := by
  refine (running_of_ok hs).trans ((check_pass hc).trans ?_)
  rw [readEntry_of_some he, commit_ok]

/-- Settles O38: CLEN reads the entry every symbol has while CB_VALID is 1. -/
theorem clenReadsTheLength : Obligations.ClenReadsTheLength := by
  refine ⟨usesA_code (o := .clen) rfl rfl, fun s a h hs => ⟨fun hc => ?_, fun hc => ?_⟩⟩
  · exact (running_of_ok hs).trans (check_fail (by simp [hc]))
  · obtain ⟨e, he, -⟩ := exists_cbEntry h hc a
    obtain ⟨tr, p, -, -, -, -, hcb⟩ := readsAsCodes_heldTree h hc
    refine ⟨e, he, ?_, hcb.len_eq_zero he⟩
    rw [exec_clen_of_entry hs hc he, packCode_eq]
    rfl

section
variable {n : Word32}

theorem exec_cbit_of_codebook (hs : s.fault = 0) (hc : s.cbValid = true) : exec (.cbit a n) s =
    commit (.cbit a n) s (codeBit s.cb a n) fun b => s.setResult ((BitVec.ofBool b).setWidth 64) :=
  (running_of_ok hs).trans (check_pass hc)

theorem codeBit_of_beyond (he : memRead cb a.toNat = some e) (hn : e.len.toNat ≤ n.toNat) :
    codeBit cb a n = .error (.raise .range) := by
  simp only [codeBit, readEntry_of_some he, if_neg hn.not_gt]

theorem codeBit_of_inRange {b : Bool} (he : memRead cb a.toNat = some e) (hn : n.toNat < e.len.toNat)
    (hb : e.bits[n.toNat]? = some b) : codeBit cb a n = .ok b := by
  simp only [codeBit, readEntry_of_some he, if_pos hn, readBit, hb]

end

theorem setWidth_ofBool_eq (b : Bool) : (BitVec.ofBool b).setWidth 64 = if b then 1 else 0 := by cases b <;> rfl

/-- Settles O39: the entry of a symbol lists `len` bits, so CBIT finds the bit wherever it does not raise E_RANGE. -/
theorem cbitReadsOneBit : Obligations.CbitReadsOneBit := by
  refine ⟨usesBoth_code (o := .cbit) rfl rfl, fun s a n h hs => ⟨fun hc => ?_, fun hc => ?_⟩⟩
  · exact (running_of_ok hs).trans (check_fail (by simp [hc]))
  · obtain ⟨e, he, hlen⟩ := exists_cbEntry h hc a
    rw [exec_cbit_of_codebook hs hc]
    refine ⟨e, he, fun hn => by rw [codeBit_of_beyond he hn]; rfl, fun hn => ?_⟩
    have hb : e.bits[n.toNat]? = some e.bits[n.toNat] := List.getElem?_eq_getElem (hlen ▸ hn)
    refine ⟨_, hb, ?_⟩
    rw [codeBit_of_inRange he hn hb, commit_ok, setWidth_ofBool_eq]
    rfl

end Sys2Proof.Machine

/-! PROOFS. The header (R170 to R177): what SER, DESER, HLOAD, HPUT and HGET answer, what DESER computes from the bytes of
a complete buffer, the nodes it writes, and the round trip between the two directions. -/

namespace Sys2Proof.Machine

open Sys2Proof.Safety

variable {s : State} {tr : CodeTree} {c : Config} {N : Memory Node} {b : Byte}

/-! ### SER -/

theorem exec_ser_of_noTree (hs : s.fault = 0) (ht : s.treeValid = false) :
    exec .ser s = .next (raise .seq (encode .ser) s) :=
  (running_of_ok hs).trans (check_fail (by simp [ht]))

theorem exec_ser_of_tooLarge (h : Inv s) (hs : s.fault = 0) (ht : s.treeValid = true) (hn : 255 < s.nnodes.toNat) :
    exec .ser s = .next (raise .hdrOvf (encode .ser) s) := by
  obtain ⟨_, -, -, -, hser⟩ := serialize_heldTree h ht Config.huffcore
  refine (running_of_ok hs).trans ((check_pass ht).trans ?_)
  rw [hser.trans (if_pos hn), commit_raise]

theorem exec_ser_of_sentinel (h : Inv s) (hs : s.fault = 0) (ht : s.treeValid = true) (htr : heldTree s = some tr)
    (hn : s.nnodes.toNat ≤ 255) (hmem : 0xFF ∈ tr.symbols) : exec .ser s = .next (raise .sentLeaf (encode .ser) s) :=
  (execIn_ser (c := Config.huffcore) h hs ht htr hn).trans (congrArg _ (if_pos hmem))

theorem exec_ser_of_tree (h : Inv s) (hs : s.fault = 0) (ht : s.treeValid = true) (htr : heldTree s = some tr)
    (hn : s.nnodes.toNat ≤ 255) (hmem : 0xFF ∉ tr.symbols) : exec .ser s = .next (s.withHeader Config.huffcore tr) :=
  (execIn_ser (c := Config.huffcore) h hs ht htr hn).trans (congrArg _ (if_neg hmem))

/-- Settles O41: the check of SER, the two faults met while serializing the held tree, and the header of R101. -/
theorem serWritesTheHeader : Obligations.SerWritesTheHeader := by
  refine ⟨usesNeither_code (o := .ser) rfl rfl, fun s h hs => ⟨exec_ser_of_noTree hs, fun ht => ?_⟩⟩
  obtain ⟨tr, htr, hsize, -, -⟩ := serialize_heldTree h ht Config.huffcore
  refine ⟨tr, htr, hsize.symm, ?_, ?_, ?_⟩ <;> rw [hsize]
  · exact exec_ser_of_tooLarge h hs ht
  · exact exec_ser_of_sentinel h hs ht htr
  · intro hn hmem
    refine ⟨_, ?_, memRead_memOfList_zero (tr.ser Config.huffcore)⟩
    rw [exec_ser_of_tree h hs ht htr hn hmem, BitVec.ofNat_toNat]
    rfl

/-! ### The local result of DESER -/

/-- A traversal visits every level of a tree that fits the header buffer (R7). -/
theorem CodeTree.depth_lt_levels (h : tr.size ≤ 255) : tr.depth < Config.levels := by
  have := two_mul_depth_lt_size tr
  simp only [Config.levels]
  omega

section
variable {hdr : Memory Byte} {bs rest : List Byte}

/-- A header with more bytes behind it (R172): the parse ends before the buffer does. -/
theorem deserialize_of_trailing (hb : ∀ k, memRead hdr k = (tr.ser c ++ rest)[k]?) (hmem : c.sentinel ∉ tr.symbols)
    (hrest : rest ≠ []) (hl : (tr.ser c ++ rest).length ≤ 255) :
    deserialize c hdr (tr.ser c ++ rest).length = .error (.raise .hdrTrail) := by
  have hpos := List.length_pos_of_ne_nil hrest
  rw [List.length_append, CodeTree.ser_length] at hl ⊢
  obtain ⟨N, hparse⟩ := parse_of_ser tr (hdr := hdr) (hlen := tr.size + rest.length) (fuel := Config.levels) (pos := 0)
    hmem (fun k hk => by rw [Nat.zero_add, hb, List.getElem?_append_left (by rwa [CodeTree.ser_length])]) (by omega)
    (CodeTree.depth_lt_levels (by omega)) []
  simp only [deserialize, hparse]
  exact if_pos (by omega)

/-- The buffer a parse that succeeds reads begins with the header of a tree (R101, R173). -/
theorem exists_ser_append_of_parse {fuel q : Nat} (hb : ∀ k, memRead hdr k = bs[k]?) (hl : bs.length ≤ 255)
    (hparse : parse c hdr bs.length fuel 0 [] = .ok (q, N)) :
    ∃ tr rest, c.sentinel ∉ CodeTree.symbols tr ∧ bs = tr.ser c ++ rest := by
  obtain ⟨-, hq, ⟨tr, -, hread, hmem⟩, -⟩ := parse_ok hl hparse
  have htake : (List.range' 0 (q - 0)).map (memRead hdr) = (bs.take q).map some := by
    refine List.ext_getElem (by simp [hq]) fun k hk _ => ?_
    simp only [List.length_map, List.length_range'] at hk
    simp [hb, List.getElem?_eq_getElem (show k < bs.length by omega)]
  have hser : tr.ser c = bs.take q := List.map_injective_iff.mpr (Option.some_injective Byte) (hread.symm.trans htake)
  exact ⟨tr, bs.drop q, hmem, by rw [hser, List.take_append_drop]⟩

/-- A complete buffer that begins with no header is malformed: the parse can answer nothing else (R172, R173). -/
theorem deserialize_of_malformed (hb : ∀ k, memRead hdr k = bs[k]?) (hl : bs.length ≤ 255)
    (hno : ¬ ∃ tr rest, c.sentinel ∉ CodeTree.symbols tr ∧ bs = tr.ser c ++ rest) :
    deserialize c hdr bs.length = .error (.raise .hdrMalformed) := by
  have hwritten : ∀ k, k < bs.length → (memRead hdr k).isSome := fun k hk => by simp [hb, hk]
  rcases parse_total (c := c) hl hwritten (fuel := Config.levels) (Nat.zero_le _) (by simp only [Config.levels]; omega) []
    with ⟨⟨q, N⟩, hparse⟩ | hparse
  · exact absurd (exists_ser_append_of_parse hb hl hparse) hno
  · simp only [deserialize, hparse]

end

/-! ### The nodes DESER writes -/

/-- In a tree numbered by header position, the entry at a position stands for the header byte there. -/
theorem Rep.entry_of_ser {k n : Nat} (h : Rep N 0 tr (List.range n)) (hmem : c.sentinel ∉ tr.symbols)
    (hb : (tr.ser c)[k]? = some b) : ∃ e, memRead N k = some e ∧ headerByte c e = b ∧ sentinelLeaf c e = false := by
  obtain ⟨es, hread, hser, hany⟩ := h.readAll_eq c
  obtain ⟨e, he, rfl⟩ : ∃ e, es[k]? = some e ∧ headerByte c e = b := by
    simpa [← hser, List.getElem?_map] using hb
  have hk := congrArg (·[k]?) hread
  obtain ⟨j, hj, hje⟩ : ∃ j, (List.range n)[k]? = some j ∧ memRead N j = some e := by
    simpa [List.getElem?_map, he] using hk
  obtain rfl : k = j := (List.getElem?_eq_some_iff.mp hj).2 ▸ (List.getElem_range _).symm
  refine ⟨e, hje, rfl, ?_⟩
  rw [decide_eq_false hmem, List.any_eq_false] at hany
  simpa using hany e (List.mem_of_getElem? he)

/-- The node of a header byte `SENTINEL` is internal, with its left child at the next position (R173). -/
theorem ParsedNode.of_sentinel {k q : Nat} {e : Node} (h : ParsedNode k q e) (hbyte : headerByte c e = c.sentinel)
    (hleaf : sentinelLeaf c e = false) :
    e.kind = .internal ∧ e.sym = 0 ∧ e.left.toNat = k + 1 ∧ k + 1 < e.right.toNat ∧ e.weight = 0 := by
  obtain ⟨hweight, -, hinternal⟩ := h
  cases hkind : e.kind with
  | leaf => exact absurd hbyte (by simpa [sentinelLeaf, headerByte, hkind] using hleaf)
  | internal =>
    obtain ⟨hsym, hleft, hright, -⟩ := hinternal hkind
    exact ⟨rfl, hsym, hleft, hright, hweight⟩

/-- The node of any other header byte is the leaf of that symbol (R173). -/
theorem ParsedNode.of_symbol {k q : Nat} {e : Node} (h : ParsedNode k q e) (hbyte : headerByte c e ≠ c.sentinel) :
    e = { kind := .leaf, sym := headerByte c e, left := 0, right := 0, weight := 0 } := by
  obtain ⟨hweight, hleaf, -⟩ := h
  obtain ⟨kind, sym, left, right, weight⟩ := e
  cases kind with
  | internal => exact absurd rfl hbyte
  | leaf =>
    obtain ⟨rfl, rfl⟩ := hleaf rfl
    obtain rfl := hweight
    rfl

/-! ### DESER -/

theorem exec_deser_of_incomplete (hs : s.fault = 0) (hv : s.hdrValid = false) :
    exec .deser s = .next (raise .hdrShort (encode .deser) s) :=
  (running_of_ok hs).trans (check_fail (by simp [hv]))

theorem exec_deser_of_complete (hs : s.fault = 0) (hv : s.hdrValid = true) : exec .deser s =
    commit .deser s (deserialize Config.huffcore s.hdr s.hlen.toNat) fun r => s.installTree r.2 r.1 0 :=
  (running_of_ok hs).trans (check_pass hv)

/-- DESER on the header of a tree installs that tree, numbered by header position (R172, R173). -/
theorem exec_deser_of_ser (hs : s.fault = 0) (hv : s.hdrValid = true) (hmem : 0xFF ∉ tr.symbols)
    (hsize : tr.size = s.hlen.toNat) (hb : ∀ k, memRead s.hdr k = (tr.ser Config.huffcore)[k]?) :
    ∃ N, deserialize Config.huffcore s.hdr s.hlen.toNat = .ok (s.hlen.toNat, N) ∧
      Rep N 0 tr (List.range s.hlen.toNat) ∧ treeAt N Config.levels 0 = some tr ∧
      exec .deser s = .next (s.installTree N s.hlen.toNat 0) := by
  have hle : tr.size ≤ 255 := hsize ▸ Nat.le_of_lt_succ s.hlen.isLt
  obtain ⟨N, hdes, hrep⟩ := deserialize_of_ser (c := Config.huffcore) hmem hle hb
  have htree := hrep.treeAt_eq (CodeTree.depth_lt_levels hle)
  rw [hsize] at hdes hrep
  exact ⟨N, hdes, hrep, htree, by rw [exec_deser_of_complete hs hv, hdes, commit_ok]⟩

/-- Settles O42: the check of DESER, and what it computes from a header, from no header and from a header with more bytes
behind it. -/
theorem deserRebuildsTheTree : Obligations.DeserRebuildsTheTree := by
  refine ⟨usesNeither_code (o := .deser) rfl rfl, fun s h hs => ⟨exec_deser_of_incomplete hs, fun hv => ?_⟩⟩
  obtain ⟨bs, hlen, hb⟩ := header_bytes h
  rw [h.header.complete hv] at hlen
  have hl : s.hlen.toNat ≤ 255 := Nat.le_of_lt_succ s.hlen.isLt
  refine ⟨bs, hlen, hb, ?_, fun hno => ?_, ?_⟩
  · rintro tr hmem rfl
    have hsize : tr.size = s.hlen.toNat := (CodeTree.ser_length tr).symm.trans hlen
    obtain ⟨N, hdes, hrep, htree, hexec⟩ := exec_deser_of_ser hs hv hmem hsize hb
    obtain ⟨-, -, -, hnone, hparsed, -⟩ := deserialize_ok hl hdes
    rw [hlen]
    refine ⟨N, by rw [hexec, State.installTree, BitVec.ofNat_toNat]; rfl, htree,
      hrep.preorder_eq (CodeTree.depth_lt_levels (hsize ▸ hl)), fun k b hk => ?_, hnone⟩
    obtain ⟨e, he, rfl, hleaf⟩ := hrep.entry_of_ser hmem hk
    exact ⟨e, he, fun hbyte => (hparsed k e he).of_sentinel hbyte hleaf, (hparsed k e he).of_symbol⟩
  · rw [exec_deser_of_complete hs hv, ← hlen, deserialize_of_malformed hb (hlen ▸ hl) hno]
    rfl
  · rintro ⟨tr, rest, hmem, hrest, rfl⟩
    rw [exec_deser_of_complete hs hv, ← hlen, deserialize_of_trailing hb hmem hrest (hlen ▸ hl)]
    rfl

/-! ### SER and DESER -/

/-- SER, then DESER (R177). -/
theorem ser_deser_keeps_tree (h : Inv s) (hs : s.fault = 0) (ht : s.treeValid = true) (htr : heldTree s = some tr)
    (hn : s.nnodes.toNat ≤ 255) (hmem : 0xFF ∉ tr.symbols) :
    ∃ t u, exec .ser s = .next t ∧ exec .deser t = .next u ∧ u.fault = 0 ∧ u.treeValid = true ∧ heldTree u = some tr := by
  obtain ⟨tr', htr', hsize, -, -⟩ := serialize_heldTree h ht Config.huffcore
  obtain rfl : tr' = tr := Option.some.inj (htr'.symm.trans htr)
  have hlen : tr'.size = (s.withHeader Config.huffcore tr').hlen.toNat := by
    rw [hsize, State.withHeader, State.setHeader_hlen, BitVec.toNat_setWidth, Nat.mod_eq_of_lt (by omega)]
  obtain ⟨N, -, -, htree, hdeser⟩ := exec_deser_of_ser (s := s.withHeader Config.huffcore tr') hs rfl hmem hlen
    (memRead_memOfList_zero _)
  exact ⟨_, _, exec_ser_of_tree h hs ht htr hn hmem, hdeser, hs, rfl, htree⟩

/-- DESER, then SER (R177). -/
theorem deser_ser_keeps_header (h : Inv s) (hs : s.fault = 0) (hv : s.hdrValid = true) (hmem : 0xFF ∉ tr.symbols)
    (hsize : tr.size = s.hlen.toNat) (hb : ∀ k, memRead s.hdr k = (tr.ser Config.huffcore)[k]?) :
    ∃ t u, exec .deser s = .next t ∧ exec .ser t = .next u ∧ u.fault = 0 ∧ u.hlen = s.hlen ∧
      ∀ k, memRead u.hdr k = memRead s.hdr k := by
  obtain ⟨N, hdes, -, htree, hdeser⟩ := exec_deser_of_ser hs hv hmem hsize hb
  have hnodes : (s.installTree N s.hlen.toNat 0).nnodes.toNat ≤ 255 := by
    rw [State.installTree_nnodes, BitVec.toNat_ofNat]
    omega
  have hser := exec_ser_of_tree (inv_deserialize h hdes) hs rfl htree hnodes hmem
  refine ⟨_, _, hdeser, hser, hs, ?_, fun k => (memRead_memOfList_zero _ k).trans (hb k).symm⟩
  rw [State.withHeader, State.setHeader_hlen, State.installTree_nnodes, BitVec.ofNat_toNat]
  exact BitVec.setWidth_setWidth_of_le s.hlen (by decide)

/-- Settles O46: each direction runs the second command on the state the first one answers. -/
theorem serDeserRoundTrip : Obligations.SerDeserRoundTrip :=
  ⟨fun _ _ => ser_deser_keeps_tree, fun _ _ => deser_ser_keeps_header⟩

/-! ### HLOAD, HPUT and HGET -/

theorem headerComplete_eq_decide (f n : BitVec 8) : headerComplete f n = decide (f = n) := rfl

/-- Settles O43: the empty buffer is complete exactly for the length 0. -/
theorem hloadDeclaresALength : Obligations.HloadDeclaresALength := by
  refine ⟨usesA_code (o := .hload) rfl rfl, fun s n hs => ⟨[], (running_of_ok hs).trans ?_, memRead_nil⟩⟩
  simp only [headerComplete_eq_decide, eq_comm (a := (0 : BitVec 8))]
  rfl

theorem hfill_lt_hlen (h : Inv s) (hne : s.hfill ≠ s.hlen) : s.hfill.toNat < s.hlen.toNat :=
  lt_of_le_of_ne h.header.fill_le fun heq => hne (BitVec.eq_of_toNat_eq heq)

theorem exec_hput_of_full (hs : s.fault = 0) (hfull : s.hfill = s.hlen) :
    exec (.hput b) s = .next (raise .hdrFull (encode (.hput b)) s) :=
  (running_of_ok hs).trans (check_fail (not_not.mpr hfull))

/-- With room in the buffer position HFILL exists: it is below HLEN, so below 255 (R63). -/
theorem exec_hput_of_room (h : Inv s) (hs : s.fault = 0) (hne : s.hfill ≠ s.hlen) :
    exec (.hput b) s = .next (s.setHeader (memWrite s.hdr s.hfill.toNat b) s.hlen (s.hfill + 1)
      (headerComplete (s.hfill + 1) s.hlen)) := by
  have hcap : s.hfill.toNat < Config.hdrCap := (hfill_lt_hlen h hne).trans_le (Nat.le_of_lt_succ s.hlen.isLt)
  refine (running_of_ok hs).trans ((check_pass hne).trans ?_)
  rw [if_pos hcap, commit_ok]

/-- Settles O44: E_HDR_FULL, or one write at position HFILL. -/
theorem hputAppendsOneByte : Obligations.HputAppendsOneByte := by
  refine ⟨usesA_code (o := .hput) rfl rfl, fun s b h hs => ⟨exec_hput_of_full hs, fun hne => ?_⟩⟩
  have hlt := hfill_lt_hlen h hne
  exact ⟨_, exec_hput_of_room h hs hne, by bv_omega, memRead_memWrite_same _ _ _,
    fun _ => memRead_memWrite_other _ _⟩

/-- Settles O45: the check of HGET, and a byte that every position below HFILL holds. -/
theorem hgetReadsOneByte : Obligations.HgetReadsOneByte := by
  refine ⟨usesA_code (o := .hget) rfl rfl, fun s k h hs => ⟨fun hk => ?_, fun hk => ?_⟩⟩
  · exact (running_of_ok hs).trans (check_fail hk.not_gt)
  · obtain ⟨b, hb⟩ := Option.isSome_iff_exists.mp (hdr_isSome h hk)
    refine ⟨b, hb, (running_of_ok hs).trans ((check_pass hk).trans ?_)⟩
    rw [readEntry_of_some hb, commit_ok]
    rfl

end Sys2Proof.Machine

/-! PROOFS. The encoder commands EHDR and EPUT (R190, R191), and the encode procedure (R192, R193): what the first pass
counts, the tree and the codebook made of it, and the four ways the commands from SER on end. -/

namespace Sys2Proof.Machine

open Sys2Proof.Safety

variable {s t u : State} {tr : CodeTree} {a : Byte} {e : CbEntry} {c : Config} {i : Instr} {is : List Instr}

/-! ### EHDR -/

theorem bits8_length (v : Byte) : (bits8 v).length = 8 := rfl

theorem length_flatMap_bits8 (bs : List Byte) : (bs.flatMap bits8).length = 8 * bs.length := by
  simp [List.length_flatMap, bits8_length, Nat.mul_comm]

section
variable {bs : List Byte}

/-- The bits of a buffer that holds exactly the bytes `bs` (R190). -/
theorem headerBits_of_bytes {hdr : Memory Byte} {n : BitVec 8} (hlen : bs.length = n.toNat)
    (hb : ∀ k, memRead hdr k = bs[k]?) : headerBits hdr n = .ok (bits8 n ++ bs.flatMap bits8) := by
  have hread : readAll .hdr hdr (List.range n.toNat) = .ok bs :=
    readAll_ok_iff.mpr (List.ext_getElem (by simp [hlen]) fun k _ _ => by simp [hb])
  simp only [headerBits, hread]

theorem exec_ehdr_of_bytes (hs : s.fault = 0) (hv : s.hdrValid = true) (hlen : bs.length = s.hlen.toNat)
    (hb : ∀ k, memRead s.hdr k = bs[k]?) : exec .ehdr s = .next (s.emitBits (bits8 s.hlen ++ bs.flatMap bits8)) := by
  refine (running_of_ok hs).trans ((check_pass hv).trans ?_)
  rw [headerBits_of_bytes hlen hb, commit_ok]

end

/-- Settles O47: a complete buffer holds HLEN bytes, and EHDR emits eight bits for the length and for each of them. -/
theorem ehdrEmitsTheHeader : Obligations.EhdrEmitsTheHeader := by
  refine ⟨usesNeither_code (o := .ehdr) rfl rfl, bits8_eq_map, fun s h hs => ⟨fun hv => ?_, fun hv => ?_⟩⟩
  · exact (running_of_ok hs).trans (check_fail (by simp [hv]))
  · obtain ⟨bs, hlen, hb⟩ := header_bytes h
    rw [h.header.complete hv] at hlen
    refine ⟨bs, hlen, hb, exec_ehdr_of_bytes hs hv hlen hb, ?_⟩
    rw [List.length_append, bits8_length, length_flatMap_bits8, hlen, Nat.mul_add]

/-! ### EPUT -/

theorem exec_eput_of_codebook (hs : s.fault = 0) (hc : s.cbValid = true) :
    exec (.eput a) s = commit (.eput a) s (codeBits s.cb a) s.emitBits :=
  (running_of_ok hs).trans (check_pass hc)

theorem codeBits_of_entry {cb : Memory CbEntry} (he : memRead cb a.toNat = some e) :
    codeBits cb a = if e.valid = false ∨ e.len = 0 then .error (.raise .noCode) else .ok e.bits := by
  simp only [codeBits, readEntry_of_some he]

/-- Settles O48: with a codebook every symbol has an entry, which says whether EPUT has a code to emit. -/
theorem eputEmitsOneCode : Obligations.EputEmitsOneCode := by
  refine ⟨usesA_code (o := .eput) rfl rfl, fun s a h hs => ⟨fun hc => ?_, fun hc => ?_⟩⟩
  · exact (running_of_ok hs).trans (check_fail (by simp [hc]))
  · obtain ⟨e, he, hlen⟩ := exists_cbEntry h hc a
    rw [exec_eput_of_codebook hs hc, codeBits_of_entry he]
    refine ⟨e, he, fun hno => ?_, fun hv hne => ⟨?_, hlen⟩⟩
    · rw [if_pos hno]
      rfl
    · rw [if_neg (not_or.mpr ⟨by simp [hv], hne⟩)]
      rfl

/-! ### The invariant over a run of commands -/

theorem keepsInv_exec (h : Inv s) (i : Instr) : KeepsInv (exec i s) :=
  execIn_huffcore i s ▸ keepsInv_execIn h Config.huffcore i

theorem inv_of_exec (h : Inv s) (ht : exec i s = .next t) : Inv t := by
  obtain ⟨u, hu, hinv⟩ := keepsInv_exec h i
  exact Host.Outcome.next.inj (hu.symm.trans ht) ▸ hinv

theorem inv_of_runAll (h : Inv s) (ht : runAll is s = .next t) : Inv t := by
  induction is generalizing s with
  | nil => exact Host.Outcome.next.inj ht ▸ h
  | cons i is ih =>
    obtain ⟨u, hu, hinv⟩ := keepsInv_exec h i
    exact ih hinv ((runAll_cons hu).symm.trans ht)

/-! ### The table and the tree of an input -/

/-- A leaf that is no pad leaf carries a present symbol (R141, R144, R145). -/
theorem mem_builtSymbols_cases {freq : Memory Word32} (h : a ∈ builtSymbols c freq) :
    a = c.padSym ∨ a = c.altPadSym ∨ a ∈ (presentSymbols freq).map (BitVec.ofNat 8) := by
  unfold builtSymbols at h
  split at h
  case h_1 => exact .inl (List.mem_singleton.mp h)
  case h_2 k hk =>
    obtain rfl | rfl := List.mem_pair.mp h
    · exact .inr (.inr (hk ▸ List.mem_singleton_self _))
    · split
      · exact .inr (.inl rfl)
      · exact .inl rfl
  case h_3 => exact .inr (.inr h)

section
variable {freq : Memory Word32} {input : List Byte}
  (hcount : ∀ a : Byte, (freqRead freq a.toNat).toNat = input.count a)
include hcount

theorem freqRead_ne_zero_iff_mem (a : Byte) : freqRead freq a.toNat ≠ 0 ↔ a ∈ input := by
  rw [← List.count_pos_iff, ← hcount a, Nat.pos_iff_ne_zero, ne_eq, ← BitVec.toNat_inj]
  rfl

theorem mem_map_presentSymbols_iff (a : Byte) : a ∈ (presentSymbols freq).map (BitVec.ofNat 8) ↔ a ∈ input := by
  rw [← freqRead_ne_zero_iff_mem hcount, List.mem_map]
  constructor
  · rintro ⟨k, hk, rfl⟩
    rw [BitVec.toNat_ofNat, Nat.mod_eq_of_lt (presentSymbols_lt hk)]
    exact (mem_presentSymbols.mp hk).2
  · intro hne
    exact ⟨a.toNat, mem_presentSymbols.mpr ⟨a.isLt, hne⟩, by simp⟩

/-- The present symbols are the distinct bytes of the input (R131, R141). -/
theorem length_presentSymbols : (presentSymbols freq).length = input.dedup.length := by
  have hnodup := ofNat8_nodup (presentSymbols_nodup freq) fun _ => presentSymbols_lt
  have hperm := (List.perm_ext_iff_of_nodup hnodup (List.nodup_dedup input)).mpr fun a => by
    rw [mem_map_presentSymbols_iff hcount, List.mem_dedup]
  rw [← hperm.length_eq, List.length_map]

/-- More than 128 distinct bytes make a tree that does not fit the header buffer (R171, R192). -/
theorem builtNodes_gt_iff : 255 < builtNodes freq ↔ 128 < input.dedup.length := by
  rw [← length_presentSymbols hcount, builtNodes]
  split <;> omega

/-- The pad leaves carry other values than `SENTINEL` (R8), so it comes from the input alone. -/
theorem sentinel_mem_builtSymbols_iff : c.sentinel ∈ builtSymbols c freq ↔ c.sentinel ∈ input := by
  rw [← mem_map_presentSymbols_iff hcount]
  refine ⟨fun h => ?_, fun h => subset_builtSymbols c freq h⟩
  rcases mem_builtSymbols_cases h with hpad | halt | hpresent
  · exact absurd hpad c.distinct.1
  · exact absurd halt c.distinct.2.1
  · exact hpresent

end

/-- The tree and the codebook BUILD and CBGEN make of any table: its leaf symbols are distinct, so CBGEN does not fault
(R147, R160). -/
theorem runAll_build_cbgen (h : Inv s) (hs : s.fault = 0) (is : List Instr) : ∃ cb tr,
    runAll (.build :: .cbgen :: is) s = runAll is (s.built.installCodebook cb) ∧ Inv (s.built.installCodebook cb) ∧
      heldTree (s.built.installCodebook cb) = some tr ∧ tr.symbols.Perm (builtSymbols Config.huffcore s.freq) := by
  have hbuild := exec_build hs
  have hbuilt := inv_of_exec h hbuild
  obtain ⟨tr, p, htr, -, hsymbols⟩ := heldTree_built s
  obtain ⟨tr', htr', -, hcodes⟩ := (cbgenInstallsTheCodes.2 s.built hbuilt hs).2 rfl
  obtain rfl : tr' = tr := Option.some.inj (htr'.symm.trans htr)
  obtain ⟨cb, hcbgen, -⟩ := hcodes (hsymbols.nodup_iff.mpr (builtSymbols_nodup s.freq))
  exact ⟨cb, tr', (runAll_cons hbuild).trans (runAll_cons hcbgen), inv_of_exec hbuilt hcbgen, htr, hsymbols⟩

/-! ### The commands after the first pass -/

section
variable {input : List Byte}

/-- The commands that serialize the tree and write the file: SER, EHDR and the second pass (R193). -/
def outputCommands (input : List Byte) : List Instr := .ser :: .ehdr :: input.map .eput

/-- The commands after the first pass (R193). -/
def codingCommands (input : List Byte) : List Instr := .build :: .cbgen :: outputCommands input

/-- A faulted block refuses all of them (R229). -/
theorem codingCommands_refused (hi : i ∈ codingCommands input) : i ≠ .reset ∧ ∀ a, i ≠ .rdreg a := by
  simp only [codingCommands, outputCommands, List.mem_cons, List.mem_map] at hi
  rcases hi with rfl | rfl | rfl | rfl | ⟨a, -, rfl⟩ <;> simp

/-- The procedure is the reset, the first pass, and the coding commands (R193). -/
theorem runAll_encodeProcedure (s : State) :
    runAll (encodeProcedure input) s = runAll (input.map .finc ++ codingCommands input) (resetBlock s) := by
  rw [encodeProcedure, List.append_assoc, List.append_assoc]
  exact runAll_cons rfl

/-- A fault of SER ends the procedure: EHDR and EPUT are refused (R193, R229). -/
theorem runAll_of_ser_raise {err : ErrorCode} {w : CmdWord} (hser : exec .ser u = .next (raise err w u)) :
    runAll (outputCommands input) u = .next (raise err w u) :=
  (runAll_cons hser).trans <| runAll_faulted err.code_ne_zero fun _ hi =>
    codingCommands_refused (List.mem_of_mem_drop (i := 3) hi)

/-- EHDR after a SER that completes emits the length byte and the header of the held tree (R171, R190). -/
theorem exec_ehdr_withHeader (h : Inv u) (hu : u.fault = 0) (ht : u.treeValid = true) (htr : heldTree u = some tr)
    (hn : u.nnodes.toNat ≤ 255) : exec .ehdr (u.withHeader c tr) = .next ((u.withHeader c tr).emitBits
      (bits8 (BitVec.ofNat 8 (tr.ser c).length) ++ (tr.ser c).flatMap bits8)) := by
  obtain ⟨tr', htr', hsize, -, -⟩ := serialize_heldTree h ht c
  obtain rfl : tr' = tr := Option.some.inj (htr'.symm.trans htr)
  have hlen : (u.withHeader c tr').hlen = BitVec.ofNat 8 (tr'.ser c).length := by
    rw [CodeTree.ser_length, hsize, BitVec.ofNat_toNat]
    rfl
  rw [← hlen]
  refine exec_ehdr_of_bytes hu rfl ?_ (memRead_memOfList_zero _)
  rw [hlen, BitVec.toNat_ofNat, CodeTree.ser_length, Nat.mod_eq_of_lt (by omega)]

/-! ### The encode procedure -/

/-- The first pass with a byte that occurs 2^32 times: the procedure ends in E_FREQ_OVF (R131, R192). -/
theorem runAll_encode_overflow (s : State) (h : ∃ a, 2 ^ 32 ≤ input.count a) :
    ∃ t, runAll (encodeProcedure input) s = .next t ∧ t.fault = 0x10 := by
  obtain ⟨t, ht, hfault⟩ := runAll_finc_overflow (s := resetBlock s) (input := input) rfl <|
    h.imp fun a ha => le_add_left ha
  refine ⟨t, ?_, hfault⟩
  rw [runAll_encodeProcedure, runAll_append ht]
  exact runAll_faulted (by rw [hfault]; decide) fun _ => codingCommands_refused

/-- The block before SER, where the first pass does not overflow: it holds the tree and the codebook of the input. -/
structure CodedInput (input : List Byte) (u : State) (tr : CodeTree) : Prop where
  inv : Inv u
  noFault : u.fault = 0
  treeValid : u.treeValid = true
  cbValid : u.cbValid = true
  held : heldTree u = some tr
  counted : ∀ a : Byte, (freqRead u.freq a.toNat).toNat = input.count a
  nodes : u.nnodes.toNat = builtNodes u.freq
  symbols : tr.symbols.Perm (builtSymbols Config.huffcore u.freq)
  noBits : u.obits = []

/-- Without an overflow the procedure comes to SER with the input counted and coded (R193). -/
theorem runAll_encode_of_counted (s : State) (h : ∀ a, input.count a < 2 ^ 32) : ∃ u tr, CodedInput input u tr ∧
    runAll (encodeProcedure input) s = runAll (outputCommands input) u := by
  obtain ⟨freq, hfinc, hcount⟩ := runAll_finc (s := resetBlock s) (input := input) rfl fun a => by simpa using h a
  obtain ⟨cb, tr, hrun, hinv, htr, hsymbols⟩ := runAll_build_cbgen (s := (resetBlock s).setFreq freq)
    (inv_of_runAll (inv_resetBlock s) hfinc) rfl (outputCommands input)
  refine ⟨_, tr, ⟨hinv, rfl, rfl, rfl, htr, fun a => (hcount a).trans (Nat.zero_add _), State.built_nnodes_toNat _,
    hsymbols, rfl⟩, ?_⟩
  rw [runAll_encodeProcedure, runAll_append hfinc]
  exact hrun

/-- The codebook has the code `code` for EPUT to emit: it is valid and not empty (R191). -/
def HasCode (cb : Memory CbEntry) (a : Byte) (code : List Bool) : Prop :=
  ∃ e, memRead cb a.toNat = some e ∧ e.valid = true ∧ e.len ≠ 0 ∧ e.bits = code

section
variable (hu : CodedInput input u tr)
include hu

theorem CodedInput.nodes_gt_iff : 255 < u.nnodes.toNat ↔ 128 < input.dedup.length := by
  rw [hu.nodes, builtNodes_gt_iff hu.counted]

theorem CodedInput.nodes_le (h : input.dedup.length ≤ 128) : u.nnodes.toNat ≤ 255 :=
  not_lt.mp (hu.nodes_gt_iff.not.mpr h.not_gt)

theorem CodedInput.sentinel_mem_iff : 0xFF ∈ tr.symbols ↔ 0xFF ∈ input :=
  hu.symbols.mem_iff.trans (sentinel_mem_builtSymbols_iff (c := Config.huffcore) hu.counted)

theorem CodedInput.runAll_of_many (h : 128 < input.dedup.length) :
    ∃ t, runAll (outputCommands input) u = .next t ∧ t.fault = 0x30 :=
  ⟨_, runAll_of_ser_raise (exec_ser_of_tooLarge hu.inv hu.noFault hu.treeValid (hu.nodes_gt_iff.mpr h)), rfl⟩

theorem CodedInput.runAll_of_sentinel (h : input.dedup.length ≤ 128) (hmem : 0xFF ∈ input) :
    ∃ t, runAll (outputCommands input) u = .next t ∧ t.fault = 0x31 :=
  ⟨_, runAll_of_ser_raise (exec_ser_of_sentinel hu.inv hu.noFault hu.treeValid hu.held (hu.nodes_le h)
    (hu.sentinel_mem_iff.mpr hmem)), rfl⟩

/-- Each byte has a leaf, and one leaf alone is the root only where there is no byte to encode (R147). -/
theorem CodedInput.exists_codes : ∃ codes,
    List.Forall₂ (fun a code => (a, code) ∈ tr.codes) input codes ∧ List.Forall₂ (HasCode u.cb) input codes := by
  have hcounter : ∀ a ∈ input, freqRead u.freq a.toNat ≠ 0 := fun a => (freqRead_ne_zero_iff_mem hu.counted a).mpr
  obtain ⟨codes, hcodes⟩ := CodeTree.exists_codes fun a ha => hu.symbols.mem_iff.mpr (mem_builtSymbols (hcounter a ha))
  refine ⟨codes, hcodes, ?_⟩
  cases input with
  | nil => exact List.forall₂_nil_left_iff.mpr (List.forall₂_nil_left_iff.mp hcodes)
  | cons a input =>
    have hpresent : presentSymbols u.freq ≠ [] :=
      List.ne_nil_of_mem (mem_presentSymbols.mpr ⟨a.isLt, hcounter a List.mem_cons_self⟩)
    obtain ⟨l, r, rfl⟩ := CodeTree.eq_node_of_two_le (hu.symbols.length_eq.symm ▸ two_le_length_builtSymbols hpresent)
    exact hcodes.imp fun _ _ => exists_nonempty_code hu.inv hu.cbValid hu.held

/-- SER, EHDR and the second pass write the bits of the file (R108, R192). -/
theorem CodedInput.runAll_of_encodable (h : input.dedup.length ≤ 128) (hmem : 0xFF ∉ input) :
    ∃ t, runAll (outputCommands input) u = .next t ∧ t.fault = 0 ∧ ∃ tr codes, heldTree t = some tr ∧
      List.Forall₂ (fun a code => (a, code) ∈ CodeTree.codes tr) input codes ∧
      t.obits = fileBits (tr.ser Config.huffcore) codes := by
  have hn := hu.nodes_le h
  obtain ⟨codes, hcodes, hentries⟩ := hu.exists_codes
  have hser := exec_ser_of_tree hu.inv hu.noFault hu.treeValid hu.held hn (hu.sentinel_mem_iff.not.mpr hmem)
  have hehdr := exec_ehdr_withHeader (c := Config.huffcore) hu.inv hu.noFault hu.treeValid hu.held hn
  have hrun := (runAll_cons hser).trans <| (runAll_cons hehdr).trans <| runAll_eput hu.noFault hu.cbValid rfl hentries
  refine ⟨_, hrun, hu.noFault, tr, codes, hu.held, hcodes, ?_⟩
  simp [State.withHeader, fileBits, hu.noBits]

end

end

/-- Settles O49: the first pass overflows or it counts the input, and then the tree made of the counters decides which
fault SER records, or that the codes of the input are emitted. -/
theorem encodeProcedureOutcome : Obligations.EncodeProcedureOutcome := by
  intro s input
  by_cases hovf : ∃ a, 2 ^ 32 ≤ input.count a
  · have hno : ¬ ∀ a, input.count a < 2 ^ 32 := fun h => hovf.elim fun a ha => (h a).not_ge ha
    obtain ⟨t, ht, hfault⟩ := runAll_encode_overflow s hovf
    exact ⟨t, ht, fun _ => hfault, fun h => absurd h hno, fun h => absurd h hno, fun h => absurd h hno⟩
  obtain ⟨u, tr, hu, hrun⟩ := runAll_encode_of_counted s fun a => not_le.mp fun ha => hovf ⟨a, ha⟩
  rw [hrun]
  by_cases hmany : 128 < input.dedup.length
  · obtain ⟨t, ht, hfault⟩ := hu.runAll_of_many hmany
    exact ⟨t, ht, fun h => absurd h hovf, fun _ _ => hfault, fun _ h => absurd hmany h.not_gt,
      fun _ h => absurd hmany h.not_gt⟩
  by_cases hmem : 0xFF ∈ input
  · obtain ⟨t, ht, hfault⟩ := hu.runAll_of_sentinel (not_lt.mp hmany) hmem
    exact ⟨t, ht, fun h => absurd h hovf, fun _ h => absurd h hmany, fun _ _ _ => hfault, fun _ _ h => absurd hmem h⟩
  · obtain ⟨t, ht, hfile⟩ := hu.runAll_of_encodable (not_lt.mp hmany) hmem
    exact ⟨t, ht, fun h => absurd h hovf, fun _ h => absurd h hmany, fun _ _ h => absurd h hmem, fun _ _ _ => hfile⟩

end Sys2Proof.Machine

/-! PROOFS. The bitstream decoder (R200 to R205): what DSTART, DBIT and DEND answer, a whole walk over data bits, the ways
the commands up to DESER end, the decode procedure on every file, and what it makes of a file the encode procedure wrote. -/

namespace Sys2Proof.Machine

open Sys2Proof.Safety

variable {s t : State} {e : Node} {a n : Byte} {tr l r : CodeTree} {p : List Nat} {i : Instr}
variable {bs rest file : List Byte} {bits part : List Bool} {input : List Byte} {codes : List (List Bool)} {nbits : Nat}

/-! ### DSTART -/

theorem exec_dstart_of_noTree (hs : s.fault = 0) (ht : s.treeValid = false) :
    exec .dstart s = .next (raise .seq (encode .dstart) s) :=
  (running_of_ok hs).trans (check_fail (by simp [ht]))

theorem exec_dstart_of_tree (hs : s.fault = 0) (ht : s.treeValid = true) (he : memRead s.node s.root.toNat = some e) :
    exec .dstart s = .next (s.setWalk s.root true (haltsAt e) false) := by
  refine (running_of_ok hs).trans ((check_pass ht).trans ?_)
  rw [readEntry_of_some he, commit_ok]

theorem haltsAt_eq_decide (e : Node) : haltsAt e = decide (e.kind = .leaf) := by
  cases hk : e.kind <;> simp [haltsAt, hk]

/-- Settles O50: the check of DSTART, and the root, whose entry every tree has. -/
theorem dstartBeginsAWalk : Obligations.DstartBeginsAWalk := by
  refine ⟨usesNeither_code (o := .dstart) rfl rfl, fun s h hs => ⟨exec_dstart_of_noTree hs, fun ht => ?_⟩⟩
  obtain ⟨e, he⟩ := Option.isSome_iff_exists.mp (node_isSome h ht (h.tree ht).root_lt)
  refine ⟨e, he, ?_⟩
  rw [exec_dstart_of_tree hs ht he, haltsAt_eq_decide]
  rfl

/-! ### DBIT -/

theorem exec_dbit_of_noWalk (hs : s.fault = 0) (ha : s.decActive = false) :
    exec (.dbit a) s = .next (raise .seq (encode (.dbit a)) s) :=
  (running_of_ok hs).trans (check_fail (by simp [ha]))

theorem exec_dbit_of_noBit (hs : s.fault = 0) (ha : s.decActive = true) (hbit : 1 < a.toNat) :
    exec (.dbit a) s = .next (raise .range (encode (.dbit a)) s) :=
  (running_of_ok hs).trans ((check_pass ha).trans (check_fail hbit.not_ge))

theorem exec_dbit_of_halted (hs : s.fault = 0) (ha : s.decActive = true) (hbit : a.toNat ≤ 1) (hh : s.decHalt = true) :
    exec (.dbit a) s = .next s :=
  (running_of_ok hs).trans ((check_pass ha).trans ((check_pass hbit).trans (if_pos hh)))

/-- An operand DBIT takes is one of the two data bits (R96, R201). -/
theorem exists_bitByte (hbit : a.toNat ≤ 1) : ∃ b, a = bitByte b := by
  obtain h | h : a.toNat = 0 ∨ a.toNat = 1 := by omega
  · exact ⟨false, BitVec.eq_of_toNat_eq h⟩
  · exact ⟨true, BitVec.eq_of_toNat_eq h⟩

theorem ite_bitByte_eq_zero {α : Type} (b : Bool) (x y : α) : (if bitByte b = 0 then x else y) = if b then y else x := by
  cases b <;> rfl

/-- A walk that is not halted stands on an internal node, both children of which hold a value (R31, R37). -/
theorem exists_walk_nodes (h : Inv s) (ha : s.decActive = true) (hh : s.decHalt = false) (b : Bool) :
    ∃ e d, memRead s.node s.cur.toNat = some e ∧ e.kind = .internal ∧
      memRead s.node (if b then e.right else e.left).toNat = some d := by
  have htree := h.tree (treeValid_of_decActive h ha)
  obtain ⟨e, he, hk⟩ := h.walk.internal ha hh
  obtain ⟨hleft, hright, -⟩ := htree.children _ e he hk
  have hchild : (if b then e.right else e.left).toNat < s.nnodes.toNat := by cases b <;> assumption
  obtain ⟨d, hd⟩ := Option.isSome_iff_exists.mp ((htree.written _).mpr hchild)
  exact ⟨e, d, he, hk, hd⟩

/-- Settles O51: the two checks of DBIT, the halted walk, and the child the bit leads to. -/
theorem dbitWalksOneBit : Obligations.DbitWalksOneBit := by
  refine ⟨usesA_code (o := .dbit) rfl rfl, fun s a h hs => ⟨exec_dbit_of_noWalk hs, exec_dbit_of_noBit hs,
    exec_dbit_of_halted hs, fun ha hbit hh => ?_⟩⟩
  obtain ⟨b, rfl⟩ := exists_bitByte hbit
  obtain ⟨e, d, he, hk, hd⟩ := exists_walk_nodes h ha hh b
  have hexec := exec_dbit_bit hs ha hh he hd
  simp only [ite_bitByte_eq_zero]
  refine ⟨e, d, he, hk, hd, fun hleaf => ?_, fun hinternal => ?_⟩
  · rw [hexec, hleaf]
  · rw [hexec, hinternal]

/-! ### DEND -/

theorem exec_dend_of_noWalk (hs : s.fault = 0) (ha : s.decActive = false) :
    exec .dend s = .next (raise .seq (encode .dend) s) :=
  (running_of_ok hs).trans (check_fail (by simp [ha]))

theorem exec_dend_of_walk (hs : s.fault = 0) (ha : s.decActive = true) :
    exec .dend s = .next (s.setWalk s.root false s.decHalt (decide (s.cur ≠ s.root))) := by
  have hpart : partWay s = decide (s.cur ≠ s.root) := by rw [partWay, bne, beq_eq_decide, decide_not]
  exact hpart ▸ (running_of_ok hs).trans (check_pass ha)

/-- Settles O52: the check of DEND, and the registers it writes. -/
theorem dendEndsTheWalk : Obligations.DendEndsTheWalk :=
  ⟨usesNeither_code (o := .dend) rfl rfl, fun _ hs => ⟨exec_dend_of_noWalk hs, exec_dend_of_walk hs⟩⟩

/-! ### A whole walk over data bits -/

/-- The block after a DESER that completes (R172, R204): it holds the tree, numbered by header position, and nothing has
been read or emitted since the reset. -/
structure LoadedTree (tr : CodeTree) (t : State) : Prop where
  noFault : t.fault = 0
  noResult : t.result = 0
  noBytes : t.obytes = []
  treeValid : t.treeValid = true
  root : t.root = 0
  rep : Rep t.node t.root.toNat tr (List.range tr.size)
  held : heldTree t = some tr

/-- DSTART, a DBIT for each data bit, and DEND (R204, steps (3) to (5)). -/
def walkCommands (bits : List Bool) : List Instr := .dstart :: (bits.map (fun b => .dbit (bitByte b)) ++ [.dend])

theorem walkProcedure_cons (n : Byte) (rest : List Byte) (nbits : Nat) :
    walkProcedure (n :: rest) nbits = walkCommands (dataBits (n :: rest) n nbits) := rfl

/-- A walk that has ended, with `out` emitted (R202). -/
def State.walked (s : State) (halt part : Bool) (out : List Byte) : State :=
  (s.setWalk s.root false halt part).emitBytes out

section
variable {halt stopped : Bool} {out : List Byte}

@[simp] theorem State.walked_fault : (s.walked halt stopped out).fault = s.fault := rfl
@[simp] theorem State.walked_decActive : (s.walked halt stopped out).decActive = false := rfl
@[simp] theorem State.walked_decPartial : (s.walked halt stopped out).decPartial = stopped := rfl
@[simp] theorem State.walked_obytes : (s.walked halt stopped out).obytes = s.obytes ++ out := rfl
@[simp] theorem State.heldTree_walked : heldTree (s.walked halt stopped out) = heldTree s := rfl

end

/-- DSTART halts the walk where the root is the whole tree (R200). -/
theorem Rep.haltsAt_root {nodes : Memory Node} {i : Nat} (h : Rep nodes i tr p) :
    ∃ e, memRead nodes i = some e ∧ (haltsAt e = true ↔ ∃ v, tr = .leaf v) := by
  cases h with
  | leaf he hk => exact ⟨_, he, by simp [haltsAt, hk]⟩
  | node he hk => exact ⟨_, he, by simp [haltsAt, hk]⟩

/-- DSTART and DEND around the data bits (R200, R202). -/
theorem runAll_walkCommands {u : State} (h : LoadedTree tr t) (he : memRead t.node t.root.toNat = some e)
    (hbits : runAll (bits.map fun b => .dbit (bitByte b)) (t.setWalk t.root true (haltsAt e) false) = .next u)
    (hu : u.fault = 0) (ha : u.decActive = true) :
    runAll (walkCommands bits) t = .next (u.setWalk u.root false u.decHalt (decide (u.cur ≠ u.root))) := by
  rw [walkCommands, runAll_cons (exec_dstart_of_tree h.noFault h.treeValid he), runAll_append hbits,
    runAll_cons (exec_dend_of_walk hu ha)]
  rfl

/-- With a leaf root the walk is halted: it emits nothing and is not part-way at its end (R203). -/
theorem runAll_walk_of_leaf {v : Byte} (h : LoadedTree (.leaf v) t) (bits : List Bool) :
    runAll (walkCommands bits) t = .next (t.walked true false []) := by
  obtain ⟨e, he, hroot⟩ := h.rep.haltsAt_root
  have hhalt := hroot.mpr ⟨v, rfl⟩
  have hbits := runAll_dbit_halted (s := t.setWalk t.root true (haltsAt e) false) (bits := bits) h.noFault rfl hhalt
  rw [runAll_walkCommands h he hbits h.noFault rfl]
  simp [State.walked, State.setWalk, State.emitBytes, hhalt]

/-- No entry below the root of a loaded tree is the root, whose index 0 comes first in pre-order (R173). -/
theorem LoadedTree.ne_root_of_mem_tail {cur : NodeIndex} (h : LoadedTree tr t)
    (hcur : cur.toNat ∈ (List.range tr.size).tail) : cur ≠ t.root := by
  rintro rfl
  rw [h.root, List.tail_range] at hcur
  simp at hcur

/-- With an internal root the codes of the data bits are led to their symbols, and a last part of a code leaves the walk
part-way exactly where it has a bit (R201, R202). -/
theorem runAll_walk_of_node (h : LoadedTree (.node l r) t)
    (hcodes : List.Forall₂ (fun a code => (a, code) ∈ (CodeTree.node l r).codes) input codes)
    (hpart : ∃ x ∈ (CodeTree.node l r).codes, part <+: x.2 ∧ part ≠ x.2) :
    runAll (walkCommands (codes.flatten ++ part)) t = .next (t.walked false (decide (part ≠ [])) input) := by
  obtain ⟨e, he, hroot⟩ := h.rep.haltsAt_root
  have hhalt : haltsAt e = false := by simpa using hroot
  obtain ⟨x, hx, hprefix, hne⟩ := hpart
  have hfull := runAll_dbit (s := t.setWalk t.root true (haltsAt e) false) h.rep rfl rfl rfl h.noFault rfl hhalt rfl
    hcodes
  obtain ⟨cur, hrun, -, hnil, htail⟩ := h.rep.walk_part x hx part hprefix hne
    ((t.setWalk t.root true (haltsAt e) false).emitBytes input) rfl h.noFault rfl hhalt rfl
  have hcur : cur = t.root ↔ part = [] :=
    ⟨fun hc => by_contra fun hp => h.ne_root_of_mem_tail (htail hp) hc, hnil⟩
  have hbits := (runAll_append (js := part.map fun b => .dbit (bitByte b)) hfull).trans hrun
  rw [← List.map_append] at hbits
  rw [runAll_walkCommands h he hbits h.noFault rfl]
  simp [State.walked, State.setWalk, State.emitBytes, hhalt, hcur]

/-- How a walk over the data bits `bits` ends (R201 to R203): with an internal root they are the codes of the bytes emitted
and a first part of a code, and with a leaf root nothing is emitted. -/
structure WalkEnd (tr : CodeTree) (bits : List Bool) (u : State) : Prop where
  noFault : u.fault = 0
  held : heldTree u = some tr
  idle : u.decActive = false
  leafRoot : (∃ v, tr = .leaf v) → u.obytes = [] ∧ u.decPartial = false
  nodeRoot : (∃ l r, tr = .node l r) → ∃ codes part, bits = codes.flatten ++ part ∧
    List.Forall₂ (fun a code => (a, code) ∈ tr.codes) u.obytes codes ∧
    (∃ x ∈ tr.codes, part <+: x.2 ∧ part ≠ x.2) ∧ (u.decPartial = true ↔ part ≠ [])

/-- Any data bits of a loaded tree are walked to such an end. -/
theorem runAll_walk (h : LoadedTree tr t) (bits : List Bool) :
    ∃ u, runAll (walkCommands bits) t = .next u ∧ WalkEnd tr bits u := by
  cases tr with
  | leaf v =>
    exact ⟨_, runAll_walk_of_leaf h bits, h.noFault, h.held, rfl, fun _ => ⟨by simp [h.noBytes], rfl⟩,
      fun ⟨_, _, hnode⟩ => by cases hnode⟩
  | node l r =>
    obtain ⟨input, codes, part, rfl, hcodes, hpart⟩ := CodeTree.codes_and_part l r bits
    exact ⟨_, runAll_walk_of_node h hcodes hpart, h.noFault, h.held, rfl, (fun ⟨_, hleaf⟩ => by cases hleaf),
      fun _ => ⟨codes, part, rfl, by simpa [h.noBytes] using hcodes, hpart, by simp⟩⟩

/-- A walk over the codes of an input, and no more bits, gives the input back (R205). With a leaf root there is no input. -/
theorem runAll_walk_of_codes (h : LoadedTree tr t)
    (hcodes : List.Forall₂ (fun a code => (a, code) ∈ tr.codes) input codes)
    (hroot : input ≠ [] → ∃ l r, tr = .node l r) :
    ∃ u, runAll (walkCommands codes.flatten) t = .next u ∧ u.fault = 0 ∧ u.obytes = input ∧ u.decPartial = false ∧
      heldTree u = some tr := by
  cases tr with
  | leaf v =>
    obtain rfl : input = [] := by_contra fun hne => by obtain ⟨_, _, hnode⟩ := hroot hne; cases hnode
    exact ⟨_, runAll_walk_of_leaf h _, h.noFault, by simp [h.noBytes], rfl, h.held⟩
  | node l r =>
    obtain ⟨_, _, part, hnil, -, hpart⟩ := CodeTree.codes_and_part l r []
    obtain rfl : part = [] := (List.append_eq_nil_iff.mp hnil.symm).2
    have hrun := runAll_walk_of_node h hcodes hpart
    rw [List.append_nil] at hrun
    exact ⟨_, hrun, h.noFault, by simp [h.noBytes], rfl, h.held⟩

/-! ### The commands up to DESER -/

theorem runAll_singleton (i : Instr) (s : State) : runAll [i] s = exec i s := by
  cases h : exec i s <;> simp [runAll, h]

/-- The block behind a reset, with `m` in the header buffer, which is complete where its `k` bytes are the declared `n`. -/
def State.withBuffer (s : State) (m : Memory Byte) (n k : Byte) : State :=
  (resetBlock s).setHeader m n k (headerComplete k n)

theorem headerComplete_ofNat (hl : bs.length ≤ n.toNat) :
    headerComplete (BitVec.ofNat 8 bs.length) n = decide (bs.length = n.toNat) := by
  rw [headerComplete_eq_decide, decide_eq_decide, ← BitVec.toNat_inj, BitVec.toNat_ofNat,
    Nat.mod_eq_of_lt (hl.trans_lt n.isLt)]

/-- The reset and the loading of header bytes, as many as are declared or fewer (R174, R175, R204). -/
theorem runAll_hload_hput (s : State) (hl : bs.length ≤ n.toNat) : ∃ m, (∀ k, memRead m k = bs[k]?) ∧
    runAll ([.reset, .hload n] ++ bs.map .hput) s = .next (s.withBuffer m n (BitVec.ofNat 8 bs.length)) := by
  obtain ⟨m, hrun, hread⟩ := runAll_hput (s := s.withBuffer [] n 0) (bs := bs) rfl (by simpa [State.withBuffer] using hl)
  have hvalid : (if bs = [] then headerComplete 0 n else decide (0 + bs.length = n.toNat)) =
      headerComplete (BitVec.ofNat 8 bs.length) n := by
    rw [headerComplete_ofNat hl, Nat.zero_add]
    split
    case isTrue hnil => exact hnil ▸ headerComplete_ofNat (bs := []) (Nat.zero_le _)
    case isFalse => rfl
  refine ⟨m, fun k => ?_, (hrun : runAll ([.reset, .hload n] ++ bs.map .hput) s = _).trans ?_⟩
  · rw [hread]
    simp only [State.withBuffer, State.setHeader_hfill, BitVec.ofNat_eq_ofNat, BitVec.toNat_ofNat, Nat.zero_mod,
      Nat.not_lt_zero, if_false, Nat.zero_add, Nat.sub_zero, State.setHeader_hdr, memRead_nil]
    split
    case isTrue => rfl
    case isFalse hk => exact (List.getElem?_eq_none (not_lt.mp hk)).symm
  · simp only [State.withBuffer, State.setHeader_hfill, State.setHeader_hdrValid, State.setHeader_hlen,
      BitVec.ofNat_eq_ofNat, BitVec.toNat_ofNat, Nat.zero_mod, BitVec.zero_add] at hvalid ⊢
    rw [hvalid]
    rfl

theorem headerPart_length_le (n : Byte) (rest : List Byte) : (headerPart n rest).length ≤ n.toNat :=
  List.length_take_le _ _

theorem headerPart_length (hn : n.toNat ≤ rest.length) : (headerPart n rest).length = n.toNat :=
  List.length_take_of_le hn

/-- What is executed after the header bytes of a file are loaded is DESER (R204). -/
theorem runAll_loadProcedure (s : State) (n : Byte) (rest : List Byte) : ∃ m,
    (∀ k, memRead m k = (headerPart n rest)[k]?) ∧
    runAll (loadProcedure (n :: rest)) s =
      exec .deser (s.withBuffer m n (BitVec.ofNat 8 (headerPart n rest).length)) := by
  obtain ⟨m, hread, hrun⟩ := runAll_hload_hput s (headerPart_length_le n rest)
  exact ⟨m, hread, by rw [loadProcedure, runAll_append hrun, runAll_singleton]⟩

/-- The header bytes are all there (R204): DESER finds the complete buffer. -/
theorem runAll_loadProcedure_of_complete (s : State) (hn : n.toNat ≤ rest.length) : ∃ m,
    (∀ k, memRead m k = (headerPart n rest)[k]?) ∧
    runAll (loadProcedure (n :: rest)) s = exec .deser (s.withBuffer m n n) ∧ (s.withBuffer m n n).hdrValid = true := by
  obtain ⟨m, hread, hrun⟩ := runAll_loadProcedure s n rest
  rw [headerPart_length hn, BitVec.ofNat_toNat, BitVec.setWidth_eq] at hrun
  exact ⟨m, hread, hrun, beq_self_eq_true n⟩

/-- An empty file: DESER finds no header (R204, R226). -/
theorem runAll_load_empty (s : State) :
    runAll (loadProcedure []) s = .next (raise .hdrShort (encode .deser) (resetBlock s)) :=
  (runAll_cons rfl).trans ((runAll_singleton _ _).trans (exec_deser_of_incomplete rfl rfl))

/-- Fewer header bytes than the length byte says: DESER finds an incomplete buffer (R204, R226). -/
theorem runAll_load_of_short (s : State) (hn : rest.length < n.toNat) :
    ∃ t, runAll (loadProcedure (n :: rest)) s = .next t ∧ t.fault = 0x20 := by
  obtain ⟨m, -, hrun⟩ := runAll_loadProcedure s n rest
  have hlen : (headerPart n rest).length ≠ n.toNat := by
    rw [headerPart, List.length_take]
    omega
  refine ⟨_, hrun.trans (exec_deser_of_incomplete rfl ?_), rfl⟩
  exact (headerComplete_ofNat (headerPart_length_le n rest)).trans (decide_eq_false hlen)

/-- DESER raises the fault met while the tree is rebuilt (R172). -/
theorem exec_deser_of_raise {err : ErrorCode} (hs : s.fault = 0) (hv : s.hdrValid = true)
    (hdes : deserialize Config.huffcore s.hdr s.hlen.toNat = .error (.raise err)) :
    exec .deser s = .next (raise err (encode .deser) s) := by
  rw [exec_deser_of_complete hs hv, hdes, commit_raise]

/-- A header that begins with no tree's header (R172, R226). -/
theorem runAll_load_of_malformed (s : State) (hn : n.toNat ≤ rest.length)
    (hno : ¬ ∃ tr more, 0xFF ∉ CodeTree.symbols tr ∧ headerPart n rest = tr.ser Config.huffcore ++ more) :
    ∃ t, runAll (loadProcedure (n :: rest)) s = .next t ∧ t.fault = 0x21 := by
  obtain ⟨m, hread, hrun, hvalid⟩ := runAll_loadProcedure_of_complete s hn
  have hlen := headerPart_length hn
  have hdes := deserialize_of_malformed (c := Config.huffcore) hread (hlen ▸ Nat.le_of_lt_succ n.isLt) hno
  rw [hlen] at hdes
  exact ⟨_, hrun.trans (exec_deser_of_raise rfl hvalid hdes), rfl⟩

/-- A tree's header with bytes left behind it (R172, R226). -/
theorem runAll_load_of_trailing {more : List Byte} (s : State) (hn : n.toNat ≤ rest.length) (hmem : 0xFF ∉ tr.symbols)
    (hmore : more ≠ []) (hheader : headerPart n rest = tr.ser Config.huffcore ++ more) :
    ∃ t, runAll (loadProcedure (n :: rest)) s = .next t ∧ t.fault = 0x22 := by
  obtain ⟨m, hread, hrun, hvalid⟩ := runAll_loadProcedure_of_complete s hn
  have hlen := headerPart_length hn
  rw [hheader] at hread hlen
  have hdes := deserialize_of_trailing (c := Config.huffcore) hread hmem hmore (hlen ▸ Nat.le_of_lt_succ n.isLt)
  rw [hlen] at hdes
  exact ⟨_, hrun.trans (exec_deser_of_raise rfl hvalid hdes), rfl⟩

/-- A tree's header (R172): DESER installs the tree. -/
theorem runAll_load_of_ser (s : State) (hn : n.toNat ≤ rest.length) (hmem : 0xFF ∉ tr.symbols)
    (hheader : headerPart n rest = tr.ser Config.huffcore) :
    ∃ t, runAll (loadProcedure (n :: rest)) s = .next t ∧ LoadedTree tr t := by
  obtain ⟨m, hread, hrun, hvalid⟩ := runAll_loadProcedure_of_complete s hn
  have hsize : tr.size = n.toNat := by rw [← CodeTree.ser_length (c := Config.huffcore), ← hheader, headerPart_length hn]
  obtain ⟨N, -, hrep, htree, hdeser⟩ := exec_deser_of_ser (s := s.withBuffer m n n) rfl hvalid hmem hsize
    (hheader ▸ hread)
  exact ⟨_, hrun.trans hdeser, rfl, rfl, rfl, rfl, rfl, hsize ▸ hrep, htree⟩

/-! ### The decode procedure -/

/-- The load and the read of FAULT that follows it (R123, R204). -/
theorem runAll_load_rdreg (hload : runAll (loadProcedure file) s = .next t) :
    runAll (loadProcedure file ++ [.rdreg 2]) s = .next (t.setResult (t.fault.setWidth 64)) := by
  rw [runAll_append hload, runAll_singleton]
  rfl

/-- The host ends on the three faults of DESER (R204). -/
theorem decodeRun_of_fault (hload : runAll (loadProcedure file) s = .next t)
    (hfault : t.fault = 0x20 ∨ t.fault = 0x21 ∨ t.fault = 0x22) :
    decodeRun file nbits s = .next (.noTree, t.setResult (t.fault.setWidth 64)) := by
  have hfailed : headerFailed (t.fault.setWidth 64) = true := by
    rcases hfault with hf | hf | hf <;> rw [hf] <;> rfl
  simp only [decodeRun, runAll_load_rdreg hload, State.setResult_result, hfailed, if_true]

theorem LoadedTree.headerFailed_result (ht : LoadedTree tr t) : headerFailed t.result = false := by
  rw [ht.noResult]
  rfl

section
variable (hload : runAll (loadProcedure file) s = .next t) (ht : LoadedTree tr t)
include hload ht

/-- The read of FAULT finds no fault, and leaves RESULT the 0 it was (R123, R204). -/
theorem LoadedTree.runAll_load_rdreg : runAll (loadProcedure file ++ [.rdreg 2]) s = .next t := by
  have hvalue : t.fault.setWidth 64 = t.result := by rw [ht.noFault, ht.noResult]; rfl
  rw [Machine.runAll_load_rdreg hload, hvalue]
  rfl

theorem LoadedTree.decodeRun_of_badCount (hcount : nbitsAllowed file nbits = false) :
    decodeRun file nbits s = .next (.badCount, t) := by
  simp only [decodeRun, ht.runAll_load_rdreg hload, ht.headerFailed_result, hcount, Bool.false_eq_true, if_false]

theorem LoadedTree.decodeRun_of_walk {u : State} (hcount : nbitsAllowed file nbits = true)
    (hwalk : runAll (walkProcedure file nbits) t = .next u) : decodeRun file nbits s = .next (.recovered, u) := by
  simp only [decodeRun, ht.runAll_load_rdreg hload, ht.headerFailed_result, hcount, hwalk, Bool.false_eq_true, if_false,
    if_true]

end

theorem nbitsAllowed_cons_iff : nbitsAllowed (n :: rest) nbits = true ↔
    8 * (1 + n.toNat) ≤ nbits ∧ nbits ≤ 8 * (n :: rest).length := by
  simp only [nbitsAllowed, Bool.and_eq_true, decide_eq_true_eq]

theorem dataBits_length (hcount : nbits ≤ 8 * file.length) :
    (dataBits file n nbits).length = nbits - 8 * (1 + n.toNat) := by
  rw [dataBits, List.length_drop, List.length_take, unpack, length_flatMap_bits8, Nat.min_eq_left hcount]

/-- How the procedure ends on a file that begins with the whole header of a tree (R204). -/
theorem decodeRun_of_ser (s : State) (nbits : Nat) (hn : n.toNat ≤ rest.length) (hmem : 0xFF ∉ tr.symbols)
    (hheader : headerPart n rest = tr.ser Config.huffcore) : ∃ e t, decodeRun (n :: rest) nbits s = .next (e, t) ∧
    t.fault = 0 ∧ heldTree t = some tr ∧
    (nbits < 8 * (1 + n.toNat) ∨ 8 * (n :: rest).length < nbits → e = .badCount ∧ t.obytes = []) ∧
    (8 * (1 + n.toNat) ≤ nbits → nbits ≤ 8 * (n :: rest).length →
      e = .recovered ∧ WalkEnd tr (dataBits (n :: rest) n nbits) t) := by
  obtain ⟨t, hload, ht⟩ := runAll_load_of_ser s hn hmem hheader
  by_cases hcount : 8 * (1 + n.toNat) ≤ nbits ∧ nbits ≤ 8 * (n :: rest).length
  · obtain ⟨u, hwalk, hend⟩ := runAll_walk ht (dataBits (n :: rest) n nbits)
    exact ⟨_, u, ht.decodeRun_of_walk hload (nbitsAllowed_cons_iff.mpr hcount) hwalk, hend.noFault, hend.held,
      fun hout => by omega, fun _ _ => ⟨rfl, hend⟩⟩
  · have hbad := Bool.eq_false_iff.mpr (nbitsAllowed_cons_iff.not.mpr hcount)
    exact ⟨_, t, ht.decodeRun_of_badCount hload hbad, ht.noFault, ht.held, fun _ => ⟨rfl, ht.noBytes⟩,
      fun hlow hhigh => absurd ⟨hlow, hhigh⟩ hcount⟩

/-- A header is the header of one tree with nothing left, or has a tree's header and more behind it, but not both (R101). -/
theorem ser_ne_ser_append {tr' : CodeTree} {more : List Byte} (hmem : 0xFF ∉ tr.symbols) (hmem' : 0xFF ∉ tr'.symbols)
    (hmore : more ≠ []) : tr.ser Config.huffcore ≠ tr'.ser Config.huffcore ++ more := fun heq =>
  hmore (CodeTree.ser_append_injective (c := Config.huffcore) (rest := []) hmem hmem' (by rwa [List.append_nil])).2.symm

/-- Settles O60: the commands up to DESER end in a fault the host reads, or with the header's tree, which the data bits
walk. -/
theorem decodeProcedureOutcome : Obligations.DecodeProcedureOutcome := by
  intro s file nbits
  cases file with
  | nil =>
    exact ⟨_, _, decodeRun_of_fault (runAll_load_empty s) (.inl rfl), fun _ => ⟨rfl, rfl⟩, fun _ _ h => by cases h⟩
  | cons n rest =>
    by_cases hshort : rest.length < n.toNat
    · obtain ⟨t, hload, hfault⟩ := runAll_load_of_short s hshort
      refine ⟨_, _, decodeRun_of_fault hload (.inl hfault), (fun h => by cases h), ?_⟩
      rintro _ _ ⟨⟩
      exact ⟨fun _ => ⟨rfl, hfault⟩, fun hn => absurd hshort hn.not_gt⟩
    have hn : n.toNat ≤ rest.length := not_lt.mp hshort
    by_cases hstart : ∃ tr more, 0xFF ∉ CodeTree.symbols tr ∧ headerPart n rest = tr.ser Config.huffcore ++ more
    case neg =>
      obtain ⟨t, hload, hfault⟩ := runAll_load_of_malformed s hn hstart
      refine ⟨_, _, decodeRun_of_fault hload (.inr (.inl hfault)), (fun h => by cases h), ?_⟩
      rintro _ _ ⟨⟩
      exact ⟨fun h => absurd h hshort, fun _ => ⟨fun _ => ⟨rfl, hfault⟩,
        fun ⟨tr, more, hmem, _, hheader⟩ => absurd ⟨tr, more, hmem, hheader⟩ hstart,
        fun tr hmem hheader => absurd ⟨tr, [], hmem, by rw [hheader, List.append_nil]⟩ hstart⟩⟩
    have ⟨tr, more, hmem, hheader⟩ := hstart
    by_cases hmore : more = []
    case neg =>
      obtain ⟨t, hload, hfault⟩ := runAll_load_of_trailing s hn hmem hmore hheader
      refine ⟨_, _, decodeRun_of_fault hload (.inr (.inr hfault)), (fun h => by cases h), ?_⟩
      rintro _ _ ⟨⟩
      exact ⟨fun h => absurd h hshort, fun _ => ⟨fun h => absurd hstart h, fun _ => ⟨rfl, hfault⟩,
        fun tr' hmem' hheader' => absurd (hheader'.symm.trans hheader) (ser_ne_ser_append hmem' hmem hmore)⟩⟩
    subst hmore
    rw [List.append_nil] at hheader
    obtain ⟨e, t, hrun, hfault, hheld, hbad, hgood⟩ := decodeRun_of_ser s nbits hn hmem hheader
    refine ⟨e, t, hrun, (fun h => by cases h), ?_⟩
    rintro _ _ ⟨⟩
    refine ⟨fun h => absurd h hshort, fun _ => ⟨fun h => absurd hstart h, fun ⟨_, _, hmem', hmore, hheader'⟩ =>
      absurd (hheader.symm.trans hheader') (ser_ne_ser_append hmem hmem' hmore), fun tr' hmem' hheader' => ?_⟩⟩
    obtain rfl := CodeTree.ser_injective (c := Config.huffcore) hmem' hmem (hheader'.symm.trans hheader)
    refine ⟨hfault, hheld, hbad, fun hlow hhigh => ?_⟩
    obtain ⟨he, hend⟩ := hgood hlow hhigh
    exact ⟨he, hend.idle, dataBits_length hhigh, hend.leafRoot, hend.nodeRoot⟩

/-! ### The file of an encode run -/

/-- Packing eight bits first makes their byte the first byte (R70). -/
theorem pack_bits8_append (v : Byte) (bits : List Bool) : pack (bits8 v ++ bits) = v :: pack bits := by
  have hlen : ((bits8 v ++ bits).length + 7) / 8 = (bits.length + 7) / 8 + 1 := by
    rw [List.length_append, bits8_length]
    omega
  have hbyte : (byteOfBits fun j => (bits8 v ++ bits).getD (8 * 0 + j) false) = v := by
    refine BitVec.eq_of_getLsbD_eq fun i hi => ?_
    have hbit := getLsbD_byteOfBits (fun j => (bits8 v ++ bits).getD (8 * 0 + j) false) (j := 7 - i) (by omega)
    rw [Nat.sub_sub_self (by omega)] at hbit
    rw [hbit]
    interval_cases i <;> rfl
  have hbit : ∀ k j, (bits8 v ++ bits).getD (8 * (k + 1) + j) false = bits.getD (8 * k + j) false := fun k j => by
    rw [List.getD_append_right _ _ _ _ (by rw [bits8_length]; omega), bits8_length]
    congr 1
    omega
  simp only [pack, hlen, List.range_succ_eq_map, List.map_cons, List.map_map, Function.comp_def, hbyte,
    Nat.succ_eq_add_one, hbit]

/-- The file of an encode run (R72, R108): the length byte, the header, and the packed codes. -/
theorem pack_fileBits (bs : List Byte) (codes : List (List Bool)) :
    pack (fileBits bs codes) = BitVec.ofNat 8 bs.length :: (bs ++ pack codes.flatten) := by
  have hbytes : ∀ bs : List Byte, pack (bs.flatMap bits8 ++ codes.flatten) = bs ++ pack codes.flatten := by
    intro bs
    induction bs with
    | nil => rfl
    | cons b bs ih => rw [List.flatMap_cons, List.append_assoc, pack_bits8_append, ih, List.cons_append]
  rw [fileBits, List.append_assoc, pack_bits8_append, hbytes]

/-- The data bits of a packed list are its bits behind the header (R71, R204). -/
theorem dataBits_pack (bits : List Bool) (n : Byte) :
    dataBits (pack bits) n bits.length = bits.drop (8 * (1 + n.toNat)) := by
  rw [dataBits, (packingContract bits).2.2, List.take_left]

theorem fileBits_length (bs : List Byte) (codes : List (List Bool)) :
    (fileBits bs codes).length = 8 * (1 + bs.length) + codes.flatten.length := by
  rw [fileBits, List.length_append, List.length_append, bits8_length, length_flatMap_bits8]
  omega

theorem drop_fileBits (bs : List Byte) (codes : List (List Bool)) :
    (fileBits bs codes).drop (8 * (1 + bs.length)) = codes.flatten := by
  refine List.drop_left' ?_
  rw [List.length_append, bits8_length, length_flatMap_bits8, Nat.mul_add]

/-- The bits of a list fit its packed bytes (R70). -/
theorem length_le_pack (bits : List Bool) : bits.length ≤ 8 * (pack bits).length := by
  rw [pack_length]
  omega

/-! ### What an encode run says of its tree -/

/-- The output commands keep the tree: SER writes the header buffer, EHDR and EPUT the bit stream (R44). -/
theorem heldTree_of_exec_output (hi : i ∈ outputCommands input) (ht : exec i s = .next t) : heldTree t = heldTree s := by
  rcases writesOnly_exec s i t ht with ⟨-, rfl⟩ | ⟨e, rfl⟩ | hw
  · rfl
  · rfl
  · simp only [outputCommands, List.mem_cons, List.mem_map] at hi
    rcases hi with rfl | rfl | ⟨a, -, rfl⟩
    · exact (congrArg heldTree hw).trans rfl
    · exact (congrArg heldTree hw.1).trans rfl
    · exact (congrArg heldTree hw.1).trans rfl

theorem heldTree_of_runAll_output {is : List Instr} (his : is ⊆ outputCommands input) (ht : runAll is s = .next t) :
    heldTree t = heldTree s := by
  induction is generalizing s with
  | nil => cases ht; rfl
  | cons i is ih =>
    obtain ⟨hi, his⟩ := List.cons_subset.mp his
    cases hx : exec i s with
    | next u =>
      rw [runAll_cons hx] at ht
      exact (ih his ht).trans (heldTree_of_exec_output hi hx)
    | fault f => simp [runAll, hx] at ht
    | refused r => simp [runAll, hx] at ht

/-- Where there is a byte to encode, no leaf is the root (R147). -/
theorem CodedInput.internal_root {u : State} (hu : CodedInput input u tr) (hne : input ≠ []) :
    ∃ l r, tr = .node l r := by
  obtain ⟨a, ha⟩ := List.exists_mem_of_ne_nil input hne
  have hcodes := codes_ne_nil_of_perm_builtSymbols hu.symbols ((freqRead_ne_zero_iff_mem hu.counted a).mpr ha)
  cases tr with
  | leaf v => exact absurd rfl (hcodes (v, []) (List.mem_singleton_self _))
  | node l r => exact ⟨l, r, rfl⟩

/-- An encode run without a fault (R192): the tree it holds fits a header, and the bits it emitted are those of the file. -/
theorem file_of_encode (hrun : runAll (encodeProcedure input) s = .next t) (hfault : t.fault = 0) : ∃ tr codes,
    heldTree t = some tr ∧ 0xFF ∉ tr.symbols ∧ tr.size ≤ 255 ∧ (input ≠ [] → ∃ l r, tr = .node l r) ∧
    List.Forall₂ (fun a code => (a, code) ∈ CodeTree.codes tr) input codes ∧
    t.obits = fileBits (tr.ser Config.huffcore) codes := by
  obtain ⟨t', hrun', hovf, hmany, hmem, hfile⟩ := encodeProcedureOutcome s input
  obtain rfl : t' = t := Host.Outcome.next.inj (hrun'.symm.trans hrun)
  have hno : ∀ code : BitVec 8, code ≠ 0 → t'.fault ≠ code := fun code hcode h => hcode (h.symm.trans hfault)
  have hcount : ∀ a, input.count a < 2 ^ 32 := fun a => not_le.mp fun ha => hno 0x10 (by decide) (hovf ⟨a, ha⟩)
  have hdedup : input.dedup.length ≤ 128 := not_lt.mp fun h => hno 0x30 (by decide) (hmany hcount h)
  have hsentinel : 0xFF ∉ input := fun h => hno 0x31 (by decide) (hmem hcount hdedup h)
  obtain ⟨-, tr, codes, htr, hcodes, hbits⟩ := hfile hcount hdedup hsentinel
  obtain ⟨u, tr', hu, hencode⟩ := runAll_encode_of_counted s hcount
  have hheld := heldTree_of_runAll_output (List.Subset.refl _) (hencode.symm.trans hrun)
  obtain rfl : tr = tr' := Option.some.inj (htr.symm.trans (hheld.trans hu.held))
  obtain ⟨_, htree, hsize, -, -⟩ := serialize_heldTree hu.inv hu.treeValid Config.huffcore
  obtain rfl := Option.some.inj (htree.symm.trans hu.held)
  exact ⟨_, codes, htr, hu.sentinel_mem_iff.not.mpr hsentinel, hsize ▸ hu.nodes_le hdedup, hu.internal_root, hcodes,
    hbits⟩

/-! ### Encode, then decode -/

/-- The commands of the procedure that feed a data bit are those between DSTART and DEND (R204). -/
theorem length_filter_dbit (n : Byte) (rest : List Byte) (nbits : Nat) :
    ((decodeProcedure (n :: rest) nbits).filter fun i => decide (∃ b : Bool, i = .dbit (bitByte b))).length =
      (dataBits (n :: rest) n nbits).length := by
  have hdata : ∀ bits : List Bool, (bits.map fun b => Instr.dbit (bitByte b)).countP
      (fun i => decide (∃ b : Bool, i = .dbit (bitByte b))) = bits.length := fun bits => by
    rw [List.countP_map]
    exact List.countP_eq_length.mpr fun b _ => decide_eq_true ⟨b, rfl⟩
  have hload : (loadProcedure (n :: rest)).countP (fun i => decide (∃ b : Bool, i = .dbit (bitByte b))) = 0 :=
    List.countP_eq_zero.mpr fun i hi => by
      simp only [loadProcedure, List.mem_append, List.mem_cons, List.mem_map, List.not_mem_nil, or_false] at hi
      rcases hi with ((rfl | rfl) | ⟨b, -, rfl⟩) | rfl <;> simp
  rw [← List.countP_eq_length_filter, decodeProcedure, List.countP_append, hload, walkProcedure, List.countP_append,
    List.countP_append, hdata]
  simp

/-- Settles O54: the packed file begins with the header of the tree, and its data bits are the codes of the input. -/
theorem encodeThenDecodeRecoversTheInput : Obligations.EncodeThenDecodeRecoversTheInput := by
  intro s s' t input hrun hfault
  obtain ⟨tr, codes, htr, hmem, hsize, hroot, hcodes, hbits⟩ := file_of_encode hrun hfault
  have hlen : (tr.ser Config.huffcore).length = tr.size := CodeTree.ser_length tr
  have hn : (BitVec.ofNat 8 tr.size).toNat = tr.size := by rw [BitVec.toNat_ofNat, Nat.mod_eq_of_lt (by omega)]
  have hdata : dataBits (pack t.obits) (BitVec.ofNat 8 tr.size) t.obits.length = codes.flatten := by
    rw [dataBits_pack, hn, hbits, ← hlen, drop_fileBits]
  have hlow : 8 * (1 + tr.size) ≤ t.obits.length := by
    rw [hbits, fileBits_length, hlen]
    omega
  have hhigh := length_le_pack t.obits
  have hfile : pack t.obits = BitVec.ofNat 8 tr.size :: (tr.ser Config.huffcore ++ pack codes.flatten) := by
    rw [hbits, pack_fileBits, hlen]
  have hheader : headerPart (BitVec.ofNat 8 tr.size) (tr.ser Config.huffcore ++ pack codes.flatten) =
      tr.ser Config.huffcore := List.take_left' (hlen.trans hn.symm)
  rw [hfile] at hdata hhigh ⊢
  obtain ⟨v, hload, hv⟩ := runAll_load_of_ser s' (by rw [hn, List.length_append, hlen]; omega) hmem hheader
  obtain ⟨u, hwalk, hu, hbytes, hpart, hheld⟩ := runAll_walk_of_codes hv hcodes hroot
  rw [← hdata, ← walkProcedure_cons] at hwalk
  refine ⟨u, tr, codes, (runAll_append hload).trans hwalk, ?_, hu, hbytes, hpart, htr, hheld, hcodes, ?_⟩
  · exact hv.decodeRun_of_walk hload (nbitsAllowed_cons_iff.mpr ⟨by rwa [hn], hhigh⟩) hwalk
  · rw [length_filter_dbit, hdata, List.length_flatten]

end Sys2Proof.Machine

/-! PROOFS. The fault codes (R221 to R224) and the refusals of a faulted block (R229): which faults the local computation of a
command can meet, why a command records a fault it does record, and E_SEQ and E_RANGE under their causes. The reset input
(R250). -/

namespace Sys2Proof.Machine

open Sys2Proof.Safety

variable {α β : Type} {s t : State} {i : Instr} {e : ErrorCode} {es : List ErrorCode} {r : Except Stop α}
variable {a : Byte} {n : Word32} {nodes : Memory Node} {cb : Memory CbEntry}

/-! ### The reset input -/

/-- Settles O8: a step takes the reset input as RESET, and without an input it is idle. -/
theorem resetInputActsAsReset : Obligations.ResetInputActsAsReset := by
  refine ⟨fun s rest hport => ⟨step_event hport, _, step_event hport, resetValues_resetBlock _, resetBlock_port _⟩,
    fun s t ht => ?_⟩
  rcases step_cases s with ⟨-, hidle⟩ | ⟨rest, hport, -⟩ | ⟨w, rest, -, hport, -, -⟩ | ⟨w, rest, -, hport, -, -⟩
  · exact .inl (Host.Outcome.next.inj (ht.symm.trans hidle))
  · exact .inr (.inl ⟨rest, hport⟩)
  · exact .inr (.inr ⟨w, rest, hport⟩)
  · exact .inr (.inr ⟨w, rest, hport⟩)

/-! ### The faulted block -/

/-- The register numbers 0 to 9 are assigned (R32). -/
theorem exists_regView (s : State) (ha : a.toNat ≤ 9) : ∃ v, regView s a = some v := by
  unfold regView
  interval_cases a.toNat <;> exact ⟨_, rfl⟩

/-- RDREG of an assigned register executes outside the frame, so in the faulted state too (R120, R123). -/
theorem exec_rdreg_assigned (s : State) (ha : a.toNat ≤ 9) : ∃ v, exec (.rdreg a) s = .next { s with result := v } := by
  obtain ⟨v, hv⟩ := exists_regView s ha
  exact ⟨v, by simp only [exec, execRdreg, hv]; rfl⟩

/-- The faulted block refuses every command but RESET and RDREG of an assigned register (R229). -/
theorem exec_refused (h : s.fault ≠ 0) (hreset : i ≠ .reset) (hrdreg : ∀ a, i = .rdreg a → 9 < a.toNat) :
    exec i s = .next s := by
  by_cases hi : ∃ a, i = .rdreg a
  · obtain ⟨a, rfl⟩ := hi
    exact (exec_rdreg_unassigned (hrdreg a rfl)).trans (running_of_faulted h)
  · exact exec_faulted h hreset (not_exists.mp hi)

/-- Settles O9: RESET and an assigned RDREG are outside the frame, which refuses every other word. -/
theorem faultedBlockRefuses : Obligations.FaultedBlockRefuses := by
  intro s w hf
  refine ⟨fun hd => ⟨resetBlock s, execWord_of_decode hd, rfl⟩, fun a hd ha => ?_, fun hreset hrdreg => ?_⟩
  · rw [execWord_of_decode hd]
    exact exec_rdreg_assigned s ha
  · cases hd : decode w with
    | error x => exact (execWord_of_illegal hd).trans (running_of_faulted hf)
    | ok i =>
      rw [hd] at hreset hrdreg
      rw [execWord_of_decode hd]
      exact exec_refused hf (fun h => hreset (congrArg _ h)) fun a h => hrdreg a (congrArg _ h)

/-! ### The faults of a local computation -/

/-- A local computation raises no fault of the block but those listed. -/
def RaisesOnly (es : List ErrorCode) (r : Except Stop α) : Prop := ∀ e, r = .error (.raise e) → e ∈ es

theorem raisesOnly_ok (v : α) : RaisesOnly es (.ok v) := by
  intro e he
  cases he

theorem raisesOnly_fault (f : Fault) : RaisesOnly es (.error (.fault f) : Except Stop α) := by
  intro e he
  cases he

theorem raisesOnly_raise (h : e ∈ es) : RaisesOnly es (.error (.raise e) : Except Stop α) := by
  intro e' he'
  cases he'
  exact h

/-- A computation hands on the error of a part of it. -/
theorem RaisesOnly.of_part {x : Stop} (hr : RaisesOnly es r) (hx : r = .error x) :
    RaisesOnly es (.error x : Except Stop β) := by
  intro e he
  cases he
  exact hr e hx

theorem raisesOnly_readEntry {sp : Space} {m : Memory α} {k : Nat} : RaisesOnly es (readEntry sp m k) :=
  fun _ he => absurd he readEntry_ne_raise

theorem raisesOnly_readAll {sp : Space} {m : Memory α} (ks : List Nat) : RaisesOnly es (readAll sp m ks) := by
  induction ks with
  | nil => exact raisesOnly_ok _
  | cons k ks ih =>
    unfold readAll
    split
    · exact raisesOnly_readEntry.of_part ‹_›
    · split
      · exact ih.of_part ‹_›
      · exact raisesOnly_ok _

/-- CBGEN's traversal meets E_DUP_SYM alone (R160). -/
theorem raisesOnly_visit (fuel k : Nat) (path : List Bool) (cb : Memory CbEntry) :
    RaisesOnly [.dupSym] (visit nodes fuel k path cb) := by
  induction fuel generalizing k path cb with
  | zero => exact raisesOnly_fault _
  | succ fuel ih =>
    unfold visit
    split
    · exact raisesOnly_readEntry.of_part ‹_›
    · split
      · split
        · exact raisesOnly_readEntry.of_part ‹_›
        · split
          · exact raisesOnly_raise (List.mem_singleton_self _)
          · exact raisesOnly_ok _
      · split
        · exact (ih _ _ _).of_part ‹_›
        · exact ih _ _ _

theorem raisesOnly_preorder (fuel k : Nat) : RaisesOnly es (preorder nodes fuel k) := by
  induction fuel generalizing k with
  | zero => exact raisesOnly_fault _
  | succ fuel ih =>
    unfold preorder
    split
    · exact raisesOnly_readEntry.of_part ‹_›
    · split
      · exact raisesOnly_ok _
      · split
        · exact (ih _).of_part ‹_›
        · split
          · exact (ih _).of_part ‹_›
          · exact raisesOnly_ok _

/-- SER meets E_HDR_OVF before the traversal and E_SENT_LEAF after it (R171). -/
theorem raisesOnly_serialize (c : Config) (n root : Nat) :
    RaisesOnly [.hdrOvf, .sentLeaf] (serialize c nodes n root) := by
  unfold serialize
  split
  · exact raisesOnly_raise (by decide)
  · split
    · exact (raisesOnly_preorder _ _).of_part ‹_›
    · split
      · exact raisesOnly_fault _
      · split
        · exact (raisesOnly_readAll _).of_part ‹_›
        · split
          · exact raisesOnly_raise (by decide)
          · exact raisesOnly_ok _

theorem raisesOnly_parse (c : Config) (hdr : Memory Byte) (hlen fuel p : Nat) (N : Memory Node)
    (hes : .hdrMalformed ∈ es) : RaisesOnly es (parse c hdr hlen fuel p N) := by
  induction fuel generalizing p N with
  | zero => exact raisesOnly_fault _
  | succ fuel ih =>
    unfold parse
    split
    · exact raisesOnly_raise hes
    · split
      · exact raisesOnly_readEntry.of_part ‹_›
      · split
        · split
          · exact (ih _ _).of_part ‹_›
          · split
            · exact (ih _ _).of_part ‹_›
            · exact raisesOnly_ok _
        · exact raisesOnly_ok _

/-- DESER's parse meets E_HDR_MALFORMED, and E_HDR_TRAIL follows a parse that succeeds (R172). -/
theorem raisesOnly_deserialize (c : Config) (hdr : Memory Byte) (hlen : Nat) :
    RaisesOnly [.hdrMalformed, .hdrTrail] (deserialize c hdr hlen) := by
  unfold deserialize
  split
  · exact (raisesOnly_parse c hdr hlen _ _ _ (by decide)).of_part ‹_›
  · split
    · exact raisesOnly_raise (by decide)
    · exact raisesOnly_ok _

theorem raisesOnly_headerBits (hdr : Memory Byte) (hlen : BitVec 8) : RaisesOnly es (headerBits hdr hlen) := by
  unfold headerBits
  split
  · exact (raisesOnly_readAll _).of_part ‹_›
  · exact raisesOnly_ok _

theorem raisesOnly_codeBits (cb : Memory CbEntry) (a : Byte) : RaisesOnly [.noCode] (codeBits cb a) := by
  unfold codeBits
  split
  · exact raisesOnly_readEntry.of_part ‹_›
  · split
    · exact raisesOnly_raise (List.mem_singleton_self _)
    · exact raisesOnly_ok _

theorem raisesOnly_walkBit (root cur : NodeIndex) (b : Byte) : RaisesOnly es (walkBit nodes root cur b) := by
  unfold walkBit
  split
  · exact raisesOnly_readEntry.of_part ‹_›
  · split
    · exact raisesOnly_readEntry.of_part ‹_›
    · split <;> exact raisesOnly_ok _

theorem raisesOnly_readBit (x : CbEntry) (k : Nat) : RaisesOnly es (readBit x k) := by
  unfold readBit
  split
  · exact raisesOnly_ok _
  · exact raisesOnly_fault _

/-- CBIT meets E_RANGE alone, where the entry has no bit at the position (R163). -/
theorem codeBit_raise (h : codeBit cb a n = .error (.raise e)) :
    e = .range ∧ ∃ x, memRead cb a.toNat = some x ∧ ¬ n.toNat < x.len.toNat := by
  unfold codeBit at h
  split at h
  case h_1 hx => cases h; exact absurd hx readEntry_ne_raise
  case h_2 x hx =>
    split at h
    case isTrue => exact absurd (raisesOnly_readBit (es := []) x n.toNat e h) List.not_mem_nil
    case isFalse hn => cases h; exact ⟨rfl, x, readEntry_ok_iff.mp hx, hn⟩

/-! ### The cause of a fault -/

/-- The fault `e` of the command `i` in the state `s` is in its row of the fault table (R221), and E_SEQ and E_RANGE have
their causes (R223, R224). -/
structure FaultCause (s : State) (i : Instr) (e : ErrorCode) : Prop where
  listed : e.code ∈ ownFaults i
  seq : e = .seq → requiredFlag s i = false
  range : e = .range → ¬ OperandsInRange s i

theorem faultCause_seq (hlisted : ErrorCode.seq.code ∈ ownFaults i) (hflag : requiredFlag s i ≠ true) :
    FaultCause s i .seq := ⟨hlisted, fun _ => Bool.eq_false_iff.mpr hflag, nofun⟩

theorem faultCause_range (hlisted : ErrorCode.range.code ∈ ownFaults i) (hrange : ¬ OperandsInRange s i) :
    FaultCause s i .range := ⟨hlisted, nofun, fun _ => hrange⟩

/-- A fault of the command's own needs no more than its row of the table. -/
theorem faultCause_own (hlisted : e.code ∈ ownFaults i) (hseq : e ≠ .seq) (hrange : e ≠ .range) : FaultCause s i e :=
  ⟨hlisted, fun h => absurd h hseq, fun h => absurd h hrange⟩

/-- A next state has no fault, or one with a cause. -/
def FaultsWithCause (i : Instr) (s : State) (o : Host.Outcome State Fault Refusal) : Prop :=
  ∀ t, o = .next t → t.fault = 0 ∨ ∃ e, t.fault = e.code ∧ FaultCause s i e

theorem faultsWithCause_next (h : t.fault = 0) : FaultsWithCause i s (.next t) := by
  intro u hu
  cases hu
  exact .inl h

theorem faultsWithCause_raise (h : FaultCause s i e) : FaultsWithCause i s (.next (raise e (encode i) s)) := by
  intro u hu
  cases hu
  exact .inr ⟨e, rfl, h⟩

section
variable {k : Host.Outcome State Fault Refusal}

theorem faultsWithCause_running (h : s.fault = 0) (hk : FaultsWithCause i s k) : FaultsWithCause i s (running s k) := by
  rwa [running_of_ok h]

theorem faultsWithCause_check {ok : Prop} [Decidable ok] (hno : ¬ ok → FaultCause s i e) (hk : FaultsWithCause i s k) :
    FaultsWithCause i s (check ok e i s k) := by
  intro t ht
  rcases check_next ht with ⟨hfail, rfl⟩ | ⟨-, hkt⟩
  · exact .inr ⟨e, rfl, hno hfail⟩
  · exact hk t hkt

/-- The frame of a command with a required flag (R120 step 4). -/
theorem faultsWithCause_requires {flag : Bool} (h : s.fault = 0) (hlisted : ErrorCode.seq.code ∈ ownFaults i)
    (hflag : flag = requiredFlag s i) (hk : FaultsWithCause i s k) :
    FaultsWithCause i s (running s (check (flag = true) .seq i s k)) :=
  faultsWithCause_running h <| faultsWithCause_check (fun hno => faultCause_seq hlisted (hflag ▸ hno)) hk

/-- The check of an operand (R120 step 5). -/
theorem faultsWithCause_inRange {ok : Prop} [Decidable ok] (hlisted : ErrorCode.range.code ∈ ownFaults i)
    (hok : OperandsInRange s i → ok) (hk : FaultsWithCause i s k) : FaultsWithCause i s (check ok .range i s k) :=
  faultsWithCause_check (fun hno => faultCause_range hlisted (hno ∘ hok)) hk

end

theorem faultsWithCause_commit {f : α → State} (hf : ∀ v, (f v).fault = 0)
    (hr : ∀ e, r = .error (.raise e) → FaultCause s i e) : FaultsWithCause i s (commit i s r f) := by
  intro t ht
  rcases commit_next ht with ⟨v, -, rfl⟩ | ⟨e, hre, rfl⟩
  · exact .inl (hf v)
  · exact .inr ⟨e, rfl, hr e hre⟩

/-- A commit whose local computation raises no fault. -/
theorem faultsWithCause_commit_quiet {f : α → State} (hf : ∀ v, (f v).fault = 0) (hr : RaisesOnly [] r) :
    FaultsWithCause i s (commit i s r f) :=
  faultsWithCause_commit hf fun e he => absurd (hr e he) List.not_mem_nil

/-- A commit whose local computation raises the command's own faults. -/
theorem faultsWithCause_commit_own {f : α → State} (hf : ∀ v, (f v).fault = 0) (hr : RaisesOnly es r)
    (hes : ∀ e ∈ es, e.code ∈ ownFaults i ∧ e ≠ .seq ∧ e ≠ .range) : FaultsWithCause i s (commit i s r f) := by
  refine faultsWithCause_commit hf fun e he => ?_
  obtain ⟨hlisted, hseq, hrange⟩ := hes e (hr e he)
  exact faultCause_own hlisted hseq hrange

/-! ### The commands -/

theorem faultsWithCause_rdreg (h : s.fault = 0) (a : Byte) : FaultsWithCause (.rdreg a) s (exec (.rdreg a) s) := by
  by_cases ha : a.toNat ≤ 9
  · obtain ⟨v, hv⟩ := exec_rdreg_assigned s ha
    exact hv ▸ faultsWithCause_next h
  · rw [exec_rdreg_unassigned (not_le.mp ha)]
    exact faultsWithCause_running h (faultsWithCause_raise (faultCause_range (List.mem_singleton_self _) ha))

theorem faultsWithCause_cbit (h : s.fault = 0) (a : Byte) (n : Word32) :
    FaultsWithCause (.cbit a n) s (exec (.cbit a n) s) := by
  refine faultsWithCause_requires h List.mem_cons_self rfl ?_
  refine faultsWithCause_commit (fun _ => h) fun e he => ?_
  obtain ⟨rfl, x, hx, hn⟩ := codeBit_raise he
  refine faultCause_range (List.mem_cons_of_mem _ (List.mem_singleton_self _)) fun ⟨y, hy, hlt⟩ => ?_
  obtain rfl : x = y := Option.some.inj (hx.symm.trans hy)
  exact hn hlt

theorem faultsWithCause_dbit (h : s.fault = 0) (b : Byte) : FaultsWithCause (.dbit b) s (exec (.dbit b) s) := by
  refine faultsWithCause_requires h List.mem_cons_self rfl ?_
  refine faultsWithCause_inRange (List.mem_cons_of_mem _ (List.mem_singleton_self _)) id ?_
  split
  · exact faultsWithCause_next h
  · exact faultsWithCause_commit_quiet (fun _ => h) (raisesOnly_walkBit _ _ _)

theorem faultsWithCause_hput (h : s.fault = 0) (b : Byte) : FaultsWithCause (.hput b) s (exec (.hput b) s) := by
  refine faultsWithCause_running h <|
    faultsWithCause_check (fun _ => faultCause_own (List.mem_singleton_self _) nofun nofun) <|
      faultsWithCause_commit_quiet (fun _ => h) ?_
  split
  · exact raisesOnly_ok _
  · exact raisesOnly_fault _

/-- Every fault of a command has its cause, in every state without a fault. -/
theorem faultsWithCause_exec (h : s.fault = 0) (i : Instr) : FaultsWithCause i s (exec i s) := by
  cases i with
  | reset => exact faultsWithCause_next rfl
  | nop | fclr | fset | fget | build | hload => exact faultsWithCause_running h (faultsWithCause_next h)
  | abort =>
    exact faultsWithCause_running h (faultsWithCause_raise (faultCause_own (List.mem_singleton_self _) nofun nofun))
  | rdreg a => exact faultsWithCause_rdreg h a
  | finc =>
    exact faultsWithCause_running h <|
      faultsWithCause_check (fun _ => faultCause_own (List.mem_singleton_self _) nofun nofun) (faultsWithCause_next h)
  | nget | nwgt =>
    exact faultsWithCause_requires h List.mem_cons_self rfl <|
      faultsWithCause_inRange (List.mem_cons_of_mem _ (List.mem_singleton_self _)) id <|
        faultsWithCause_commit_quiet (fun _ => h) raisesOnly_readEntry
  | cbgen =>
    exact faultsWithCause_requires h List.mem_cons_self rfl <|
      faultsWithCause_commit_own (fun _ => h) (raisesOnly_visit _ _ _ _) (by decide)
  | clen | dstart =>
    exact faultsWithCause_requires h List.mem_cons_self rfl <|
      faultsWithCause_commit_quiet (fun _ => h) raisesOnly_readEntry
  | cbit a n => exact faultsWithCause_cbit h a n
  | ser =>
    exact faultsWithCause_requires h List.mem_cons_self rfl <|
      faultsWithCause_commit_own (fun _ => h) (raisesOnly_serialize _ _ _) (by decide)
  | deser =>
    exact faultsWithCause_running h <| faultsWithCause_check (fun _ => faultCause_own (by decide) nofun nofun) <|
      faultsWithCause_commit_own (fun _ => h) (raisesOnly_deserialize _ _ _) (by decide)
  | hput b => exact faultsWithCause_hput h b
  | hget =>
    exact faultsWithCause_running h <| faultsWithCause_inRange (List.mem_singleton_self _) id <|
      faultsWithCause_commit_quiet (fun _ => h) raisesOnly_readEntry
  | ehdr =>
    exact faultsWithCause_requires h List.mem_cons_self rfl <|
      faultsWithCause_commit_quiet (fun _ => h) (raisesOnly_headerBits _ _)
  | eput =>
    exact faultsWithCause_requires h List.mem_cons_self rfl <|
      faultsWithCause_commit_own (fun _ => h) (raisesOnly_codeBits _ _) (by simp [ownFaults, ErrorCode.code])
  | dbit b => exact faultsWithCause_dbit h b
  | dend => exact faultsWithCause_requires h List.mem_cons_self rfl (faultsWithCause_next h)

/-- Settles O12: a fault of a command has a cause, which lists its code; a word that is no command raises E_ILLEGAL_CMD. -/
theorem faultCodesByCommand : Obligations.FaultCodesByCommand := by
  refine ⟨fun s t i hs ht => ?_, fun s t w x hs hd ht => ?_⟩
  · refine (faultsWithCause_exec hs i t ht).imp_right ?_
    rintro ⟨e, he, hcause⟩
    exact he ▸ hcause.listed
  · rw [execWord_of_illegal hd, illegalWord, running_of_ok hs] at ht
    cases ht
    rfl

/-! ### E_SEQ, then E_RANGE -/

/-- The required flag is checked first (R223, R230). -/
theorem exec_of_flag_false (hs : s.fault = 0) (hflag : requiredFlag s i = false) :
    exec i s = .next (raise .seq (encode i) s) := by
  cases i with
  | nget | nwgt | cbgen | ser | dstart | clen | cbit | eput | ehdr | dbit | dend =>
    exact (running_of_ok hs).trans (check_fail (Bool.eq_false_iff.mp hflag))
  | nop | reset | rdreg | abort | fclr | finc | fset | fget | build | deser | hload | hput | hget => cases hflag

/-- CBIT finds the entry every symbol has while CB_VALID is 1, so what is out of range is the bit position (R163). -/
theorem exec_cbit_of_outOfRange (h : Inv s) (hs : s.fault = 0) (hc : s.cbValid = true)
    (hrange : ¬ OperandsInRange s (.cbit a n)) :
    exec (.cbit a n) s = .next (raise .range (encode (.cbit a n)) s) := by
  obtain ⟨x, hx, -⟩ := exists_cbEntry h hc a
  have hn : x.len.toNat ≤ n.toNat := not_lt.mp fun hlt => hrange ⟨x, hx, hlt⟩
  rw [exec_cbit_of_codebook hs hc, codeBit_of_beyond hx hn, commit_raise]

/-- The operands are checked once the required flag is 1 (R224, R230). -/
theorem exec_of_outOfRange (h : Inv s) (hs : s.fault = 0) (hflag : requiredFlag s i = true)
    (hrange : ¬ OperandsInRange s i) : exec i s = .next (raise .range (encode i) s) := by
  cases i with
  | rdreg a => exact (exec_rdreg_unassigned (not_le.mp hrange)).trans (running_of_ok hs)
  | nget | nwgt | dbit => exact (running_of_ok hs).trans <| (check_pass hflag).trans (check_fail hrange)
  | hget => exact (running_of_ok hs).trans (check_fail hrange)
  | cbit a n => exact exec_cbit_of_outOfRange h hs hflag hrange
  | nop | reset | abort | fclr | finc | fset | fget | build | cbgen | clen | ser | deser | hload | hput | ehdr | eput
  | dstart | dend => exact absurd trivial hrange

/-- Settles O11: the two checks in their order, and behind them no fault has E_SEQ's or E_RANGE's cause. -/
theorem sequenceThenRange : Obligations.SequenceThenRange := by
  refine fun s i h hs => ⟨exec_of_flag_false hs, exec_of_outOfRange h hs, fun hflag hrange => ?_⟩
  obtain ⟨t, ht, -⟩ := keepsInv_exec h i
  refine ⟨t, ht, ?_⟩
  rcases faultsWithCause_exec hs i t ht with hzero | ⟨e, he, hcause⟩
  · rw [hzero]
    decide
  · rw [he]
    refine ⟨fun hseq => ?_, fun hrng => hcause.range (ErrorCode.code_injective (f := .range) hrng) hrange⟩
    exact absurd hflag (Bool.eq_false_iff.mp (hcause.seq (ErrorCode.code_injective (f := .seq) hseq)))

end Sys2Proof.Machine
